-- ==== Sys2Proof/Word.lean ====
section
/-! DEFINITION. The word types of GRD-CORE (00_scope R11, 20_memory R60). -/

namespace Sys2Proof

/-- One byte, the cell of every memory and the unit of every access (R11, R12, R70). -/
abbrev Byte := BitVec 8

/-- A 32-bit value, as the Huffman header and the region lengths hold it (R11, R95). -/
abbrev Word32 := BitVec 32

end Sys2Proof
end

