-- ==== Sys2Proof/Config.lean ====
section
/-! DEFINITION. The two parameters the spec leaves open (00_scope R8). Each is a constant with no body, so nothing in
Lean can learn its value and every claim holds for every setting. The operations that depend on one take it as an
argument; only the meanings and the step pass these constants. -/

namespace Sys2Proof

/-- The domain of `P_FREQ_OVERFLOW` (R8, R145; decision D7). -/
inductive FreqOverflow where
  | wrap32
  | exact
  | fault
deriving DecidableEq, Repr, Inhabited

namespace Config

/-- `P_FREQ_OVERFLOW` (R8, R145): what a merge does when a sum exceeds 2^32-1. OPEN in the spec (log 2). -/
opaque freqOverflow : FreqOverflow

/-- The bits `P_HOUT_CAPACITY` is read from; see `houtCapacity` (log 3). -/
opaque houtCapacityBits : BitVec 32

/-- `P_HOUT_CAPACITY` (R8; decision D11): the most bytes HOUT holds. OPEN in the spec: any number from 1 to 2^32-1
(log 3). -/
def houtCapacity : Nat := max 1 houtCapacityBits.toNat

end Config
end Sys2Proof
end

