-- ==== Sys2Proof/Syntax.lean ====
section
/-! DEFINITION. The tokens GRD-CORE executes: one constructor per row of spec/opcode_table.json (30_encoding R94 to
R104), the stream format a token stands in, and the descriptor the header collaborator hands over (10_state R22). -/

namespace Sys2Proof

/-- One token. Each constructor carries the operands the row's encoding gives it. -/
inductive Instr where
  /-- `PIPE.RLE` (R94, R214): pack type 0x01. -/
  | pipeRle
  /-- `PIPE.HUFDICT` (R94, R215): pack type 0xA2. -/
  | pipeHufdict
  /-- `PIPE.HUFRLE` (R94, R216): every other pack type. -/
  | pipeHufrle (pack : Byte)
  /-- `HUF.HEADER` (R95, R141): `unpackedSize`, `packedSize` and the 256 frequencies. -/
  | hufHeader (unpacked packed : Word32) (freqs : List Word32)
  /-- `HUF.BIT0` (R96, R148). -/
  | hufBit0
  /-- `HUF.BIT1` (R96, R149). -/
  | hufBit1
  /-- `DICT.HEADER` (R97, R171): byte 8 is the escape marker; the other 11 bytes are no operand. -/
  | dictHeader (esc : Byte)
  /-- `DICT.LIT` (R98, R173): the byte `t0`. -/
  | dictLit (b : Byte)
  /-- `DICT.ESC` (R98, R174): both bytes are the escape marker. -/
  | dictEsc
  /-- `DICT.COPY` (R98, R99, R175): the raw offset `t1` and the count `t2`. -/
  | dictCopy (rawOffset count : Byte)
  /-- `RLE.NOP` (R100, R195). -/
  | rleNop
  /-- `RLE.LIT` (R100, R194): the literal bytes; their number is the control byte. -/
  | rleLit (lits : List Byte)
  /-- `RLE.RUN` (R100, R101, R193): the run length `k[6:0]` and the value byte. -/
  | rleRun (n : BitVec 7) (v : Byte)
deriving DecidableEq, Repr

/-- The format the next token is read in. The encodings overlap, and what tells them apart is the phase (R104) and, in
a dictionary stream, the escape marker (R98); for a code bit it is also the bit's place in its byte (R96, R131). -/
inductive Ctx where
  /-- The pack-type byte (phase `CH_SETUP`, R94). -/
  | pack
  /-- The Huffman stream header (phase `HUF_HEADER`, R95). -/
  | hufHeader
  /-- A code bit, at this position of the byte that holds it (phase `HUF_DECODE`, R96). -/
  | hufBit (pos : Fin 8)
  /-- The dictionary stream header (phase `DICT_HEADER`, R97). -/
  | dictHeader
  /-- A dictionary token, with this escape marker (phase `DICT`, R98). -/
  | dict (esc : Byte)
  /-- A run-length token (phase `RLE`, R100). -/
  | rle
deriving DecidableEq, Repr

/-- Why a byte string is no token. No byte value is illegal in any format (R103, R104): only missing bytes are. -/
inductive DecodeError where
  /-- The bytes end before the token does (R102). -/
  | tokenCutShort
deriving DecidableEq, Repr

/-- What the decoder answers: a token and the bytes after it, or the reason there is none. -/
inductive Decoded where
  | token (i : Instr) (rest : List Byte)
  | rejected (e : DecodeError)
deriving DecidableEq, Repr

/-- The image descriptor (10_state R22): what the host writes into the `DESC_*` registers. -/
structure Descriptor where
  version  : Byte
  pack     : Byte
  width    : BitVec 16
  height   : BitVec 16
  depth    : BitVec 16
  alen     : Word32
  rlen     : Word32
  glen     : Word32
  blen     : Word32
  fileSize : Word32
deriving DecidableEq, Repr

end Sys2Proof
end

