-- ==== Sys2Proof/Machine/State.lean ====
section
/-! DEFINITION. The state of GRD-CORE as plain data (10_state R20 to R45), the reasons a step can stop, and reset.

A register that the spec says can hold NO VALUE (R43, R44) is an Option: 'no value' is a state the spec gives it, which
rules R133, R211, R213, R215, R216 and R245 write, and not a missing reset value (log 1). In the memories and the arena a
cell that holds no value is a cell that is not listed. -/

namespace Sys2Proof.Machine

/-- `PHASE` (R33): which rule the next step executes. -/
inductive Phase where
  | idle | chSetup | hufHeader | hufBuild | hufDecode | dictHeader | dict | rle | fillCheck | scatter | chNext | done
  | error
deriving DecidableEq, Repr

/-- `STATUS.STATE` (R28). -/
inductive StatusState where
  | idle | busy | done | error
deriving DecidableEq, Repr

/-- `OUT_FORMAT` (R27): `RGB24` is 0, `RGBA32` is 1. -/
inductive OutFormat where
  | rgb24 | rgba32
deriving DecidableEq, Repr

/-- `PIPE_MODE` (R31). -/
inductive PipeMode where
  | rle | hufrle | hufdict
deriving DecidableEq, Repr

/-- `IN_SPACE` (R32): the memory under the input port. -/
inductive Space where
  | src | hout
deriving DecidableEq, Repr

/-- The four memories (20_memory R60). -/
inductive MemName where
  | src | hout | plane | pix
deriving DecidableEq, Repr

/-- The error kinds the CORE raises (60_exceptions R241). `InvalidDescriptor`, code 1, is never raised by the CORE
(R244), so it is no constructor here. -/
inductive ErrKind where
  | truncatedInput | malformedTree | outputOverflow | badBackReference | planeUnderfill | capacityExceeded
  | frequencyOverflow
deriving DecidableEq, Repr

/-- The stages that report errors (60_exceptions R242). -/
inductive Stage where
  | hufHeader | hufBuild | hufDecode | dict | rle | fillCheck
deriving DecidableEq, Repr

/-- The registers that can hold no value (R44). -/
inductive Reg where
  | descVersion | descPack | descWidth | descHeight | descDepth | descAlen | descRlen | descGlen | descBlen
  | descFileSize
  | hasAlpha | bpp | outFormat | planeSize | pixSize
  | jobs | jobIdx | chChan | chFileOff | chLen | pipeMode
  | inSpace | inBase | inLimit | inPos
  | brByte | brPos
  | hufUnpacked | hufNext | hufNode | hufOutCnt | act
  | dictEsc | dictDst | rleSrcSize | rleDst
deriving DecidableEq, Repr

/-- A cell of the machine that a rule can find holding no value (R43). -/
inductive CellName where
  | reg (r : Reg)
  | mem (m : MemName) (addr : Nat)
  | freq (i : Nat)
  | left (i : Nat)
  | right (i : Nat)
  /-- The front of the active list, when the list has no entry there. -/
  | actEntry
  /-- The entry of `JOBS` at this index. -/
  | job (i : Nat)
  /-- A byte of the next token, under the input port. -/
  | token
deriving DecidableEq, Repr

/-- One entry of `JOBS` (R31, R212). -/
structure Job where
  chan    : BitVec 2
  fileOff : BitVec 33
  len     : BitVec 32
deriving DecidableEq, Repr

/-- What the host does to the CORE that changes its state (44_pipeline R230): load a file image and the descriptor, or
issue `CMD.DECODE_IMAGE`. -/
inductive HostAct where
  | load (desc : Descriptor) (image : List Byte)
  | decodeImage
deriving DecidableEq, Repr

/-- A byte memory: the cells that hold a value, addresses strictly rising; an unlisted address holds no value. -/
abbrev Memory := List Host.Cell

/-- Why a step faults. -/
inductive Fault where
  /-- A write to an address the memory does not have (R77). Raised by `writePlane`, `hufEmit` and `scatterWrite`. SAFE:
  the model stops; no run from `CORE_OK` forms such an address (log 11). -/
  | outsideMemory (m : MemName) (addr : Nat)
  /-- A merge would allocate an index outside 256..510 (R36, R146). Raised by `hufMerge`. SAFE: the model stops; no
  run from `CORE_OK` gets there (log 12). -/
  | arenaIndex (i : Nat)
deriving DecidableEq, Repr

/-- Why a step is refused. -/
inductive Refusal where
  /-- An instruction without a meaning; no arm of exec answers it. SAFE. -/
  | notModelled (mnemonic : String)
  /-- A rule reads a cell that holds no value: the spec asks for a refusal (R43, 93 U8). Raised by `withVal` and the
  loops over memory. SAFE. -/
  | noValue (c : CellName)
  /-- `CMD.DECODE_IMAGE` with a descriptor that fails `CORE_OK` (R26, R244). Raised by `hostAct`. SAFE. -/
  | startNotOk
  /-- A host act while `STATUS.STATE` is `BUSY` (R230, 93 U16). Raised by `hostAct`. SAFE. -/
  | hostWhileBusy
  /-- A host read of `PIX` while `STATUS.STATE` is not `DONE` (R75, R230). Raised by `hostReadPix`. SAFE. -/
  | pixNotDone
deriving DecidableEq, Repr

/-- The state (R20). -/
structure State where
  /-- `PHASE` (R33), the program counter. -/
  phase        : Phase
  /-- `STATUS.STATE` (R28). -/
  statusState  : StatusState
  /-- `STATUS.OUT_FORMAT` (R28). -/
  statusFormat : OutFormat
  /-- `ERR_CODE`, `ERR_CHANNEL`, `ERR_STAGE` (R29). -/
  errCode      : BitVec 4
  errChannel   : BitVec 2
  errStage     : BitVec 3
  /-- The descriptor registers (R22 to R25). -/
  descVersion  : Option (BitVec 8)
  descPack     : Option (BitVec 8)
  descWidth    : Option (BitVec 16)
  descHeight   : Option (BitVec 16)
  descDepth    : Option (BitVec 16)
  descAlen     : Option (BitVec 32)
  descRlen     : Option (BitVec 32)
  descGlen     : Option (BitVec 32)
  descBlen     : Option (BitVec 32)
  descFileSize : Option (BitVec 32)
  /-- The derived registers (R27). -/
  hasAlpha     : Option Bool
  bpp          : Option (BitVec 3)
  outFormat    : Option OutFormat
  planeSize    : Option (BitVec 32)
  pixSize      : Option (BitVec 34)
  /-- The channel job registers (R31). -/
  jobs         : Option (List Job)
  jobIdx       : Option (BitVec 3)
  chChan       : Option (BitVec 2)
  chFileOff    : Option (BitVec 33)
  chLen        : Option (BitVec 32)
  pipeMode     : Option PipeMode
  /-- The input port (R32). -/
  inSpace      : Option Space
  inBase       : Option (BitVec 33)
  inLimit      : Option (BitVec 33)
  inPos        : Option (BitVec 33)
  /-- The BitReader (R34); `brPos` is 0..8, 8 meaning that no bit is left (log 9). -/
  brByte       : Option (BitVec 8)
  brPos        : Option (Fin 9)
  /-- The HuffmanDecoder's scalars (R35). -/
  hufUnpacked  : Option (BitVec 32)
  hufNext      : Option (BitVec 10)
  hufNode      : Option (BitVec 9)
  hufOutCnt    : Option (BitVec 32)
  /-- The node arena (R36): the indices that hold a value, rising. `FREQ` is a number (log 8). -/
  freq         : List (Nat × Nat)
  left         : List (Nat × BitVec 9)
  right        : List (Nat × BitVec 9)
  /-- The active list (R37), front first; no value after a fault (R245). -/
  act          : Option (List (BitVec 9))
  /-- The DictionaryDecoder (R38). -/
  dictEsc      : Option (BitVec 8)
  dictDst      : Option (BitVec 32)
  /-- The RunLengthDecoder (R39). -/
  rleSrcSize   : Option (BitVec 32)
  rleDst       : Option (BitVec 32)
  /-- The scatter registers (R40): no value outside the scatter step (log 14). -/
  scatY        : Option (BitVec 16)
  scatX        : Option (BitVec 16)
  scatDst      : Option (BitVec 34)
  /-- The four memories (20_memory R60). -/
  src          : Memory
  hout         : Memory
  plane        : Memory
  pix          : Memory
  /-- The host's pending acts, first first: the model's own field (log 4). -/
  inbox        : List HostAct
deriving DecidableEq, Repr

/-- Power-on reset (10_state R44, 70_reset R270). -/
def State.reset : State :=
  { phase := .idle, statusState := .idle, statusFormat := .rgb24
    errCode := 0, errChannel := 0, errStage := 0
    descVersion := none, descPack := none, descWidth := none, descHeight := none, descDepth := none
    descAlen := none, descRlen := none, descGlen := none, descBlen := none, descFileSize := none
    hasAlpha := none, bpp := none, outFormat := none, planeSize := none, pixSize := none
    jobs := none, jobIdx := none, chChan := none, chFileOff := none, chLen := none, pipeMode := none
    inSpace := none, inBase := none, inLimit := none, inPos := none
    brByte := none, brPos := none
    hufUnpacked := none, hufNext := none, hufNode := none, hufOutCnt := none
    freq := [], left := [], right := [], act := some []
    dictEsc := none, dictDst := none, rleSrcSize := none, rleDst := none
    scatY := none, scatX := none, scatDst := none
    src := [], hout := [], plane := [], pix := []
    inbox := [] }

end Sys2Proof.Machine
end

