-- ==== Sys2Proof/Machine/Flags.lean ====
section
/-! DEFINITION. The status and error codes (10_state R28, R29, 60_exceptions R241, R242). GRD-CORE has no condition
flags: these fields are its only flags (R41). -/

namespace Sys2Proof.Machine

/-- The code a fault writes to `ERR_CODE` (R241). -/
def errKindCode : ErrKind → BitVec 4
  | .truncatedInput => 2
  | .malformedTree => 3
  | .outputOverflow => 4
  | .badBackReference => 5
  | .planeUnderfill => 6
  | .capacityExceeded => 7
  | .frequencyOverflow => 8

/-- The code a fault writes to `ERR_STAGE` (R29, R242). -/
def stageCode : Stage → BitVec 3
  | .hufHeader => 1
  | .hufBuild => 2
  | .hufDecode => 3
  | .dict => 4
  | .rle => 5
  | .fillCheck => 6

/-- The code of `STATUS.STATE` (R28). -/
def statusCode : StatusState → BitVec 8
  | .idle => 0
  | .busy => 1
  | .done => 2
  | .error => 3

/-- The code of an output format (R27). -/
def formatCode : OutFormat → BitVec 8
  | .rgb24 => 0
  | .rgba32 => 1

/-- The `STATUS` word the host reads (R28): `STATE` in bits 1:0, `OUT_FORMAT` in bit 2, bits 7:3 zero. -/
def statusWord (s : State) : BitVec 8 := statusCode s.statusState ||| (formatCode s.statusFormat <<< 2)

/-- Which kinds a stage can report (R242). -/
def stageReports : Stage → ErrKind → Bool
  | .hufHeader, e => e == .truncatedInput || e == .capacityExceeded || e == .malformedTree
  | .hufBuild, e => e == .frequencyOverflow
  | .hufDecode, e => e == .truncatedInput
  | .dict, e => e == .truncatedInput || e == .badBackReference || e == .outputOverflow
  | .rle, e => e == .truncatedInput || e == .outputOverflow
  | .fillCheck, e => e == .planeUnderfill

end Sys2Proof.Machine
end

