-- ==== Sys2Proof/Machine/Ops.lean ====
section
/-! DEFINITION. The named operations every rule is written with: cells and memories, reading a register, the fault
entry, the input port and the BitReader. The operations take a continuation: what the rule does next. -/

namespace Sys2Proof.Machine

/-- What a step answers. -/
abbrev Out := Host.Outcome State Fault Refusal

/-! ## Sparse cells: the memories and the arena -/

/-- The value of the cell at `a`, or `none` when it holds no value (R43). -/
def cellGet {α : Type} : List (Nat × α) → Nat → Option α
  | [], _ => none
  | c :: m, a => bif Nat.beq c.1 a then some c.2 else cellGet m a

/-- Writing a cell; addresses stay strictly rising. -/
def cellSet {α : Type} : List (Nat × α) → Nat → α → List (Nat × α)
  | [], a, v => [(a, v)]
  | c :: m, a, v =>
    bif Nat.blt a c.1 then (a, v) :: c :: m
    else bif Nat.beq c.1 a then (a, v) :: m
    else c :: cellSet m a v

/-- The canonical form: every address is greater than the ones before it, the first at least `lo`. -/
def cellsFrom {α : Type} : Nat → List (Nat × α) → Bool
  | _, [] => true
  | lo, c :: m => decide (lo ≤ c.1) && cellsFrom (c.1 + 1) m

/-- The canonical form of a memory: addresses strictly rising. No entry can equal what an unlisted address reads as,
since that is no value. -/
def Memory.wf (m : Memory) : Bool := cellsFrom 0 m

/-- `MemRead(space, a, 1)` (R12): the byte, or `none` when the cell holds no value. -/
def Memory.read (m : Memory) (a : Nat) : Option (BitVec 8) := cellGet m a

/-- `MemWrite(space, a, 1, v)` (R12). -/
def Memory.write (m : Memory) (a : Nat) (v : BitVec 8) : Memory := cellSet m a v

/-- Writing a string of bytes at `a`, `a+1`, …, in this order. -/
def Memory.writeBytes (m : Memory) (a : Nat) : List (BitVec 8) → Memory
  | [] => m
  | v :: vs => Memory.writeBytes (m.write a v) (a + 1) vs

/-- The memory that holds exactly these bytes at `a`, `a+1`, …. -/
def Memory.ofBytes (a : Nat) : List (BitVec 8) → Memory
  | [] => []
  | v :: vs => (a, v) :: Memory.ofBytes (a + 1) vs

/-! ## Reading registers -/

/-- Reading a cell that may hold no value: `k` goes on with the value, and a read of no value is refused (R43, 93 U8). -/
def withVal {α β : Type} (c : CellName) (v : Option α) (k : α → Host.Outcome β Fault Refusal) :
    Host.Outcome β Fault Refusal :=
  match v with
  | some a => k a
  | none => .refused (.noValue c)

/-- Reading a register. -/
def withReg {α β : Type} (r : Reg) (v : Option α) (k : α → Host.Outcome β Fault Refusal) :
    Host.Outcome β Fault Refusal :=
  withVal (.reg r) v k

/-- Going on with the result of a loop over a memory. -/
def andThen {α β : Type} (o : Host.Outcome α Fault Refusal) (k : α → Host.Outcome β Fault Refusal) :
    Host.Outcome β Fault Refusal :=
  match o with
  | .next a => k a
  | .fault f => .fault f
  | .refused r => .refused r

/-! ## The fault entry (60_exceptions R245) -/

/-- The state after the fault entry, for the channel `c` in `CH_CHAN` (R245). -/
def State.faultEntry (s : State) (e : ErrKind) (stage : Stage) (c : BitVec 2) : State :=
  { s with
    errCode := errKindCode e, errChannel := c, errStage := stageCode stage
    statusState := .error, phase := .error
    inSpace := none, inBase := none, inLimit := none, inPos := none
    brByte := none, brPos := none
    hufUnpacked := none, hufNext := none, hufNode := none, hufOutCnt := none
    act := none, freq := [], left := [], right := []
    dictEsc := none, dictDst := none, rleSrcSize := none, rleDst := none
    scatY := none, scatX := none, scatDst := none
    jobIdx := none, chChan := none, chFileOff := none, chLen := none, pipeMode := none
    pix := [], plane := [], hout := [] }

/-- `raise E(stage)` (R13, R245): the last action of its step. There is no return from it (R247). -/
def raise (e : ErrKind) (stage : Stage) (s : State) : Out :=
  withReg .chChan s.chChan fun c => .next (s.faultEntry e stage c)

/-! ## The input port (20_memory R66 to R68) -/

/-- Setting the port onto a window (R68). -/
def State.openPort (s : State) (sp : Space) (base limit : BitVec 33) : State :=
  { s with inSpace := some sp, inBase := some base, inPos := some base, inLimit := some limit }

/-- Moving the port's read pointer (R66, R171). -/
def State.setInPos (s : State) (p : BitVec 33) : State := { s with inPos := some p }

/-- The byte at `a` of the memory under the port. -/
def portByte (s : State) (sp : Space) (a : Nat) : Option (BitVec 8) :=
  match sp with
  | .src => s.src.read a
  | .hout => s.hout.read a

/-- The name of the cell at `a` of the memory under the port. -/
def portCell (sp : Space) (a : Nat) : CellName :=
  match sp with
  | .src => .mem .src a
  | .hout => .mem .hout a

/-- `readByte(IN)` (R66). -/
def readByte (e : ErrKind) (stage : Stage) (s : State) (k : BitVec 8 → State → Out) : Out :=
  withReg .inPos s.inPos fun p =>
  withReg .inLimit s.inLimit fun l =>
  if l ≤ p then raise e stage s
  else
    withReg .inSpace s.inSpace fun sp =>
    withVal (portCell sp p.toNat) (portByte s sp p.toNat) fun v =>
    k v (s.setInPos (p + 1))

/-- Consuming `n` bytes of a token whose values the decoder has already read: `n` times the bound and the advance of
`readByte(IN)` (R66). The error is raised when any of them is beyond the window; which byte it was leaves no trace, since
the fault entry wipes the port (R67, R245; log 10). -/
def takeBytes (n : Nat) (e : ErrKind) (stage : Stage) (s : State) (k : State → Out) : Out :=
  withReg .inPos s.inPos fun p =>
  withReg .inLimit s.inLimit fun l =>
  if p.toNat + n ≤ l.toNat then k (s.setInPos (p + BitVec.ofNat 33 n)) else raise e stage s

/-! ## The BitReader (40_bitreader) -/

/-- Attachment (R132): empty. -/
def State.attachBitReader (s : State) : State := { s with brByte := none, brPos := some 8 }

/-- Detachment (R133): the residue is discarded. -/
def State.detachBitReader (s : State) : State := { s with brByte := none, brPos := none }

/-- The BitReader with this byte loaded and this bit next. -/
def State.setBits (s : State) (b : BitVec 8) (q : Fin 9) : State := { s with brByte := some b, brPos := some q }

/-- `nextBit()` (R131): the refill is lazy, only when all 8 bits are consumed. -/
def nextBit (s : State) (k : Bool → State → Out) : Out :=
  withReg .brPos s.brPos fun q =>
  if h : q.val < 8 then
    withReg .brByte s.brByte fun b =>
    k (b.getLsbD q.val) (s.setBits b ⟨q.val + 1, Nat.succ_lt_succ h⟩)
  else
    readByte .truncatedInput .hufDecode s fun b s => k (b.getLsbD 0) (s.setBits b 1)

/-! ## Writing the plane (20_memory R63) -/

/-- Writing a string of bytes into PLANE at `dst`; an address at or past `PLANE_SIZE` is outside the memory (R60, R77). -/
def writePlane (s : State) (dst : Nat) (vs : List (BitVec 8)) (k : Memory → Out) : Out :=
  withReg .planeSize s.planeSize fun size =>
  if dst + vs.length ≤ size.toNat then k (s.plane.writeBytes dst vs)
  else .fault (.outsideMemory .plane (max dst size.toNat))

end Sys2Proof.Machine
end

