-- ==== Sys2Proof/Machine/Operands.lean ====
section
/-! DEFINITION. Operand assembly and the arithmetic of the units: the copy offset (30_encoding R99), run lengths (R101),
the sum of two frequencies (41_huffman R145) and the region offsets (30_encoding R93). -/

namespace Sys2Proof.Machine

/-- The effective offset of a copy (R99): a raw offset greater than the escape marker is decremented. Kept exactly
(R277). -/
def copyOffset (rawOffset esc : BitVec 8) : BitVec 8 := if rawOffset > esc then rawOffset - 1 else rawOffset

/-- The bytes a run writes (R193): the value, `n` times. -/
def runBytes (n : BitVec 7) (v : BitVec 8) : List (BitVec 8) := List.replicate n.toNat v

/-- `freqAdd(a, b)` under a setting of `P_FREQ_OVERFLOW` (R145); `none` is the error `FrequencyOverflow`. -/
def freqAdd (p : FreqOverflow) (a b : Nat) : Option Nat :=
  match p with
  | .wrap32 => some ((a + b) % 2 ^ 32)
  | .exact => some (a + b)
  | .fault => if a + b > 2 ^ 32 - 1 then none else some (a + b)

/-- The region offsets `offA`, `offR`, `offG`, `offB` (R93), exact sums. -/
def offA : Nat := 32
def offR (alen : BitVec 32) : Nat := 32 + alen.toNat
def offG (alen rlen : BitVec 32) : Nat := offR alen + rlen.toNat
def offB (alen rlen glen : BitVec 32) : Nat := offG alen rlen + glen.toNat

/-- `jobList()` (44_pipeline R212). -/
def jobList (hasAlpha : Bool) (alen rlen glen blen : BitVec 32) : List Job :=
  (if hasAlpha then [{ chan := 3, fileOff := BitVec.ofNat 33 offA, len := alen }] else []) ++
    [{ chan := 0, fileOff := BitVec.ofNat 33 (offR alen), len := rlen },
     { chan := 1, fileOff := BitVec.ofNat 33 (offG alen rlen), len := glen },
     { chan := 2, fileOff := BitVec.ofNat 33 (offB alen rlen glen), len := blen }]

end Sys2Proof.Machine
end

