-- ==== Sys2Proof/Machine/Dictionary.lean ====
section
/-! DEFINITION. The DictionaryDecoder (42_dictionary). -/

namespace Sys2Proof.Machine

/-- The start of a dictionary stage (R170, R151): its registers hold no value until `DICT.HEADER` writes them (10_state
R43). -/
def State.enterDict (s : State) : State := { s with dictEsc := none, dictDst := none, phase := .dictHeader }

/-- `DICT.HEADER` (R171): the port moves to index 8, one byte is read, and the port moves to index 12. -/
def execDictHeader (esc : BitVec 8) (s : State) : Out :=
  takeBytes 1 .truncatedInput .dict (s.setInPos 8) fun s =>
  .next { s.setInPos 12 with dictEsc := some esc, dictDst := some 0, phase := .dict }

/-- Appending one byte to the plane (R173, R174). -/
def dictAppend (b : BitVec 8) (s : State) : Out :=
  withReg .dictDst s.dictDst fun dst =>
  writePlane s dst.toNat [b] fun plane =>
  .next { s with plane := plane, dictDst := some (dst + 1) }

/-- `DICT.LIT` (R173). -/
def execDictLit (b : BitVec 8) (s : State) : Out :=
  takeBytes 1 .truncatedInput .dict s fun s => dictAppend b s

/-- `DICT.ESC` (R174): the escape marker itself, as a literal. -/
def execDictEsc (s : State) : Out :=
  takeBytes 2 .truncatedInput .dict s fun s =>
  withReg .dictEsc s.dictEsc fun e => dictAppend e s

/-- The copy loop of `DICT.COPY` (R175): one byte at a time, each read after the previous write (R14, R276). -/
def copyLoop (offset : Nat) : Nat → Nat → Memory → Host.Outcome Memory Fault Refusal
  | 0, _, m => .next m
  | count + 1, dst, m =>
    withVal (.mem .plane (dst - offset)) (m.read (dst - offset)) fun v =>
    copyLoop offset count (dst + 1) (m.write dst v)

/-- `DICT.COPY` (R175, R248): a copy of count 0 reads and writes nothing and never faults; otherwise the reference is
checked, then the room, then the bytes are copied. -/
def execDictCopy (rawOffset count : BitVec 8) (s : State) : Out :=
  takeBytes 3 .truncatedInput .dict s fun s =>
  if count = 0 then .next s
  else
    withReg .dictEsc s.dictEsc fun e =>
    withReg .dictDst s.dictDst fun dst =>
    if copyOffset rawOffset e = 0 ∨ (copyOffset rawOffset e).toNat > dst.toNat then
      raise .badBackReference .dict s
    else
      withReg .planeSize s.planeSize fun size =>
      if dst.toNat + count.toNat > size.toNat then raise .outputOverflow .dict s
      else
        andThen (copyLoop (copyOffset rawOffset e).toNat count.toNat dst.toNat s.plane) fun plane =>
        .next { s with plane := plane, dictDst := some (dst + BitVec.ofNat 32 count.toNat) }

/-- The end of a dictionary stage (R172): the plane is full. -/
def dictEnd (s : State) : Out := .next { s with phase := .fillCheck }

end Sys2Proof.Machine
end

