-- ==== Sys2Proof/Machine/RunLength.lean ====
section
/-! DEFINITION. The RunLengthDecoder (43_runlength). -/

namespace Sys2Proof.Machine

/-- The set-up of a run-length stage and the entry into its phase (R191, R214, R151). -/
def State.enterRle (s : State) (srcSize : BitVec 32) : State :=
  { s with rleSrcSize := some srcSize, rleDst := some 0, phase := .rle }

/-- A run-length token that writes the bytes `vs` after its control byte, from `operandBytes` further token bytes: the
overflow check stands after the control byte and before the operand bytes (R193, R194, R248). -/
def rleWrite (vs : List (BitVec 8)) (operandBytes : Nat) (s : State) : Out :=
  takeBytes 1 .truncatedInput .rle s fun s =>
  withReg .rleDst s.rleDst fun dst =>
  withReg .planeSize s.planeSize fun size =>
  if dst.toNat + vs.length > size.toNat then raise .outputOverflow .rle s
  else
    takeBytes operandBytes .truncatedInput .rle s fun s =>
    .next
      { s with
        plane := s.plane.writeBytes dst.toNat vs, rleDst := some (dst + BitVec.ofNat 32 vs.length) }

/-- `RLE.RUN` (R193). -/
def execRleRun (n : BitVec 7) (v : BitVec 8) (s : State) : Out := rleWrite (runBytes n v) 1 s

/-- `RLE.LIT` (R194). -/
def execRleLit (lits : List (BitVec 8)) (s : State) : Out := rleWrite lits lits.length s

/-- `RLE.NOP` (R195): only the control byte is consumed. -/
def execRleNop (s : State) : Out :=
  takeBytes 1 .truncatedInput .rle s fun s => .next s

/-- The end of a run-length stage (R192). -/
def rleEnd (s : State) : Out := .next { s with phase := .fillCheck }

end Sys2Proof.Machine
end

