-- ==== Sys2Proof/Machine/Huffman.lean ====
section
/-! DEFINITION. The HuffmanDecoder (41_huffman): the header, the stable insertion, the merges, the walk. -/

namespace Sys2Proof.Machine

/-! ## The active list (R142) -/

/-- Stable insertion (R142) into a list whose entries carry their frequencies: immediately before the first entry with a
strictly greater frequency, at the end when there is none. -/
def insertKeyed (f : Nat) (n : BitVec 9) : List (Nat × BitVec 9) → List (Nat × BitVec 9)
  | [] => [(f, n)]
  | (g, x) :: l => if g > f then (f, n) :: (g, x) :: l else (g, x) :: insertKeyed f n l

/-- The entries of an active list with their frequencies, read from `FREQ`. -/
def keyed (freq : List (Nat × Nat)) : List (BitVec 9) → Host.Outcome (List (Nat × BitVec 9)) Fault Refusal
  | [] => .next []
  | x :: xs =>
    withVal (.freq x.toNat) (cellGet freq x.toNat) fun f =>
    andThen (keyed freq xs) fun l => .next ((f, x) :: l)

/-- `insertStable(n)` (R142). -/
def insertStable (freq : List (Nat × Nat)) (n : BitVec 9) (act : List (BitVec 9)) :
    Host.Outcome (List (BitVec 9)) Fault Refusal :=
  withVal (.freq n.toNat) (cellGet freq n.toNat) fun f =>
  andThen (keyed freq act) fun l => .next ((insertKeyed f n l).map Prod.snd)

/-- Seeding (R141): the leaves from index `i` on, with these frequencies, inserted in index order. `FREQ` is not written
while the list is seeded, so each entry keeps its frequency beside it (log 16; Obligations.HufHeaderSeedsTheBuild). -/
def seedKeyed : Nat → List (BitVec 32) → List (Nat × BitVec 9) → List (Nat × BitVec 9)
  | _, [], l => l
  | i, f :: fs, l => seedKeyed (i + 1) fs (insertKeyed f.toNat (BitVec.ofNat 9 i) l)

/-- The active list after `HUF.HEADER` (R141, R143). -/
def seedActive (fs : List (BitVec 32)) : List (BitVec 9) := (seedKeyed 0 fs []).map Prod.snd

/-- Writing the frequencies of the leaves from index `i` on (R141). -/
def writeFreqs (freq : List (Nat × Nat)) : Nat → List (BitVec 32) → List (Nat × Nat)
  | _, [] => freq
  | i, f :: fs => writeFreqs (cellSet freq i f.toNat) (i + 1) fs

/-! ## HUF.HEADER (R141) -/

/-- `HUF.HEADER` for a capacity `cap` of HOUT (R141): the errors in the order of R248. -/
def hufHeader (cap : Nat) (unpacked : BitVec 32) (freqs : List (BitVec 32)) (s : State) : Out :=
  takeBytes 4 .truncatedInput .hufHeader s fun s =>
  if unpacked.toNat > cap then raise .capacityExceeded .hufHeader s
  else
    takeBytes 4 .truncatedInput .hufHeader s fun s =>
    takeBytes 1024 .malformedTree .hufHeader s fun s =>
    .next
      { s with
        hufUnpacked := some unpacked, freq := writeFreqs s.freq 0 freqs, act := some (seedActive freqs)
        hufNext := some 256, phase := .hufBuild }

/-- `HUF.HEADER` (R141); `packedSize` is read and discarded. -/
def execHufHeader (unpacked _packed : BitVec 32) (freqs : List (BitVec 32)) (s : State) : Out :=
  hufHeader Config.houtCapacity unpacked freqs s

/-! ## HUF.MERGE (R144) -/

/-- The state after a merge made node `n` of `l` and `r` with frequency `f`; when one node remains, the decode phase is
entered and the BitReader attached (R144, R132). The list, then `[510]`, is kept: R37 has it exist only during the build,
but no rule takes it away. DESIGN CHOICE (log 24). -/
def State.merged (s : State) (n : BitVec 10) (l r : BitVec 9) (f : Nat) (act : List (BitVec 9)) : State :=
  let s' :=
    { s with
      hufNext := some (n + 1), freq := cellSet s.freq n.toNat f, left := cellSet s.left n.toNat l
      right := cellSet s.right n.toNat r, act := some act }
  if act.length = 1 then
    { s'.attachBitReader with hufOutCnt := some 0, hufNode := some 510, phase := .hufDecode }
  else s'

/-- `HUF.MERGE` under a setting of `P_FREQ_OVERFLOW` (R144, R145). -/
def hufMerge (p : FreqOverflow) (s : State) : Out :=
  withReg .act s.act fun act =>
  match act with
  | l :: r :: rest =>
    withReg .hufNext s.hufNext fun n =>
    if 256 ≤ n.toNat ∧ n.toNat ≤ 510 then
      withVal (.freq l.toNat) (cellGet s.freq l.toNat) fun fl =>
      withVal (.freq r.toNat) (cellGet s.freq r.toNat) fun fr =>
      match freqAdd p fl fr with
      | none => raise .frequencyOverflow .hufBuild s
      | some f =>
        andThen (insertStable (cellSet s.freq n.toNat f) (n.setWidth 9) rest) fun act' =>
        .next (s.merged n l r f act')
    else .fault (.arenaIndex n.toNat)
  | _ => .refused (.noValue .actEntry)

/-! ## The walk (R148 to R150) -/

/-- `emit()` (R150): the leaf's index is the output byte, and the walk starts again at the root. Only the addresses
below `HUF_UNPACKED` of HOUT are used (20_memory R60; log 11). -/
def hufEmit (leaf : BitVec 9) (s : State) : Out :=
  withReg .hufOutCnt s.hufOutCnt fun cnt =>
  withReg .hufUnpacked s.hufUnpacked fun u =>
  if cnt < u then
    .next
      { s with
        hout := s.hout.write cnt.toNat (leaf.setWidth 8), hufOutCnt := some (cnt + 1), hufNode := some 510 }
  else .fault (.outsideMemory .hout cnt.toNat)

/-- The move to a child (R148, R149): a leaf ends the code. -/
def hufMove (child : BitVec 9) (s : State) : Out :=
  if child.toNat ≤ 255 then hufEmit child s else .next { s with hufNode := some child }

/-- `HUF.BIT0` (R148): the left child. -/
def execHufBit0 (s : State) : Out :=
  nextBit s fun _ s =>
  withReg .hufNode s.hufNode fun node =>
  withVal (.left node.toNat) (cellGet s.left node.toNat) fun child => hufMove child s

/-- `HUF.BIT1` (R149): the right child. -/
def execHufBit1 (s : State) : Out :=
  nextBit s fun _ s =>
  withReg .hufNode s.hufNode fun node =>
  withVal (.right node.toNat) (cellGet s.right node.toNat) fun child => hufMove child s

/-! ## The end of the stage (R151) -/

/-- The end of the Huffman stage (R151): the residue is discarded and the port moves onto the output. `HUF_*`, the arena and
`ACT` are not written (logs 23, 24). -/
def hufEnd (s : State) : Out :=
  withReg .hufUnpacked s.hufUnpacked fun u =>
  withReg .pipeMode s.pipeMode fun mode =>
  match mode with
  | .hufdict => .next (s.detachBitReader.openPort .hout 0 (u.setWidth 33)).enterDict
  | _ => .next ((s.detachBitReader.openPort .hout 0 (u.setWidth 33)).enterRle u)

end Sys2Proof.Machine
end

