-- ==== Sys2Proof/Machine/Pipeline.lean ====
section
/-! DEFINITION. The ChannelPipeline (44_pipeline): set-up and dispatch, the fill check, the scatter, the advance. -/

namespace Sys2Proof.Machine

/-! ## The decode paths (R214 to R216) -/

/-- `PIPE.RLE` (R214). -/
def execPipeRle (s : State) : Out :=
  withReg .chLen s.chLen fun len => .next ({ s with pipeMode := some .rle }.enterRle len)

/-- The entry of a Huffman stage (R215, R216, 70_reset R272). The stage's registers hold no value until its rules write
them (10_state R43). -/
def State.enterHuffman (s : State) (mode : PipeMode) : State :=
  { s with
    pipeMode := some mode, act := some [], freq := [], left := [], right := [], hout := []
    hufUnpacked := none, hufNext := none, hufNode := none, hufOutCnt := none, phase := .hufHeader }

/-- `PIPE.HUFDICT` (R215). -/
def execPipeHufdict (s : State) : Out := .next (s.enterHuffman .hufdict)

/-- `PIPE.HUFRLE` (R216), the same for every pack type it takes. -/
def execPipeHufrle (_pack : BitVec 8) (s : State) : Out := .next (s.enterHuffman .hufrle)

/-! ## Channel set-up (R213) -/

/-- The state of a channel set up for job `j` (R213). The registers of stages that do not start here keep their values
(log 23). -/
def State.channelFor (s : State) (j : Job) : State :=
  { s.openPort .src j.fileOff (j.fileOff + j.len.setWidth 33) with
    chChan := some j.chan, chFileOff := some j.fileOff, chLen := some j.len, plane := [] }

/-- The part of a `CH_SETUP` step before the dispatch on the pack type (R213). -/
def channelSetup (s : State) (k : State → Out) : Out :=
  withReg .jobs s.jobs fun js =>
  withReg .jobIdx s.jobIdx fun i =>
  withVal (.job i.toNat) js[i.toNat]? fun j => k (s.channelFor j)

/-! ## The fill check (R217) -/

/-- The fill check (R217). -/
def fillCheck (s : State) : Out :=
  withReg .pipeMode s.pipeMode fun mode =>
  withReg .planeSize s.planeSize fun size =>
  withReg (if mode = .hufdict then .dictDst else .rleDst)
    (if mode = .hufdict then s.dictDst else s.rleDst) fun produced =>
  if produced = size then .next { s with phase := .scatter } else raise .planeUnderfill .fillCheck s

/-! ## The scatter (R218) -/

/-- The plane addresses in the order the scatter reads them (R218): rows last to first, columns left to right. -/
def scatterOrder (w h : Nat) : List Nat :=
  (List.range h).reverse.flatMap fun y => (List.range w).map fun x => y * w + x

/-- Writing one byte into PIX; an address at or past `PIX_SIZE` is outside the memory (R60, R77). -/
def scatterWrite (pixSize : Nat) (pix : Memory) (dst : Nat) (v : BitVec 8) :
    Host.Outcome Memory Fault Refusal :=
  if dst < pixSize then .next (pix.write dst v) else .fault (.outsideMemory .pix dst)

/-- The scatter's loop (R218): plane bytes in the given order, written from `dst` on at stride `bpp`. -/
def scatterLoop (plane : Memory) (bpp pixSize : Nat) :
    List Nat → Nat → Memory → Host.Outcome Memory Fault Refusal
  | [], _, pix => .next pix
  | a :: as, dst, pix =>
    withVal (.mem .plane a) (plane.read a) fun v =>
    andThen (scatterWrite pixSize pix dst v) fun pix =>
    scatterLoop plane bpp pixSize as (dst + bpp) pix

/-- `PIPE.SCATTER` (R218). `SCAT_*` are the loop's own values and hold none after the step (R40; log 14). -/
def pipeScatter (s : State) : Out :=
  withReg .chChan s.chChan fun c =>
  withReg .bpp s.bpp fun bpp =>
  withReg .descWidth s.descWidth fun w =>
  withReg .descHeight s.descHeight fun h =>
  withReg .pixSize s.pixSize fun size =>
  andThen (scatterLoop s.plane bpp.toNat size.toNat (scatterOrder w.toNat h.toNat) c.toNat s.pix) fun pix =>
  .next { s with pix := pix, scatY := none, scatX := none, scatDst := none, phase := .chNext }

/-! ## The advance (R220) -/

/-- Channel advance (R220). -/
def channelNext (s : State) : Out :=
  withReg .jobs s.jobs fun js =>
  withReg .jobIdx s.jobIdx fun i =>
  if i.toNat + 1 = js.length then
    withReg .outFormat s.outFormat fun f =>
    .next { s with jobIdx := some (i + 1), statusFormat := f, statusState := .done, phase := .done }
  else .next { s with jobIdx := some (i + 1), phase := .chSetup }

end Sys2Proof.Machine
end

