-- ==== Sys2Proof/Machine/Dispatch.lean ====
section
/-! DEFINITION. exec: one arm per constructor of Instr, each a direct call of its meaning. -/

namespace Sys2Proof.Machine

def exec (i : Instr) (s : State) : Host.Outcome State Fault Refusal :=
  match i with
  | .pipeRle => Sys2Proof.Machine.execPipeRle s
  | .pipeHufdict => Sys2Proof.Machine.execPipeHufdict s
  | .pipeHufrle pack => Sys2Proof.Machine.execPipeHufrle pack s
  | .hufHeader unpacked packed freqs => Sys2Proof.Machine.execHufHeader unpacked packed freqs s
  | .hufBit0 => Sys2Proof.Machine.execHufBit0 s
  | .hufBit1 => Sys2Proof.Machine.execHufBit1 s
  | .dictHeader esc => Sys2Proof.Machine.execDictHeader esc s
  | .dictLit b => Sys2Proof.Machine.execDictLit b s
  | .dictEsc => Sys2Proof.Machine.execDictEsc s
  | .dictCopy rawOffset count => Sys2Proof.Machine.execDictCopy rawOffset count s
  | .rleNop => Sys2Proof.Machine.execRleNop s
  | .rleLit lits => Sys2Proof.Machine.execRleLit lits s
  | .rleRun n v => Sys2Proof.Machine.execRleRun n v s

end Sys2Proof.Machine
end

