-- ==== Sys2Proof/WellFormed.lean ====
section
/-! DEFINITION. Which tokens a stream format admits: the selection conditions of 30_encoding R94, R95, R98 and R100. -/

namespace Sys2Proof

/-- `i.wf c`: token `i` has an encoding in the format `c`, with its operands in the ranges the encoding admits. -/
def Instr.wf (c : Ctx) (i : Instr) : Bool :=
  match i with
  | .pipeRle => c == .pack
  | .pipeHufdict => c == .pack
  | .pipeHufrle p => c == .pack && p != 0x01 && p != 0xA2
  | .hufHeader _ _ fs => c == .hufHeader && fs.length == 256
  | .hufBit0 => match c with | .hufBit _ => true | _ => false
  | .hufBit1 => match c with | .hufBit _ => true | _ => false
  | .dictHeader _ => c == .dictHeader
  | .dictLit b => match c with | .dict e => b != e | _ => false
  | .dictEsc => match c with | .dict _ => true | _ => false
  | .dictCopy o _ => match c with | .dict e => o != e | _ => false
  | .rleNop => c == .rle
  | .rleLit bs => c == .rle && (decide (1 ≤ bs.length) && decide (bs.length ≤ 127))
  | .rleRun _ _ => c == .rle

end Sys2Proof
end

