-- ==== Sys2Proof/Decode.lean ====
section
/-! DEFINITION. The decoder, total on every byte string in every format (30_encoding R94 to R104), and after it the
encoder, written from the same tables (R105), the container header (R91, R92), and the opcode table's view of a word. -/

namespace Sys2Proof

/-! ## Little-endian values (00_scope R11, 20_memory R65) -/

/-- A 32-bit little-endian value from its four bytes, in the order they are read (R11, R67). -/
def u32LE (b0 b1 b2 b3 : Byte) : Word32 :=
  b0.setWidth 32 ||| b1.setWidth 32 <<< 8 ||| b2.setWidth 32 <<< 16 ||| b3.setWidth 32 <<< 24

/-- A 16-bit little-endian value from its two bytes (R65, R92). -/
def u16LE (b0 b1 : Byte) : BitVec 16 :=
  b0.setWidth 16 ||| b1.setWidth 16 <<< 8

/-- The four bytes of a 32-bit value, least significant first (R11). -/
def u32Bytes (w : Word32) : List Byte :=
  [w.setWidth 8, (w >>> 8).setWidth 8, (w >>> 16).setWidth 8, (w >>> 24).setWidth 8]

/-- The next four bytes as a 32-bit value, and the bytes after them. -/
def takeU32 : List Byte → Option (Word32 × List Byte)
  | b0 :: b1 :: b2 :: b3 :: r => some (u32LE b0 b1 b2 b3, r)
  | _ => none

/-- The next `n` 32-bit values, and the bytes after them. -/
def takeU32s : Nat → List Byte → Option (List Word32 × List Byte)
  | 0, bs => some ([], bs)
  | n + 1, bs =>
    match takeU32 bs with
    | none => none
    | some (w, r) =>
      match takeU32s n r with
      | none => none
      | some (ws, r') => some (w :: ws, r')

/-! ## The decoder -/

/-- The answer when the bytes end inside the token. -/
def cutShort : Decoded := .rejected .tokenCutShort

/-- The pack-type byte (R94): 0x01 and 0xA2 first, every other value is `PIPE.HUFRLE`. -/
def decodePack : List Byte → Decoded
  | [] => cutShort
  | p :: r =>
    if p = 0x01 then .token .pipeRle r
    else if p = 0xA2 then .token .pipeHufdict r
    else .token (.pipeHufrle p) r

/-- The 1032-byte header of a Huffman stream (R95). -/
def decodeHufHeader (bs : List Byte) : Decoded :=
  match takeU32 bs with
  | none => cutShort
  | some (u, r1) =>
    match takeU32 r1 with
    | none => cutShort
    | some (p, r2) =>
      match takeU32s 256 r2 with
      | none => cutShort
      | some (fs, r3) => .token (.hufHeader u p fs) r3

/-- One code bit (R96): the bit at `pos` of the byte that holds it, bit 0 being the least significant. -/
def decodeHufBit (pos : Fin 8) : List Byte → Decoded
  | [] => cutShort
  | b :: r => .token (if b.getLsbD pos.val then .hufBit1 else .hufBit0) r

/-- The 12-byte header of a dictionary stream (R97): byte 8 is the escape marker, the others are not read. -/
def decodeDictHeader : List Byte → Decoded
  | _ :: _ :: _ :: _ :: _ :: _ :: _ :: _ :: e :: _ :: _ :: _ :: r => .token (.dictHeader e) r
  | _ => cutShort

/-- A dictionary token (R98): `t1` is looked at only when `t0` is the escape marker, `t2` only when `t1` is not. -/
def decodeDict (e : Byte) : List Byte → Decoded
  | [] => cutShort
  | t0 :: r =>
    if t0 ≠ e then .token (.dictLit t0) r
    else
      match r with
      | [] => cutShort
      | t1 :: r =>
        if t1 = e then .token .dictEsc r
        else
          match r with
          | [] => cutShort
          | t2 :: r => .token (.dictCopy t1 t2) r

/-- A run-length token (R100, R101, R104): bit 7 of the control byte first, then whether it is 0. -/
def decodeRle : List Byte → Decoded
  | [] => cutShort
  | k :: r =>
    if k.getLsbD 7 then
      match r with
      | [] => cutShort
      | v :: r => .token (.rleRun (k.setWidth 7) v) r
    else if k = 0 then .token .rleNop r
    else if k.toNat ≤ r.length then .token (.rleLit (r.take k.toNat)) (r.drop k.toNat)
    else cutShort

/-- The decoder: the token a byte string starts with in a format, and the bytes after it. -/
def decode (c : Ctx) (bs : List Byte) : Decoded :=
  match c with
  | .pack => decodePack bs
  | .hufHeader => decodeHufHeader bs
  | .hufBit pos => decodeHufBit pos bs
  | .dictHeader => decodeDictHeader bs
  | .dict e => decodeDict e bs
  | .rle => decodeRle bs

/-! ## The encoder -/

/-- The escape marker of a format; only a dictionary stream has one, and the others never ask. -/
def Ctx.esc : Ctx → Byte
  | .dict e => e
  | _ => 0

/-- A byte whose only set bit is the one at `pos` of the format, for a code bit 1 (R96). -/
def Ctx.oneBit : Ctx → Byte
  | .hufBit pos => (1 : Byte) <<< pos.val
  | _ => 0

/-- The bytes of a token in a format (R94 to R100, the notation of R105; ignored bytes are written 00). -/
def encode (c : Ctx) : Instr → List Byte
  | .pipeRle => [0x01]
  | .pipeHufdict => [0xA2]
  | .pipeHufrle p => [p]
  | .hufHeader u p fs => u32Bytes u ++ u32Bytes p ++ fs.flatMap u32Bytes
  | .hufBit0 => [0]
  | .hufBit1 => [c.oneBit]
  | .dictHeader e => [0, 0, 0, 0, 0, 0, 0, 0, e, 0, 0, 0]
  | .dictLit b => [b]
  | .dictEsc => [c.esc, c.esc]
  | .dictCopy o n => [c.esc, o, n]
  | .rleNop => [0]
  | .rleLit bs => BitVec.ofNat 8 bs.length :: bs
  | .rleRun n v => [0x80 ||| n.setWidth 8, v]

/-- The length of a token in bytes (R102, R95, R97); a code bit is counted as the byte that holds it. -/
def Instr.byteLength : Instr → Nat
  | .pipeRle => 1
  | .pipeHufdict => 1
  | .pipeHufrle _ => 1
  | .hufHeader _ _ _ => 1032
  | .hufBit0 => 1
  | .hufBit1 => 1
  | .dictHeader _ => 12
  | .dictLit _ => 1
  | .dictEsc => 2
  | .dictCopy _ _ => 3
  | .rleNop => 1
  | .rleLit bs => 1 + bs.length
  | .rleRun _ _ => 2

/-! ## The container header (R91, R92): the header collaborator's side of the interface (log 17) -/

/-- The absolute difference of two 16-bit values (R91). -/
def absDiff16 (a b : BitVec 16) : BitVec 16 := if a ≤ b then b - a else a - b

/-- The descriptor the first 32 bytes of a file hold (R91); `none` when the file is shorter. The file size is the
length of the image, in the register's 32 bits. -/
def parseHeader (image : List Byte) : Option Descriptor :=
  match image with
  | v :: pk :: _ :: _ :: _ :: _ :: d0 :: d1 :: cl0 :: cl1 :: cr0 :: cr1 :: ct0 :: ct1 :: cb0 :: cb1 ::
      a0 :: a1 :: a2 :: a3 :: r0 :: r1 :: r2 :: r3 :: g0 :: g1 :: g2 :: g3 :: b0 :: b1 :: b2 :: b3 :: _ =>
    some
      { version := v
        pack := pk
        width := absDiff16 (u16LE cl0 cl1) (u16LE cr0 cr1)
        height := absDiff16 (u16LE ct0 ct1) (u16LE cb0 cb1)
        depth := u16LE d0 d1
        alen := u32LE a0 a1 a2 a3
        rlen := u32LE r0 r1 r2 r3
        glen := u32LE g0 g1 g2 g3
        blen := u32LE b0 b1 b2 b3
        fileSize := BitVec.ofNat 32 image.length }
  | _ => none

/-- The header collaborator's checks (R91, R103, 10_state R26): version, pack type, bit depth and the size invariant. A file
whose width or height is 0 passes them: the spec does not say what the collaborator does with it (90_conflicts C3).
DESIGN CHOICE (log 17). `CORE_OK` refuses its start (R26). -/
def Descriptor.valid (d : Descriptor) (imageLength : Nat) : Bool :=
  (d.version == 1 || d.version == 2) && (d.pack == 0x01 || d.pack == 0xA1 || d.pack == 0xA2)
    && (d.depth == 24 || d.depth == 32)
    && 32 + d.alen.toNat + d.rlen.toNat + d.glen.toNat + d.blen.toNat == imageLength

/-- `loadDescriptor` of the header collaborator (R230, R253): a descriptor, or `none` for an invalid file. -/
def loadDescriptor (image : List Byte) : Option Descriptor :=
  match parseHeader image with
  | none => none
  | some d => if d.valid image.length then some d else none

/-! ## The opcode table's view of a word (log 6) -/

/-- The `n` low bytes of a number, the least significant first: the order spec/opcode_table.json numbers bits in. -/
def wordBytes : Nat → Nat → List Byte
  | 0, _ => []
  | n + 1, w => BitVec.ofNat 8 w :: wordBytes n (w / 256)

/-- The format a table word is read in. The table's rows overlap (the phase tells them apart, R104), so the width and
the bytes choose: a row of fewer than 8 bits is a code bit, 8256 bits are a Huffman header, 96 a dictionary header, 24 a
dictionary token whose marker is its first byte; two equal bytes are a dictionary token too, two others a run-length
token; one byte is a pack type when it is one the header admits (01, A1, A2), RLE.NOP when 0, else a dictionary
literal under a marker it is not; every other width is a run-length token. DESIGN CHOICE (log 6). -/
def tableCtx (nbits w : Nat) : Ctx :=
  let b0 : Byte := BitVec.ofNat 8 w
  let b1 : Byte := BitVec.ofNat 8 (w / 256)
  if nbits < 8 then .hufBit 0
  else if nbits = 8 then
    if b0 = 0 then .rle
    else if b0 = 0x01 ∨ b0 = 0xA1 ∨ b0 = 0xA2 then .pack
    else .dict (~~~b0)
  else if nbits = 16 then (if b0 = b1 then .dict b0 else .rle)
  else if nbits = 24 then .dict b0
  else if nbits = 96 then .dictHeader
  else if nbits = 8256 then .hufHeader
  else .rle

/-- The length of the longest token of a format in bytes (R102, R95, R97). -/
def Ctx.longest : Ctx → Nat
  | .pack => 1
  | .hufHeader => 1032
  | .hufBit _ => 1
  | .dictHeader => 12
  | .dict _ => 3
  | .rle => 128

/-- The bytes of a table word, with zeros above its bits up to the longest token of its format. -/
def tableBytes (nbits w : Nat) : List Byte := wordBytes (tableCtx nbits w).longest w

/-- The token the decoder reads from a table word. -/
def decodeTableWord (nbits w : Nat) : Option Instr :=
  match decode (tableCtx nbits w) (tableBytes nbits w) with
  | .token i _ => some i
  | .rejected _ => none

end Sys2Proof
end

