-- ==== Sys2Proof/Machine/Fetch.lean ====
section
/-! DEFINITION. Where the next token's bytes stand, and laying a word out there. -/

namespace Sys2Proof.Machine

/-! ## The bytes of the next token -/

/-- Up to `n` bytes from `p` on, as the decoder sees them: the port's bytes inside the window, zeros beyond it, and an end
where a cell inside the window holds no value. The zeros are never used: the meaning raises its error at the bound
before it uses an operand from beyond the window (log 7). -/
def peekBytes (s : State) (sp : Space) (limit : Nat) : Nat → Nat → List (BitVec 8)
  | 0, _ => []
  | n + 1, p =>
    if p < limit then
      match portByte s sp p with
      | some v => v :: peekBytes s sp limit n (p + 1)
      | none => []
    else 0 :: peekBytes s sp limit n (p + 1)

/-- Up to `n` bytes under the port, from `p` on. -/
def portBytes (s : State) (n : Nat) (p : BitVec 33) : List (BitVec 8) :=
  match s.inSpace, s.inLimit with
  | some sp, some l => peekBytes s sp l.toNat n p.toNat
  | _, _ => []

/-- Up to `n` bytes under the port, from `IN_POS` on. -/
def portBytesHere (s : State) (n : Nat) : List (BitVec 8) :=
  match s.inPos with
  | some p => portBytes s n p
  | none => []

/-- The bytes of the next token in a format. The pack type is the descriptor's (R213); a code bit stands in the
BitReader's byte, or in the next byte when that is used up (R131); of the dictionary header only byte 8 is read (R171). -/
def tokenBytes (c : Ctx) (s : State) : List (BitVec 8) :=
  match c with
  | .pack => s.descPack.toList
  | .hufHeader => portBytesHere s 1032
  | .hufBit _ => if s.brPos = some 8 then portBytesHere s 1 else s.brByte.toList
  | .dictHeader =>
    match portBytes s 1 8 with
    | e :: _ => [0, 0, 0, 0, 0, 0, 0, 0, e, 0, 0, 0]
    | [] => []
  | .dict _ => portBytesHere s 3
  | .rle => portBytesHere s 128

/-- The format of a code bit: the place of the next bit in its byte (R131). -/
def bitCtx (q : Fin 9) : Ctx := if h : q.val < 8 then .hufBit ⟨q.val, h⟩ else .hufBit 0

/-! ## Laying a word out (log 5) -/

/-- A window of `n` bytes of SRC that holds these bytes, right after a container header (R71, R93), under the port, in the
channel with destination offset 0. -/
def State.placeInSrc (s : State) (n : Nat) (bs : List (BitVec 8)) : State :=
  { s.openPort .src 32 (BitVec.ofNat 33 (32 + n)) with
    src := Memory.ofBytes 32 bs, chChan := some 0, statusState := .busy }

/-- A window of HOUT whose `n` bytes from `at0` on are these, the port at `at0`. -/
def State.placeInHout (s : State) (at0 n : Nat) (bs : List (BitVec 8)) : State :=
  { (s.openPort .hout 0 (BitVec.ofNat 33 (at0 + n))).setInPos (BitVec.ofNat 33 at0) with
    hout := Memory.ofBytes at0 bs, chChan := some 0, statusState := .busy }

/-- The state in which the next step reads a token of the format `c` whose bytes are `bs` (as many as the longest token of
the format has), and which has the registers that token's rule reads. -/
def State.placeToken (s : State) (c : Ctx) (bs : List (BitVec 8)) : State :=
  match c with
  | .pack =>
    { s with
      phase := .chSetup, statusState := .busy, descPack := bs.head?
      jobs := some [{ chan := 0, fileOff := 32, len := 0 }], jobIdx := some 0 }
  | .hufHeader => { s.placeInSrc c.longest bs with phase := .hufHeader }
  | .hufBit _ =>
    { (s.placeInSrc c.longest bs).attachBitReader with
      phase := .hufDecode, hufUnpacked := some 1, hufOutCnt := some 0, hufNode := some 510
      left := cellSet s.left 510 508, right := cellSet s.right 510 509 }
  | .dictHeader => { s.placeInHout 0 c.longest bs with phase := .dictHeader }
  | .dict e =>
    { s.placeInHout 12 c.longest bs with phase := .dict, dictEsc := some e, dictDst := some 0, planeSize := some 255 }
  | .rle =>
    { s.placeInSrc c.longest bs with
      phase := .rle, rleSrcSize := some (BitVec.ofNat 32 c.longest), rleDst := some 0, planeSize := some 127 }

end Sys2Proof.Machine
end

