-- ==== Sys2Proof/Machine/HostActs.lean ====
section
/-! DEFINITION. The host's side of the interface (44_pipeline R211, R221, R230, R231; 70_reset R273): what the host may do
to the CORE and what it may read. -/

namespace Sys2Proof.Machine

/-! ## CORE_OK (10_state R26) -/

/-- `SRC` holds a file image of `n` bytes: exactly the addresses 0..n-1 hold a value (R26, R61). -/
def Memory.holdsImage (m : Memory) (n : Nat) : Bool := m.length == n && m.all fun c => decide (c.1 < n)

/-- `CORE_OK` (R26): the descriptor registers hold values and satisfy the start precondition. A register that holds no
value satisfies nothing (log 20). -/
def coreOk (s : State) : Bool :=
  match s.descWidth, s.descHeight, s.descDepth, s.descAlen, s.descRlen, s.descGlen, s.descBlen, s.descFileSize with
  | some w, some h, some d, some a, some r, some g, some b, some fs =>
    decide (1 ≤ w.toNat) && decide (1 ≤ h.toNat) && (d == 24 || d == 32)
      && 32 + a.toNat + r.toNat + g.toNat + b.toNat == fs.toNat
      && s.src.holdsImage fs.toNat
  | _, _, _, _, _, _, _, _ => false

/-! ## CMD.DECODE_IMAGE (R211) -/

/-- The state a start gives, from the descriptor fields it uses (R211, R27, R212). The working registers R211 does not name
keep their values until their stage starts again. DESIGN CHOICE (log 23). -/
def State.started (s : State) (w h d : BitVec 16) (a r g b : BitVec 32) : State :=
  let alpha : Bool := d == 32 && decide (0 < a.toNat)
  let bpp : BitVec 3 := if alpha then 4 else 3
  let size : Nat := w.toNat * h.toNat
  { s with
    hasAlpha := some alpha, bpp := some bpp, outFormat := some (if alpha then .rgba32 else .rgb24)
    planeSize := some (BitVec.ofNat 32 size), pixSize := some (BitVec.ofNat 34 (size * bpp.toNat))
    pix := [], plane := [], hout := [], freq := [], left := [], right := []
    errCode := 0, errChannel := 0, errStage := 0, statusFormat := .rgb24
    jobs := some (jobList alpha a r g b), jobIdx := some 0, statusState := .busy, phase := .chSetup }

/-- `CMD.DECODE_IMAGE` once the host may issue it (R211): refused unless `CORE_OK` holds. -/
def startDecode (s : State) : Out :=
  if coreOk s then
    withReg .descWidth s.descWidth fun w =>
    withReg .descHeight s.descHeight fun h =>
    withReg .descDepth s.descDepth fun d =>
    withReg .descAlen s.descAlen fun a =>
    withReg .descRlen s.descRlen fun r =>
    withReg .descGlen s.descGlen fun g =>
    withReg .descBlen s.descBlen fun b => .next (s.started w h d a r g b)
  else .refused .startNotOk

/-! ## The host's acts (R230) -/

/-- Loading a file image into `SRC` and the descriptor into `DESC_*` (R230, R61). -/
def State.loaded (s : State) (d : Descriptor) (image : List (BitVec 8)) : State :=
  { s with
    src := Memory.ofBytes 0 image
    descVersion := some d.version, descPack := some d.pack, descWidth := some d.width, descHeight := some d.height
    descDepth := some d.depth, descAlen := some d.alen, descRlen := some d.rlen, descGlen := some d.glen
    descBlen := some d.blen, descFileSize := some d.fileSize }

/-- One act of the host (R230): both are refused while the CORE is `BUSY`. -/
def hostAct (act : HostAct) (s : State) : Out :=
  if s.statusState = .busy then .refused .hostWhileBusy
  else
    match act with
    | .load d image => .next (s.loaded d image)
    | .decodeImage => startDecode s

/-- A phase in which the CORE takes no step (R33, R246, R256): it waits, every register keeps its value, and the host's
next act, if one is pending, takes place (R17, R230; log 4). -/
def waitForHost (s : State) : Out :=
  match s.inbox with
  | [] => .next s
  | act :: rest => hostAct act { s with inbox := rest }

/-! ## What the host reads (R230; log 19) -/

/-- The host reads byte `a` of `PIX` (R75, R221): only when the decode is done. -/
def hostReadPix (s : State) (a : Nat) : Host.Outcome (BitVec 8) Fault Refusal :=
  if s.statusState = .done then withVal (.mem .pix a) (s.pix.read a) fun v => .next v
  else .refused .pixNotDone

end Sys2Proof.Machine
end

