-- ==== Sys2Proof/Machine/Control.lean ====
section
/-! DEFINITION. What each phase does with its step (10_state R33): the guards around the tokens, and the internal steps
(30_encoding R107). -/

namespace Sys2Proof.Machine

/-- Reading the next token in the format `c` and running it. A token cell that holds no value is refused (R43). -/
def runToken (c : Ctx) (s : State) : Out :=
  match decode c (tokenBytes c s) with
  | .token i _ => exec i s
  | .rejected _ => .refused (.noValue .token)

/-- A step of phase `CH_SETUP` (R213). -/
def chSetupStep (s : State) : Out := channelSetup s fun s => runToken .pack s

/-- A step of phase `HUF_DECODE` (R148, R149, R151). -/
def hufDecodeStep (s : State) : Out :=
  withReg .hufOutCnt s.hufOutCnt fun cnt =>
  withReg .hufUnpacked s.hufUnpacked fun u =>
  if cnt = u then hufEnd s
  else withReg .brPos s.brPos fun q => runToken (bitCtx q) s

/-- A step of phase `DICT` (R172). -/
def dictStep (s : State) : Out :=
  withReg .dictDst s.dictDst fun dst =>
  withReg .planeSize s.planeSize fun size =>
  if dst = size then dictEnd s
  else withReg .dictEsc s.dictEsc fun e => runToken (.dict e) s

/-- A step of phase `RLE` (R192): the loop test is made only between tokens. -/
def rleStep (s : State) : Out :=
  withReg .inPos s.inPos fun p =>
  withReg .inBase s.inBase fun b =>
  withReg .rleSrcSize s.rleSrcSize fun n =>
  if p.toNat - b.toNat < n.toNat then runToken .rle s else rleEnd s

/-- One step under a setting of `P_FREQ_OVERFLOW` (R33). -/
def stepWith (p : FreqOverflow) (s : State) : Out :=
  match s.phase with
  | .idle => waitForHost s
  | .chSetup => chSetupStep s
  | .hufHeader => runToken .hufHeader s
  | .hufBuild => hufMerge p s
  | .hufDecode => hufDecodeStep s
  | .dictHeader => runToken .dictHeader s
  | .dict => dictStep s
  | .rle => rleStep s
  | .fillCheck => fillCheck s
  | .scatter => pipeScatter s
  | .chNext => channelNext s
  | .done => waitForHost s
  | .error => waitForHost s

end Sys2Proof.Machine
end

