-- ==== Sys2Proof/Machine/Step.lean ====
section
/-! DEFINITION. The step, and placing a word where the step reads its next token. -/

namespace Sys2Proof.Machine

/-- One step of GRD-CORE (R14, R33). -/
def step (s : State) : Host.Outcome State Fault Refusal := stepWith Config.freqOverflow s

/-- `s` with a table word as its next token (logs 5 and 6): the phase, the window, the bytes and the registers the token
needs, so that the next step reads and runs exactly it. -/
def State.withFetchWord (s : State) (nbits w : Nat) : State :=
  s.placeToken (tableCtx nbits w) (tableBytes nbits w)

end Sys2Proof.Machine
end

