-- ==== Sys2Proof/Safety.lean ====
section
/-! DEFINITION. What counts as a safe run of GRD-CORE, and the invariants claims are stated in. -/

namespace Sys2Proof.Machine

/-! ## Words for claims -/

/-- The phases in which the CORE takes no step of its own (R33, R256). -/
def Phase.waits (ph : Phase) : Bool :=
  match ph with
  | .idle | .done | .error => true
  | _ => false

/-- `s1` is `s` after `nextBit()` returned `bit` (R131): a bit of the loaded byte, or the first bit of the next byte. -/
inductive BitTaken (s : State) : Bool → State → Prop
  | loaded (q : Fin 9) (b : BitVec 8) (hq : q.val < 8) (hpos : s.brPos = some q) (hb : s.brByte = some b) :
      BitTaken s (b.getLsbD q.val) (s.setBits b ⟨q.val + 1, Nat.succ_lt_succ hq⟩)
  | refill (p l : BitVec 33) (sp : Space) (v : BitVec 8) (hpos : s.brPos = some 8) (hp : s.inPos = some p)
      (hl : s.inLimit = some l) (hlt : p.toNat < l.toNat) (hsp : s.inSpace = some sp)
      (hv : portByte s sp p.toNat = some v) : BitTaken s (v.getLsbD 0) ((s.setInPos (p + 1)).setBits v 1)

/-- `n` calls of `nextBit()` (R134). -/
def nextBits : Nat → State → (List Bool → State → Out) → Out
  | 0, s, k => k [] s
  | n + 1, s, k => nextBit s fun b s => nextBits n s fun bs s => k (b :: bs) s

/-- `n` steps under a setting of `P_FREQ_OVERFLOW`, stopping at the first fault or refusal. -/
def runWith (p : FreqOverflow) : Nat → State → Out
  | 0, s => .next s
  | n + 1, s =>
    match stepWith p s with
    | .next t => runWith p n t
    | .fault f => .fault f
    | .refused r => .refused r

/-! ## Canonical data (20_memory) -/

/-- Every memory and every field of the arena lists its cells in the canonical form. -/
structure State.Canonical (s : State) : Prop where
  src   : s.src.wf = true
  hout  : s.hout.wf = true
  plane : s.plane.wf = true
  pix   : s.pix.wf = true
  freq  : cellsFrom 0 s.freq = true
  left  : cellsFrom 0 s.left = true
  right : cellsFrom 0 s.right = true

/-! ## Status and errors (10_state R28, R29, R33, 60_exceptions R242) -/

/-- `STATUS.STATE` says what `PHASE` says: idle, done and error are phases of their own, all others are `BUSY`. -/
def State.StatusAgrees (s : State) : Prop :=
  match s.phase with
  | .idle => s.statusState = .idle
  | .done => s.statusState = .done
  | .error => s.statusState = .error
  | _ => s.statusState = .busy

/-- The error registers hold a legal report exactly when the decode ended in `ERROR` (R241, R242, 93 V1 to V3). -/
def State.ErrorsLegal (s : State) : Prop :=
  if s.statusState = .error then
    ∃ (e : ErrKind) (st : Stage), stageReports st e = true ∧ s.errCode = errKindCode e ∧ s.errStage = stageCode st
  else s.errCode = 0 ∧ s.errChannel = 0 ∧ s.errStage = 0

/-! ## Bounds (20_memory R60, R77, 10_state R36) -/

/-- Every cell that holds a value is a cell its memory has. For `SRC` that is asked of a decode in progress: between decodes
the host may load an image and a file size that do not agree, and `CORE_OK` decides at the start (R26; log 21). -/
structure State.InBounds (s : State) : Prop where
  src   : s.phase.waits = false → ∀ a, (s.src.read a).isSome = true → ∃ f, s.descFileSize = some f ∧ a < f.toNat
  plane : ∀ a, (s.plane.read a).isSome = true → ∃ n, s.planeSize = some n ∧ a < n.toNat
  pix   : ∀ a, (s.pix.read a).isSome = true → ∃ n, s.pixSize = some n ∧ a < n.toNat
  hout  : ∀ a, (s.hout.read a).isSome = true → ∃ u, s.hufUnpacked = some u ∧ a < u.toNat
  fits  : ∀ u, s.hufUnpacked = some u → u.toNat ≤ Config.houtCapacity
  fresh : s.phase = .hufHeader → s.hout = []
  freq  : ∀ i, (cellGet s.freq i).isSome = true → i ≤ 510
  left  : ∀ i, (cellGet s.left i).isSome = true → 256 ≤ i ∧ i ≤ 510
  right : ∀ i, (cellGet s.right i).isSome = true → 256 ≤ i ∧ i ≤ 510

/-- `FREQ` entries fit their 32-bit registers (R36); true of every setting but `exact` (R145). -/
def State.FreqFits (s : State) : Prop := ∀ i f, cellGet s.freq i = some f → f < 2 ^ 32

/-! ## Cells nothing has written since their stage began (10_state R43, R40, 40_bitreader R133, 70_reset R272) -/

/-- What a stage has not written yet holds no value: at the Huffman header its registers and the arena, through the build the
walk's registers and the output, at the dictionary header that stage's registers, before a unit writes the plane the
plane, and outside the walk and the scatter the BitReader's and the scatter's registers. -/
structure State.UnwrittenIsEmpty (s : State) : Prop where
  header  : s.phase = .hufHeader →
    s.hufUnpacked = none ∧ s.hufNext = none ∧ s.act = some [] ∧ s.freq = [] ∧ s.left = [] ∧ s.right = []
  build   : s.phase = .hufHeader ∨ s.phase = .hufBuild → s.hufNode = none ∧ s.hufOutCnt = none ∧ s.hout = []
  dict    : s.phase = .dictHeader → s.dictEsc = none ∧ s.dictDst = none
  plane   : s.phase = .hufHeader ∨ s.phase = .hufBuild ∨ s.phase = .hufDecode ∨ s.phase = .dictHeader → s.plane = []
  bits    : s.phase ≠ .hufDecode → s.brByte = none ∧ s.brPos = none
  scatter : s.scatY = none ∧ s.scatX = none ∧ s.scatDst = none

/-! ## The order of the active list (41_huffman R143, R146, R147) -/

/-- The order of two entries with their frequencies: by frequency, and between equal frequencies the one inserted earlier
first. Nodes are inserted in index order, so earlier is the smaller index. -/
def keyedBefore (x y : Nat × BitVec 9) : Prop := x.1 < y.1 ∨ (x.1 = y.1 ∧ x.2.toNat < y.2.toNat)

/-- The build invariant (R146, R147): the list is in order, and `HUF_NEXT` counts the entries that are gone. -/
def State.BuildOrder (s : State) : Prop :=
  ∃ act n l, s.act = some act ∧ s.hufNext = some n ∧ keyed s.freq act = .next l ∧
    l.Pairwise keyedBefore ∧ act.length + n.toNat = 512 ∧ ∀ x ∈ act, x.toNat < n.toNat

/-! ## A run that never stops (10_state R43, 93 U8) -/

/-- The registers of a decode in progress (R26, R27, R31): sizes, jobs, and a value in every `SRC` byte of every job. -/
structure State.ImageOk (s : State) : Prop where
  busy  : s.statusState = .busy
  sizes : ∃ w h n b q, s.descWidth = some w ∧ s.descHeight = some h ∧ s.planeSize = some n ∧ s.bpp = some b ∧
    s.pixSize = some q ∧ n.toNat = w.toNat * h.toNat ∧ q.toNat = n.toNat * b.toNat
  pack  : s.descPack ≠ none
  fmt   : s.outFormat ≠ none
  jobs  : ∃ js i b, s.jobs = some js ∧ s.jobIdx = some i ∧ s.bpp = some b ∧ i.toNat < js.length ∧ js.length ≤ 4 ∧
    ∀ j ∈ js, j.chan.toNat < b.toNat ∧ j.fileOff.toNat + j.len.toNat < 2 ^ 33 ∧
      ∀ a, j.fileOff.toNat ≤ a → a < j.fileOff.toNat + j.len.toNat → (s.src.read a).isSome = true

/-- The channel in progress is the current job's (R213): its destination offset lies inside a pixel, and its path is
chosen. -/
def State.ChannelOk (s : State) : Prop :=
  ∃ c b m, s.chChan = some c ∧ s.bpp = some b ∧ c.toNat < b.toNat ∧ s.pipeMode = some m ∧
    ∃ js i j, s.jobs = some js ∧ s.jobIdx = some i ∧ js[i.toNat]? = some j ∧ j.chan = c

/-- The input port is on memory `sp`, and every byte of its window holds a value (R32, R68). -/
def State.PortOk (s : State) (sp : Space) : Prop :=
  ∃ b l p, s.inSpace = some sp ∧ s.inBase = some b ∧ s.inLimit = some l ∧ s.inPos = some p ∧
    b.toNat ≤ p.toNat ∧ ∀ a, b.toNat ≤ a → a < l.toNat → (portByte s sp a).isSome = true

/-- The first `d` bytes of the plane hold a value, and the plane has room for them. -/
def State.PlaneFilled (s : State) (d : Nat) : Prop :=
  (∃ n, s.planeSize = some n ∧ d ≤ n.toNat) ∧ ∀ a, a < d → (s.plane.read a).isSome = true

/-- The active list and the arena between two merges (R144, R146). -/
def State.BuildOk (s : State) : Prop :=
  ∃ act n, s.act = some act ∧ s.hufNext = some n ∧ 2 ≤ act.length ∧ 256 ≤ n.toNat ∧
    act.length + n.toNat = 512 ∧ (∀ x ∈ act, x.toNat < n.toNat ∧ (cellGet s.freq x.toNat).isSome = true) ∧
    ∀ i, 256 ≤ i → i < n.toNat →
      (∃ x, cellGet s.left i = some x ∧ x.toNat < i) ∧ ∃ y, cellGet s.right i = some y ∧ y.toNat < i

/-- The tree is whole, the walk stands at an internal node, and the output so far holds values (R146, R148, R150). -/
def State.WalkOk (s : State) : Prop :=
  (∃ node, s.hufNode = some node ∧ 256 ≤ node.toNat ∧ node.toNat ≤ 510) ∧
    (∀ i, 256 ≤ i → i ≤ 510 →
      (∃ x, cellGet s.left i = some x ∧ x.toNat < i) ∧ ∃ y, cellGet s.right i = some y ∧ y.toNat < i) ∧
    (∃ q, s.brPos = some q ∧ (q.val < 8 → s.brByte ≠ none)) ∧
    ∃ cnt u, s.hufOutCnt = some cnt ∧ s.hufUnpacked = some u ∧ cnt.toNat ≤ u.toNat ∧
      ∀ a, a < cnt.toNat → (s.hout.read a).isSome = true

/-- A state of a decode in progress in which no rule can read a cell that holds no value, phase by phase (R43). -/
def State.Running (s : State) : Prop :=
  match s.phase with
  | .idle => False
  | .chSetup => s.ImageOk
  | .hufHeader => s.ImageOk ∧ s.ChannelOk ∧ s.PortOk .src
  | .hufBuild => s.ImageOk ∧ s.ChannelOk ∧ s.PortOk .src ∧ s.BuildOk ∧ s.hufUnpacked ≠ none
  | .hufDecode => s.ImageOk ∧ s.ChannelOk ∧ s.PortOk .src ∧ s.WalkOk
  | .dictHeader => s.ImageOk ∧ s.ChannelOk ∧ s.PortOk .hout ∧ s.inBase = some 0 ∧ s.inPos = some 0 ∧
      s.pipeMode = some .hufdict
  | .dict => s.ImageOk ∧ s.ChannelOk ∧ s.PortOk .hout ∧ s.dictEsc ≠ none ∧ s.pipeMode = some .hufdict ∧
      ∃ d, s.dictDst = some d ∧ s.PlaneFilled d.toNat
  | .rle => s.ImageOk ∧ s.ChannelOk ∧ (∃ sp, s.PortOk sp) ∧ s.rleSrcSize ≠ none ∧ s.pipeMode ≠ some .hufdict ∧
      ∃ d, s.rleDst = some d ∧ s.PlaneFilled d.toNat
  | .fillCheck => s.ImageOk ∧ s.ChannelOk ∧
      ∃ d, (if s.pipeMode = some .hufdict then s.dictDst else s.rleDst) = some d ∧ s.PlaneFilled d.toNat
  | .scatter => s.ImageOk ∧ s.ChannelOk ∧ ∃ n, s.planeSize = some n ∧ s.PlaneFilled n.toNat
  | .chNext => s.ImageOk
  | .done => False
  | .error => False

/-- The decode has ended: `DONE` or `ERROR` (R282). -/
def State.Ended (s : State) : Prop :=
  (s.phase = .done ∧ s.statusState = .done) ∨ (s.phase = .error ∧ s.statusState = .error)

/-- The pixel lanes of the channels already done hold values, and the jobs' lanes cover a pixel (R219, R223). In phase
`CH_NEXT` the current channel is done too. -/
def State.LanesFilled (s : State) : Prop :=
  ∃ js i b n, s.jobs = some js ∧ s.jobIdx = some i ∧ s.bpp = some b ∧ s.planeSize = some n ∧
    (∀ c, c < b.toNat → ∃ j ∈ js, j.chan.toNat = c) ∧
    ∀ (k : Nat) (j : Job), k < i.toNat + (if s.phase = .chNext then 1 else 0) → js[k]? = some j →
      ∀ m, m < n.toNat → (s.pix.read (m * b.toNat + j.chan.toNat)).isSome = true

/-- Every byte of the pixel buffer holds a value (R75, R223). -/
def State.PixComplete (s : State) : Prop :=
  ∃ q, s.pixSize = some q ∧ ∀ a, a < q.toNat → (s.pix.read a).isSome = true

end Sys2Proof.Machine
end

