-- ==== Sys2Proof/Certificates/Slice0/Obligations.lean ====
section
/-! DEFINITION. The statements about GRD-CORE for the provers, in the order of OBLIGATIONS.json. -/

open Sys2Proof Sys2Proof.Machine

/-! ## Encoding -/

/-- Words written out from the encoding tables decode to the tokens they stand for (30_encoding R94 to R100): the pack
types 01, A2 and A1; bits 0 and 2 of the byte B4; a dictionary header with marker FE at index 8; under marker FE the
literal 07, the escape FE FE and the copy FE 01 07; the run-length tokens 00, 03 AA BB CC and 83 5A. -/
def Obligations.TableWordsDecode : Prop :=
  decode .pack [0x01] = .token .pipeRle [] ∧
  decode .pack [0xA2] = .token .pipeHufdict [] ∧
  decode .pack [0xA1] = .token (.pipeHufrle 0xA1) [] ∧
  decode (.hufBit 0) [0xB4] = .token .hufBit0 [] ∧
  decode (.hufBit 2) [0xB4] = .token .hufBit1 [] ∧
  decode .dictHeader [0, 0, 0, 0, 0, 0, 0, 0, 0xFE, 0, 0, 0] = .token (.dictHeader 0xFE) [] ∧
  decode (.dict 0xFE) [0x07, 0xFE, 0x01, 0x07] = .token (.dictLit 0x07) [0xFE, 0x01, 0x07] ∧
  decode (.dict 0xFE) [0xFE, 0xFE, 0x41] = .token .dictEsc [0x41] ∧
  decode (.dict 0xFE) [0xFE, 0x01, 0x07] = .token (.dictCopy 0x01 0x07) [] ∧
  decode .rle [0x00, 0x83] = .token .rleNop [0x83] ∧
  decode .rle [0x03, 0xAA, 0xBB, 0xCC] = .token (.rleLit [0xAA, 0xBB, 0xCC]) [] ∧
  decode .rle [0x83, 0x5A] = .token (.rleRun 3 0x5A) []

/-- Decoding an encoded token gives it back, with every operand at every value its format admits, whatever follows it
(R94 to R101, R105). -/
def Obligations.DecodeOfEncode : Prop :=
  ∀ (c : Ctx) (i : Instr) (rest : List Byte), i.wf c = true → decode c (encode c i ++ rest) = .token i rest

/-- What the decoder answers is well formed and as long as R102 says; and in the formats whose every byte is an operand
(pack type, Huffman header, dictionary tokens, run-length tokens) the bytes decoded are the token's encoding. -/
def Obligations.EncodeOfDecode : Prop :=
  ∀ (c : Ctx) (bs : List Byte) (i : Instr) (rest : List Byte), decode c bs = .token i rest →
    i.wf c = true ∧ bs.length = i.byteLength + rest.length ∧
      (c = .pack ∨ c = .hufHeader ∨ (∃ e, c = .dict e) ∨ c = .rle → bs = encode c i ++ rest)

/-- R104, the token map: a code bit 0 is HUF.BIT0 and 1 is HUF.BIT1; in a dictionary stream the first byte, then the
second, select the token; in a run-length stream bit 7 of the control byte, then whether it is 0. The decode is total:
every byte string as long as the longest token of its format names exactly one token. -/
def Obligations.TokenMapIsTotal : Prop :=
  (∀ (pos : Fin 8) (b : Byte) (r : List Byte),
    decode (.hufBit pos) (b :: r) = .token (if b.getLsbD pos.val then .hufBit1 else .hufBit0) r) ∧
  (∀ (e t0 t1 t2 : Byte) (r : List Byte), decode (.dict e) (t0 :: t1 :: t2 :: r) =
    if t0 ≠ e then .token (.dictLit t0) (t1 :: t2 :: r)
    else if t1 = e then .token .dictEsc (t2 :: r)
    else .token (.dictCopy t1 t2) r) ∧
  (∀ (k v : Byte) (r : List Byte), 127 ≤ (v :: r).length → ∃ n : Nat, n = k.toNat % 128 ∧
    decode .rle (k :: v :: r) =
      if 128 ≤ k.toNat then .token (.rleRun (BitVec.ofNat 7 n) v) r
      else if k = 0 then .token .rleNop (v :: r)
      else .token (.rleLit ((v :: r).take n)) ((v :: r).drop n)) ∧
  (∀ (c : Ctx) (bs : List Byte), c.longest ≤ bs.length → ∃ i rest, decode c bs = .token i rest)

/-- R94: the pack type selects the decode path; every value but 01 and A2 takes PIPE.HUFRLE. -/
def Obligations.PackTypeSelectsPath : Prop :=
  ∀ (k : Byte) (r : List Byte), decode .pack (k :: r) =
    .token (if k = 0x01 then .pipeRle else if k = 0xA2 then .pipeHufdict else .pipeHufrle k) r

/-- R99: the offset adjustment maps the raw offsets other than the escape marker onto 0..254, one to one, and the raw
offset of an effective offset d is d below the marker and d + 1 from it on. -/
def Obligations.CopyOffsetIsBijective : Prop :=
  ∀ (o e : Byte), o ≠ e →
    (copyOffset o e).toNat = (if e.toNat < o.toNat then o.toNat - 1 else o.toNat) ∧
    (copyOffset o e).toNat ≤ 254 ∧
    o.toNat = (if (copyOffset o e).toNat < e.toNat then (copyOffset o e).toNat else (copyOffset o e).toNat + 1)

/-! ## The step -/

/-- A step of a phase that reads tokens is exec of the token that the bytes of that phase decode to, in the same state:
behind the guard of its phase (output not complete, plane not full, input not used up), and in CH_SETUP in the state of
the channel that was set up (R33, R148, R149, R172, R192, R213). -/
def Obligations.StepRunsDecodedToken : Prop :=
  ∀ (s : State) (i : Instr) (rest : List Byte),
    (s.phase = .hufHeader → decode .hufHeader (tokenBytes .hufHeader s) = .token i rest → step s = exec i s) ∧
    (s.phase = .dictHeader → decode .dictHeader (tokenBytes .dictHeader s) = .token i rest → step s = exec i s) ∧
    (∀ cnt u q, s.phase = .hufDecode → s.hufOutCnt = some cnt → s.hufUnpacked = some u → cnt ≠ u →
      s.brPos = some q → decode (bitCtx q) (tokenBytes (bitCtx q) s) = .token i rest → step s = exec i s) ∧
    (∀ d n e, s.phase = .dict → s.dictDst = some d → s.planeSize = some n → d ≠ n → s.dictEsc = some e →
      decode (.dict e) (tokenBytes (.dict e) s) = .token i rest → step s = exec i s) ∧
    (∀ p b n, s.phase = .rle → s.inPos = some p → s.inBase = some b → s.rleSrcSize = some n →
      p.toNat - b.toNat < n.toNat → decode .rle (tokenBytes .rle s) = .token i rest → step s = exec i s) ∧
    (∀ js idx j k, s.phase = .chSetup → s.jobs = some js → s.jobIdx = some idx → js[idx.toNat]? = some j →
      s.descPack = some k → decode .pack [k] = .token i rest → step s = exec i (s.channelFor j))

/-- The bytes the decoder sees are the bytes under the input port: byte k of a run-length token, a dictionary token or a
Huffman header is the byte at IN_POS + k, as far as the window reaches; and the first bits come from the byte under the
port or from the BitReader's own byte (R66, R131). -/
def Obligations.TokenBytesAreUnderThePort : Prop :=
  ∀ (s : State) (sp : Space) (p l : BitVec 33), s.inSpace = some sp → s.inPos = some p → s.inLimit = some l →
    (∀ a, p.toNat ≤ a → a < l.toNat → (portByte s sp a).isSome = true) →
    (∀ k, k < 128 → p.toNat + k < l.toNat → (tokenBytes .rle s)[k]? = portByte s sp (p.toNat + k)) ∧
    (∀ e k, k < 3 → p.toNat + k < l.toNat → (tokenBytes (.dict e) s)[k]? = portByte s sp (p.toNat + k)) ∧
    (∀ k, k < 1032 → p.toNat + k < l.toNat → (tokenBytes .hufHeader s)[k]? = portByte s sp (p.toNat + k)) ∧
    (∀ pos, s.brPos = some 8 → p.toNat < l.toNat → (tokenBytes (.hufBit pos) s)[0]? = portByte s sp p.toNat) ∧
    (∀ pos q, s.brPos = some q → q ≠ 8 → tokenBytes (.hufBit pos) s = s.brByte.toList)

/-- R256: in IDLE, DONE and ERROR with no act of the host pending, a step changes nothing (decision D2). The list of pending
acts is the model's own field (log 4). -/
def Obligations.WaitingKeepsEverything : Prop :=
  ∀ (s : State), s.phase.waits = true → s.inbox = [] → step s = .next s

/-! ## The decode paths and the channel (44_pipeline) -/

/-- R214: PIPE.RLE sets the mode, sets the RunLengthDecoder up with srcSize = CH_LEN, and enters phase RLE; nothing else
changes. -/
def Obligations.PipeRleEntersRunLength : Prop :=
  ∀ (s : State) (len : BitVec 32), s.chLen = some len →
    exec .pipeRle s = .next { s with pipeMode := some .rle, rleSrcSize := some len, rleDst := some 0, phase := .rle }

/-- R215, R216, R43: PIPE.HUFDICT and PIPE.HUFRLE set the mode, empty the active list, take every arena entry, every HOUT
byte and the Huffman stage's registers to no value (decision D23), and enter phase HUF_HEADER; nothing else changes. That
the Huffman stage begins with this step is the model's reading (log 23). -/
def Obligations.PipeHufEntersHuffman : Prop :=
  ∀ (s : State),
    exec .pipeHufdict s = .next
      { s with
        pipeMode := some .hufdict, act := some [], freq := [], left := [], right := [], hout := []
        hufUnpacked := none, hufNext := none, hufNode := none, hufOutCnt := none, phase := .hufHeader } ∧
    ∀ k : Byte, exec (.pipeHufrle k) s = .next
      { s with
        pipeMode := some .hufrle, act := some [], freq := [], left := [], right := [], hout := []
        hufUnpacked := none, hufNext := none, hufNode := none, hufOutCnt := none, phase := .hufHeader }

/-- R213: a step of CH_SETUP takes the job, clears the plane, opens the port on the channel's region and dispatches on the
pack type, every value but 01 and A2 to HUFRLE. A Huffman stage starts with its registers at no value (R43); that the
registers of stages that do not start here keep their values is the model's reading (log 23). -/
def Obligations.ChannelSetupDispatches : Prop :=
  ∀ (s : State) (js : List Job) (i : BitVec 3) (j : Job) (k : Byte),
    s.phase = .chSetup → s.jobs = some js → s.jobIdx = some i → js[i.toNat]? = some j → s.descPack = some k →
    step s = .next
      (let c : State :=
        { s with
          chChan := some j.chan, chFileOff := some j.fileOff, chLen := some j.len, plane := []
          inSpace := some .src, inBase := some j.fileOff, inPos := some j.fileOff
          inLimit := some (BitVec.ofNat 33 (j.fileOff.toNat + j.len.toNat)) }
       if k = 0x01 then
        { c with pipeMode := some .rle, rleSrcSize := some j.len, rleDst := some 0, phase := .rle }
       else
        { c with
          pipeMode := some (if k = 0xA2 then .hufdict else .hufrle)
          act := some [], freq := [], left := [], right := [], hout := []
          hufUnpacked := none, hufNext := none, hufNode := none, hufOutCnt := none, phase := .hufHeader })

/-- R217: the fill check passes to the scatter when the bytes produced are the plane's size, and otherwise raises
PlaneUnderfill in stage FILL_CHECK (decision D9). -/
def Obligations.FillCheckDecides : Prop :=
  ∀ (s : State) (m : PipeMode) (n d : BitVec 32), s.phase = .fillCheck → s.pipeMode = some m →
    s.planeSize = some n → (if m = .hufdict then s.dictDst else s.rleDst) = some d →
    (d = n → step s = .next { s with phase := .scatter }) ∧
    (∀ c, d ≠ n → s.chChan = some c → step s = .next (s.faultEntry .planeUnderfill .fillCheck c))

/-- R218, R219: the scatter writes plane row y, column x to the pixel of output row H-1-y, column x, in the channel's byte
lane; it changes no byte outside the lane or past the image, no other memory and no register but PHASE (SCAT_* hold no
value after it). -/
def Obligations.ScatterFlipsRows : Prop :=
  ∀ (s : State) (c : BitVec 2) (b : BitVec 3) (w h : BitVec 16) (q : BitVec 34),
    s.phase = .scatter → s.chChan = some c → s.bpp = some b → s.descWidth = some w → s.descHeight = some h →
    s.pixSize = some q → c.toNat < b.toNat → q.toNat = w.toNat * h.toNat * b.toNat →
    (∀ a, a < w.toNat * h.toNat → (s.plane.read a).isSome = true) →
    ∃ t, step s = .next t ∧
      t = { s with pix := t.pix, scatY := none, scatX := none, scatDst := none, phase := .chNext } ∧
      (∀ y x, y < h.toNat → x < w.toNat →
        t.pix.read (((h.toNat - 1 - y) * w.toNat + x) * b.toNat + c.toNat) = s.plane.read (y * w.toNat + x)) ∧
      (∀ a, a % b.toNat ≠ c.toNat ∨ q.toNat ≤ a → t.pix.read a = s.pix.read a)

/-- R220, R28: the channel advance goes to the next job, and after the last one writes STATUS, which then reads 2 for RGB24
and 6 for RGBA32 (STATE = 2, OUT_FORMAT in bit 2; decision D19), and ends the decode. -/
def Obligations.ChannelAdvance : Prop :=
  ∀ (s : State) (js : List Job) (i : BitVec 3) (f : OutFormat), s.phase = .chNext → s.jobs = some js →
    s.jobIdx = some i → s.outFormat = some f →
    (i.toNat + 1 = js.length → ∃ t, step s = .next t ∧
      t = { s with jobIdx := some (i + 1), statusFormat := f, statusState := .done, phase := .done } ∧
      statusWord t = (if f = .rgb24 then 2 else 6)) ∧
    (i.toNat + 1 ≠ js.length → step s = .next { s with jobIdx := some (i + 1), phase := .chSetup })

/-! ## The BitReader and the HuffmanDecoder (40_bitreader, 41_huffman) -/

/-- R134: a BitReader attached at p returns, in call N, bit (N-1) mod 8 of the byte at p + (N-1)/8; it has then read
ceil(N/8) bytes; and N calls succeed exactly when p + ceil(N/8) does not pass the window's end, and otherwise raise
TruncatedInput in stage HUF_DECODE. -/
def Obligations.BitReaderReadsLsbFirst : Prop :=
  ∀ (s : State) (n : Nat) (sp : Space) (p l : BitVec 33), s.brPos = some 8 → s.inSpace = some sp →
    s.inPos = some p → s.inLimit = some l → p.toNat ≤ l.toNat →
    (∀ a, p.toNat ≤ a → a < l.toNat → (portByte s sp a).isSome = true) →
    (p.toNat + (n + 7) / 8 ≤ l.toNat → ∃ bs t, bs.length = n ∧ (∀ k, nextBits n s k = k bs t) ∧
      t.inPos = some (BitVec.ofNat 33 (p.toNat + (n + 7) / 8)) ∧
      ∀ m, m < n → ∃ v, portByte s sp (p.toNat + m / 8) = some v ∧ bs[m]? = some (v.getLsbD (m % 8))) ∧
    (∀ c k, s.chChan = some c → l.toNat < p.toNat + (n + 7) / 8 →
      nextBits n s k = .next (s.faultEntry .truncatedInput .hufDecode c))

/-- R141: HUF.HEADER consumes 1032 bytes, writes HUF_UNPACKED, FREQ[0..255] and HUF_NEXT, seeds ACT by inserting the leaves
0..255 in index order with the stable insertion, and enters HUF_BUILD, changing nothing else; and for every capacity
its errors come in the order TruncatedInput, CapacityExceeded, TruncatedInput, MalformedTree (decisions D11, D12). -/
def Obligations.HufHeaderSeedsTheBuild : Prop :=
  ∀ (s : State) (u pk : Word32) (fs : List Word32) (p l : BitVec 33), fs.length = 256 → s.inPos = some p →
    s.inLimit = some l →
    exec (.hufHeader u pk fs) s = hufHeader Config.houtCapacity u fs s ∧
    (p.toNat + 1032 ≤ l.toNat → u.toNat ≤ Config.houtCapacity →
      ∃ t act, exec (.hufHeader u pk fs) s = .next t ∧
        t = { s with
          inPos := some (BitVec.ofNat 33 (p.toNat + 1032)), hufUnpacked := some u, freq := t.freq
          act := some act, hufNext := some 256, phase := .hufBuild } ∧
        (∀ (i : Nat) (h : i < fs.length), cellGet t.freq i = some fs[i].toNat) ∧
        (∀ i, 256 ≤ i → cellGet t.freq i = cellGet s.freq i) ∧
        (List.range 256).foldl (fun o i => andThen o (insertStable t.freq (BitVec.ofNat 9 i))) (.next []) =
          .next act) ∧
    (∀ (cap : Nat) (c : BitVec 2), s.chChan = some c →
      (l.toNat < p.toNat + 4 →
        hufHeader cap u fs s = .next (s.faultEntry .truncatedInput .hufHeader c)) ∧
      (p.toNat + 4 ≤ l.toNat → cap < u.toNat →
        hufHeader cap u fs s = .next (s.faultEntry .capacityExceeded .hufHeader c)) ∧
      (p.toNat + 4 ≤ l.toNat → l.toNat < p.toNat + 8 → u.toNat ≤ cap →
        hufHeader cap u fs s = .next (s.faultEntry .truncatedInput .hufHeader c)) ∧
      (p.toNat + 8 ≤ l.toNat → l.toNat < p.toNat + 1032 → u.toNat ≤ cap →
        hufHeader cap u fs s = .next (s.faultEntry .malformedTree .hufHeader c)))

/-- R142: the stable insertion puts the node immediately before the first entry with a strictly greater frequency, at the
end when there is none, and keeps the order of the others. It completes when FREQ holds every frequency it compares. -/
def Obligations.InsertStablePosition : Prop :=
  ∀ (freq : List (Nat × Nat)) (n : BitVec 9) (act : List (BitVec 9)),
    (cellGet freq n.toNat).isSome = true → (∀ x ∈ act, (cellGet freq x.toNat).isSome = true) →
    ∃ before after, act = before ++ after ∧ insertStable freq n act = .next (before ++ n :: after) ∧
      (∀ x ∈ before, ∃ fx fn, cellGet freq x.toNat = some fx ∧ cellGet freq n.toNat = some fn ∧ ¬ fx > fn) ∧
      (∀ x, after.head? = some x →
        ∃ fx fn, cellGet freq x.toNat = some fx ∧ cellGet freq n.toNat = some fn ∧ fx > fn)

/-- R143 and the start of R147: after HUF.HEADER the active list holds the 256 leaves, ordered by ascending frequency and,
between equal frequencies, by ascending index, and the build invariant holds. -/
def Obligations.HeaderGivesSortedLeaves : Prop :=
  ∀ (s t : State) (u pk : Word32) (fs : List Word32), fs.length = 256 →
    exec (.hufHeader u pk fs) s = .next t → t.phase = .hufBuild →
    t.BuildOrder ∧ ∀ i, i < 256 → ∃ act, t.act = some act ∧ act.length = 256 ∧ BitVec.ofNat 9 i ∈ act

/-- R145: the sum of two frequencies under each setting of P_FREQ_OVERFLOW, and their agreement below 2^32. -/
def Obligations.FreqAddSettings : Prop :=
  ∀ a b : Nat,
    freqAdd .wrap32 a b = some ((a + b) % 2 ^ 32) ∧
    freqAdd .exact a b = some (a + b) ∧
    (a + b ≤ 2 ^ 32 - 1 → freqAdd .fault a b = some (a + b)) ∧
    (2 ^ 32 - 1 < a + b → freqAdd .fault a b = none) ∧
    (a + b ≤ 2 ^ 32 - 1 → ∀ p q, freqAdd p a b = freqAdd q a b)

/-- R144, R145: HUF.MERGE makes node HUF_NEXT of the two front entries, the first as left child, with the sum of their
frequencies, and inserts it stably; when one node remains it starts the decode phase at the root with an empty
BitReader; nothing else changes. A sum the setting does not admit raises FrequencyOverflow in stage HUF_BUILD
(decision D7). -/
def Obligations.MergeMakesTheNextNode : Prop :=
  ∀ (p : FreqOverflow) (s : State) (l r : BitVec 9) (rest : List (BitVec 9)) (n : BitVec 10) (fl fr : Nat),
    s.phase = .hufBuild → s.act = some (l :: r :: rest) → s.hufNext = some n → 256 ≤ n.toNat → n.toNat ≤ 510 →
    cellGet s.freq l.toNat = some fl → cellGet s.freq r.toNat = some fr →
    (∀ x ∈ rest, (cellGet s.freq x.toNat).isSome = true) →
    (∀ f, freqAdd p fl fr = some f → ∃ act',
      insertStable (cellSet s.freq n.toNat f) (n.setWidth 9) rest = .next act' ∧
      (rest ≠ [] → stepWith p s = .next
        { s with
          hufNext := some (n + 1), freq := cellSet s.freq n.toNat f, left := cellSet s.left n.toNat l
          right := cellSet s.right n.toNat r, act := some act' }) ∧
      (rest = [] → stepWith p s = .next
        { s with
          hufNext := some (n + 1), freq := cellSet s.freq n.toNat f, left := cellSet s.left n.toNat l
          right := cellSet s.right n.toNat r, act := some act', hufOutCnt := some 0, hufNode := some 510
          brByte := none, brPos := some 8, phase := .hufDecode })) ∧
    (∀ c, freqAdd p fl fr = none → s.chChan = some c →
      stepWith p s = .next (s.faultEntry .frequencyOverflow .hufBuild c))

/-- R146, R147: a merge keeps the build invariant (the active list is sorted by frequency, earlier nodes first among equal
frequencies, and HUF_NEXT + len(ACT) = 512); the merge that ends the build leaves ACT = [510] and HUF_NEXT = 511. -/
def Obligations.BuildOrderKept : Prop :=
  ∀ (p : FreqOverflow) (s t : State), s.phase = .hufBuild → s.BuildOrder → stepWith p s = .next t →
    (t.phase = .hufBuild ∧ t.BuildOrder) ∨
    (t.phase = .hufDecode ∧ t.act = some [510] ∧ t.hufNext = some 511) ∨ t.phase = .error

/-- R146: from a state of the build invariant with m entries in the active list, the build takes exactly m - 1 merges
(255 for the 256 leaves) under every setting but fault, and ends with ACT = [510] and HUF_NEXT = 511. -/
def Obligations.BuildTakesOneMergePerEntry : Prop :=
  ∀ (p : FreqOverflow) (s : State) (act : List (BitVec 9)), p ≠ .fault → s.phase = .hufBuild → s.BuildOrder →
    s.act = some act → 2 ≤ act.length →
    ∃ t, runWith p (act.length - 1) s = .next t ∧ t.phase = .hufDecode ∧ t.act = some [510] ∧ t.hufNext = some 511

/-- R145, the law: while the frequencies in the active list sum to at most 2^32-1, a merge is the same under every setting
of P_FREQ_OVERFLOW, and it keeps the sum, so the three settings build the same tree. -/
def Obligations.SettingsAgreeBelow32Bits : Prop :=
  ∀ (s : State) (act : List (BitVec 9)) (n : BitVec 10) (l : List (Nat × BitVec 9)), s.act = some act →
    s.hufNext = some n → (∀ x ∈ act, x.toNat < n.toNat) → keyed s.freq act = .next l →
    (l.map Prod.fst).sum ≤ 2 ^ 32 - 1 → ∀ p q : FreqOverflow,
      hufMerge p s = hufMerge q s ∧
      ∀ t, hufMerge p s = .next t → ∃ act' l', t.act = some act' ∧ keyed t.freq act' = .next l' ∧
        (l'.map Prod.fst).sum = (l.map Prod.fst).sum

/-- R148, R150: HUF.BIT0 takes one bit and moves to the left child; at a leaf it appends the leaf's index to HOUT and goes
back to the root; nothing else changes but what taking the bit changes. When no bit is loaded and the window has no byte
left it raises TruncatedInput in stage HUF_DECODE. -/
def Obligations.HufBit0MovesLeft : Prop :=
  ∀ (s : State),
    (∀ (s1 : State) (node child : BitVec 9), BitTaken s false s1 → s.hufNode = some node →
      cellGet s.left node.toNat = some child →
      (256 ≤ child.toNat → exec .hufBit0 s = .next { s1 with hufNode := some child }) ∧
      (∀ cnt u, child.toNat ≤ 255 → s.hufOutCnt = some cnt → s.hufUnpacked = some u → cnt.toNat < u.toNat →
        ∃ t, exec .hufBit0 s = .next t ∧
          t = { s1 with hout := t.hout, hufOutCnt := some (cnt + 1), hufNode := some 510 } ∧
          t.hout.read cnt.toNat = some (BitVec.ofNat 8 child.toNat) ∧
          ∀ a, a ≠ cnt.toNat → t.hout.read a = s.hout.read a)) ∧
    (∀ (p l : BitVec 33) (c : BitVec 2), s.brPos = some 8 → s.inPos = some p → s.inLimit = some l →
      l.toNat ≤ p.toNat → s.chChan = some c →
      exec .hufBit0 s = .next (s.faultEntry .truncatedInput .hufDecode c))

/-- R149, R150: HUF.BIT1 takes one bit and moves to the right child; at a leaf it appends the leaf's index to HOUT and goes
back to the root; nothing else changes but what taking the bit changes. When no bit is loaded and the window has no byte
left it raises TruncatedInput in stage HUF_DECODE. -/
def Obligations.HufBit1MovesRight : Prop :=
  ∀ (s : State),
    (∀ (s1 : State) (node child : BitVec 9), BitTaken s true s1 → s.hufNode = some node →
      cellGet s.right node.toNat = some child →
      (256 ≤ child.toNat → exec .hufBit1 s = .next { s1 with hufNode := some child }) ∧
      (∀ cnt u, child.toNat ≤ 255 → s.hufOutCnt = some cnt → s.hufUnpacked = some u → cnt.toNat < u.toNat →
        ∃ t, exec .hufBit1 s = .next t ∧
          t = { s1 with hout := t.hout, hufOutCnt := some (cnt + 1), hufNode := some 510 } ∧
          t.hout.read cnt.toNat = some (BitVec.ofNat 8 child.toNat) ∧
          ∀ a, a ≠ cnt.toNat → t.hout.read a = s.hout.read a)) ∧
    (∀ (p l : BitVec 33) (c : BitVec 2), s.brPos = some 8 → s.inPos = some p → s.inLimit = some l →
      l.toNat ≤ p.toNat → s.chChan = some c →
      exec .hufBit1 s = .next (s.faultEntry .truncatedInput .hufDecode c))

/-- R151: when HUF_UNPACKED bytes are out, the stage ends: the BitReader's residue is discarded, the port moves onto HOUT,
and the dictionary stage or the run-length stage (set up with srcSize = HUF_UNPACKED) begins (decision D4).
The dictionary stage begins with its registers at no value (R43, decision D23); that HUF_* keep their values, and ACT too,
is the model's reading (logs 23, 24). -/
def Obligations.HuffmanStageEnds : Prop :=
  ∀ (s : State) (u : BitVec 32) (m : PipeMode), s.phase = .hufDecode → s.hufOutCnt = some u →
    s.hufUnpacked = some u → s.pipeMode = some m →
    step s = .next
      (let e : State :=
        { s with
          brByte := none, brPos := none, inSpace := some .hout, inBase := some 0, inPos := some 0
          inLimit := some (BitVec.ofNat 33 u.toNat) }
       if m = .hufdict then { e with dictEsc := none, dictDst := none, phase := .dictHeader }
       else { e with rleSrcSize := some u, rleDst := some 0, phase := .rle })

/-! ## The DictionaryDecoder (42_dictionary) -/

/-- R171: DICT.HEADER takes byte 8 of the memory under the port as the escape marker and puts the port at index 12; with
fewer than 9 bytes in the window it raises TruncatedInput in stage DICT (decision D24). -/
def Obligations.DictHeaderSetsTheMarker : Prop :=
  ∀ (s : State) (e : Byte) (l : BitVec 33), s.inLimit = some l →
    (9 ≤ l.toNat → exec (.dictHeader e) s = .next
      { s with inPos := some 12, dictEsc := some e, dictDst := some 0, phase := .dict }) ∧
    (∀ c, l.toNat ≤ 8 → s.chChan = some c →
      exec (.dictHeader e) s = .next (s.faultEntry .truncatedInput .dict c)) ∧
    (∀ sp, s.phase = .dictHeader → s.inSpace = some sp → 9 ≤ l.toNat → portByte s sp 8 = some e →
      step s = exec (.dictHeader e) s)

/-- R173, R174: DICT.LIT appends its byte and consumes 1 byte, DICT.ESC appends the escape marker and consumes 2; no other
byte of the plane, no other memory and no other register changes. Beyond the window they raise TruncatedInput in stage
DICT. -/
def Obligations.DictLiteralsAppendOneByte : Prop :=
  ∀ (s : State) (b e : Byte) (p l : BitVec 33) (d n : BitVec 32), s.inPos = some p → s.inLimit = some l →
    s.dictEsc = some e → s.dictDst = some d → s.planeSize = some n → d.toNat < n.toNat →
    (p.toNat + 1 ≤ l.toNat → ∃ t, exec (.dictLit b) s = .next t ∧
      t = { s with inPos := some (p + 1), plane := t.plane, dictDst := some (d + 1) } ∧
      t.plane.read d.toNat = some b ∧ ∀ a, a ≠ d.toNat → t.plane.read a = s.plane.read a) ∧
    (p.toNat + 2 ≤ l.toNat → ∃ t, exec .dictEsc s = .next t ∧
      t = { s with inPos := some (p + 2), plane := t.plane, dictDst := some (d + 1) } ∧
      t.plane.read d.toNat = some e ∧ ∀ a, a ≠ d.toNat → t.plane.read a = s.plane.read a) ∧
    (∀ c, s.chChan = some c →
      (l.toNat < p.toNat + 1 → exec (.dictLit b) s = .next (s.faultEntry .truncatedInput .dict c)) ∧
      (l.toNat < p.toNat + 2 → exec .dictEsc s = .next (s.faultEntry .truncatedInput .dict c)))

/-- R175, R248: DICT.COPY. With `off` the raw offset, less 1 when it is greater than the marker: a copy of count 0 only
consumes its 3 bytes; otherwise the errors are TruncatedInput, then BadBackReference, then OutputOverflow; and a copy
that is admitted makes byte dst + j equal byte dst + j - off for every j below the count (so an overlapping copy
repeats with period off), and changes no other byte of the plane, no other memory and no other register. The
errors and their order are decisions D8 and D10 of the spec. -/
def Obligations.DictCopyRepeatsEarlierBytes : Prop :=
  ∀ (s : State) (o n e : Byte) (p l : BitVec 33) (d size : BitVec 32) (off : Nat), s.inPos = some p →
    s.inLimit = some l → s.dictEsc = some e → s.dictDst = some d → s.planeSize = some size →
    off = (if e.toNat < o.toNat then o.toNat - 1 else o.toNat) →
    (p.toNat + 3 ≤ l.toNat → n = 0 → exec (.dictCopy o n) s = .next { s with inPos := some (p + 3) }) ∧
    (p.toNat + 3 ≤ l.toNat → n ≠ 0 → off ≠ 0 → off ≤ d.toNat → d.toNat + n.toNat ≤ size.toNat →
      (∀ a, a < d.toNat → (s.plane.read a).isSome = true) →
      ∃ t, exec (.dictCopy o n) s = .next t ∧
        t = { s with
          inPos := some (p + 3), plane := t.plane, dictDst := some (BitVec.ofNat 32 (d.toNat + n.toNat)) } ∧
        (∀ j, j < n.toNat → (t.plane.read (d.toNat + j)).isSome = true ∧
          t.plane.read (d.toNat + j) = t.plane.read (d.toNat + j - off)) ∧
        ∀ a, a < d.toNat ∨ d.toNat + n.toNat ≤ a → t.plane.read a = s.plane.read a) ∧
    (∀ c, s.chChan = some c →
      (l.toNat < p.toNat + 3 → exec (.dictCopy o n) s = .next (s.faultEntry .truncatedInput .dict c)) ∧
      (p.toNat + 3 ≤ l.toNat → n ≠ 0 → off = 0 ∨ d.toNat < off →
        exec (.dictCopy o n) s = .next (s.faultEntry .badBackReference .dict c)) ∧
      (p.toNat + 3 ≤ l.toNat → n ≠ 0 → off ≠ 0 → off ≤ d.toNat → size.toNat < d.toNat + n.toNat →
        exec (.dictCopy o n) s = .next (s.faultEntry .outputOverflow .dict c)))

/-- R172: a step of phase DICT with the plane full ends the stage, and reads no input. -/
def Obligations.DictStageEndsWhenFull : Prop :=
  ∀ (s : State) (n : BitVec 32), s.phase = .dict → s.dictDst = some n → s.planeSize = some n →
    step s = .next { s with phase := .fillCheck }

/-! ## The RunLengthDecoder (43_runlength) -/

/-- R195: RLE.NOP consumes its control byte and changes nothing else. -/
def Obligations.RleNopConsumesOneByte : Prop :=
  ∀ (s : State) (p l : BitVec 33), s.inPos = some p → s.inLimit = some l → p.toNat + 1 ≤ l.toNat →
    exec .rleNop s = .next { s with inPos := some (p + 1) }

/-- R194, R248: RLE.LIT copies its literal bytes to the plane in order and consumes 1 + n bytes, changing no other byte and
no other register; OutputOverflow comes before TruncatedInput (decision D8). -/
def Obligations.RleLitCopiesItsBytes : Prop :=
  ∀ (s : State) (vs : List Byte) (p l : BitVec 33) (d n : BitVec 32), s.inPos = some p → s.inLimit = some l →
    s.rleDst = some d → s.planeSize = some n → p.toNat + 1 ≤ l.toNat →
    (d.toNat + vs.length ≤ n.toNat → p.toNat + 1 + vs.length ≤ l.toNat → ∃ t, exec (.rleLit vs) s = .next t ∧
      t = { s with
        inPos := some (BitVec.ofNat 33 (p.toNat + 1 + vs.length)), plane := t.plane
        rleDst := some (BitVec.ofNat 32 (d.toNat + vs.length)) } ∧
      (∀ j, j < vs.length → t.plane.read (d.toNat + j) = vs[j]?) ∧
      ∀ a, a < d.toNat ∨ d.toNat + vs.length ≤ a → t.plane.read a = s.plane.read a) ∧
    (∀ c, s.chChan = some c →
      (n.toNat < d.toNat + vs.length →
        exec (.rleLit vs) s = .next (s.faultEntry .outputOverflow .rle c)) ∧
      (d.toNat + vs.length ≤ n.toNat → l.toNat < p.toNat + 1 + vs.length →
        exec (.rleLit vs) s = .next (s.faultEntry .truncatedInput .rle c)))

/-- R193, R248: RLE.RUN writes its value byte k times and consumes 2 bytes, changing no other byte and no other register; a
run of length 0 writes nothing and still consumes the value byte; OutputOverflow comes before TruncatedInput (decision D8). -/
def Obligations.RleRunRepeatsItsByte : Prop :=
  ∀ (s : State) (k : BitVec 7) (v : Byte) (p l : BitVec 33) (d n : BitVec 32), s.inPos = some p →
    s.inLimit = some l → s.rleDst = some d → s.planeSize = some n → p.toNat + 1 ≤ l.toNat →
    (d.toNat + k.toNat ≤ n.toNat → p.toNat + 2 ≤ l.toNat → ∃ t, exec (.rleRun k v) s = .next t ∧
      t = { s with
        inPos := some (p + 2), plane := t.plane, rleDst := some (BitVec.ofNat 32 (d.toNat + k.toNat)) } ∧
      (∀ j, j < k.toNat → t.plane.read (d.toNat + j) = some v) ∧
      ∀ a, a < d.toNat ∨ d.toNat + k.toNat ≤ a → t.plane.read a = s.plane.read a) ∧
    (∀ c, s.chChan = some c →
      (n.toNat < d.toNat + k.toNat → exec (.rleRun k v) s = .next (s.faultEntry .outputOverflow .rle c)) ∧
      (d.toNat + k.toNat ≤ n.toNat → l.toNat < p.toNat + 2 →
        exec (.rleRun k v) s = .next (s.faultEntry .truncatedInput .rle c)))

/-- R192, R196: a step of phase RLE ends the stage when srcSize bytes are consumed, and only then: while fewer are consumed a
step stays in phase RLE or ends in ERROR. From a safe state of the stage it ends, in FILL_CHECK or in ERROR, within one
step more than the bytes that are left. -/
def Obligations.RunLengthStageEnds : Prop :=
  ∀ (p : FreqOverflow) (s : State) (pos b : BitVec 33) (n : BitVec 32), s.phase = .rle → s.inPos = some pos →
    s.inBase = some b → s.rleSrcSize = some n →
    (n.toNat ≤ pos.toNat - b.toNat → stepWith p s = .next { s with phase := .fillCheck }) ∧
    (∀ t, pos.toNat - b.toNat < n.toNat → stepWith p s = .next t → t.phase = .rle ∨ t.phase = .error) ∧
    (s.Running → ∃ k t, k ≤ n.toNat - (pos.toNat - b.toNat) + 1 ∧ runWith p k s = .next t ∧
      (t.phase = .fillCheck ∨ t.phase = .error))

/-! ## Errors, reset and the host (60_exceptions, 70_reset, 44_pipeline) -/

/-- R245, R243: the fault entry records kind, channel and stage, under the numbers R241, R242 and R29 give them, sets
STATUS.STATE (which then reads 3, R28) and PHASE to ERROR, takes every working register and every byte of PIX, PLANE and
HOUT to no value, and changes nothing else (decisions D14, D15). -/
def Obligations.FaultEntryWipesTheDecode : Prop :=
  ∀ (e : ErrKind) (st : Stage) (s : State) (c : BitVec 2), s.chChan = some c →
    ∃ t, raise e st s = .next t ∧
      t = { s with
        errCode :=
          (match e with
            | .truncatedInput => 2
            | .malformedTree => 3
            | .outputOverflow => 4
            | .badBackReference => 5
            | .planeUnderfill => 6
            | .capacityExceeded => 7
            | .frequencyOverflow => 8)
        errChannel := c
        errStage :=
          (match st with
            | .hufHeader => 1
            | .hufBuild => 2
            | .hufDecode => 3
            | .dict => 4
            | .rle => 5
            | .fillCheck => 6)
        statusState := .error, phase := .error
        inSpace := none, inBase := none, inLimit := none, inPos := none, brByte := none, brPos := none
        hufUnpacked := none, hufNext := none, hufNode := none, hufOutCnt := none, act := none
        freq := [], left := [], right := [], dictEsc := none, dictDst := none, rleSrcSize := none, rleDst := none
        scatY := none, scatX := none, scatDst := none, jobIdx := none, chChan := none, chFileOff := none
        chLen := none, pipeMode := none, pix := [], plane := [], hout := [] } ∧
      (statusWord t).toNat % 4 = 3

/-- R246: in phase ERROR the status and the error registers keep their values over every step, until a step takes a
CMD.DECODE_IMAGE, which clears them and starts a new decode (decision D15). That the command waits in a list is the
model's choice (log 4). -/
def Obligations.ErrorStaysUntilTheNextStart : Prop :=
  ∀ (p : FreqOverflow) (s t : State), s.phase = .error → s.statusState = .error → stepWith p s = .next t →
    (t.phase = .error ∧ t.statusState = .error ∧ t.errCode = s.errCode ∧ t.errChannel = s.errChannel ∧
      t.errStage = s.errStage) ∨
    (s.inbox.head? = some .decodeImage ∧ t.phase = .chSetup ∧ t.statusState = .busy ∧ t.errCode = 0 ∧
      t.errChannel = 0 ∧ t.errStage = 0)

/-- R44: the state after reset: IDLE, no error, an empty active list, every other register, every arena entry and every
memory byte holding no value (decision D30 of the spec). -/
def Obligations.ResetHoldsNoValues : Prop :=
  State.reset.phase = .idle ∧ State.reset.statusState = .idle ∧ State.reset.statusFormat = .rgb24 ∧
  statusWord State.reset = 0 ∧ State.reset.errCode = 0 ∧
  State.reset.errChannel = 0 ∧ State.reset.errStage = 0 ∧ State.reset.act = some [] ∧
  (State.reset.descVersion, State.reset.descPack, State.reset.descWidth, State.reset.descHeight,
    State.reset.descDepth, State.reset.descAlen, State.reset.descRlen, State.reset.descGlen, State.reset.descBlen,
    State.reset.descFileSize) = (none, none, none, none, none, none, none, none, none, none) ∧
  (State.reset.hasAlpha, State.reset.bpp, State.reset.outFormat, State.reset.planeSize, State.reset.pixSize,
    State.reset.jobs, State.reset.jobIdx, State.reset.chChan, State.reset.chFileOff, State.reset.chLen,
    State.reset.pipeMode) = (none, none, none, none, none, none, none, none, none, none, none) ∧
  (State.reset.inSpace, State.reset.inBase, State.reset.inLimit, State.reset.inPos, State.reset.brByte,
    State.reset.brPos, State.reset.hufUnpacked, State.reset.hufNext, State.reset.hufNode,
    State.reset.hufOutCnt) = (none, none, none, none, none, none, none, none, none, none) ∧
  (State.reset.dictEsc, State.reset.dictDst, State.reset.rleSrcSize, State.reset.rleDst, State.reset.scatY,
    State.reset.scatX, State.reset.scatDst) = (none, none, none, none, none, none, none) ∧
  (∀ i, cellGet State.reset.freq i = none ∧ cellGet State.reset.left i = none ∧
    cellGet State.reset.right i = none) ∧
  (∀ a, State.reset.src.read a = none ∧ State.reset.hout.read a = none ∧ State.reset.plane.read a = none ∧
    State.reset.pix.read a = none)

/-- R26: CORE_OK is the start precondition: width and height at least 1, depth 24 or 32, 32 plus the region lengths equal
to the file size, and SRC holding exactly that many bytes. -/
def Obligations.CoreOkIsTheStartPrecondition : Prop :=
  ∀ (s : State) (w h d : BitVec 16) (a r g b f : BitVec 32), s.descWidth = some w → s.descHeight = some h →
    s.descDepth = some d → s.descAlen = some a → s.descRlen = some r → s.descGlen = some g → s.descBlen = some b →
    s.descFileSize = some f → s.src.wf = true →
    (coreOk s = true ↔ 1 ≤ w.toNat ∧ 1 ≤ h.toNat ∧ (d = 24 ∨ d = 32) ∧
      32 + a.toNat + r.toNat + g.toNat + b.toNat = f.toNat ∧
      ∀ i, (s.src.read i).isSome = true ↔ i < f.toNat)

/-- R211, R212, R27, R93: CMD.DECODE_IMAGE under CORE_OK sets the derived registers, clears PIX, PLANE, HOUT, the arena and
the error registers, builds the job list with exact file offsets, and enters CH_SETUP as BUSY, so that STATUS reads 1
(R28); nothing else changes but the act taken from the host's list. That list, and that the working registers and ACT
keep an earlier decode's values until their stage starts, are the model's choices (logs 4, 23, 24). -/
def Obligations.StartBuildsTheJobs : Prop :=
  ∀ (s : State) (rest : List HostAct) (w h d : BitVec 16) (a r g b : BitVec 32), s.phase.waits = true →
    s.statusState ≠ .busy → s.inbox = .decodeImage :: rest → coreOk s = true → s.descWidth = some w →
    s.descHeight = some h → s.descDepth = some d → s.descAlen = some a → s.descRlen = some r →
    s.descGlen = some g → s.descBlen = some b →
    ∃ t js, step s = .next t ∧
      t = { s with
        inbox := rest
        hasAlpha := some (decide (d = 32 ∧ 0 < a.toNat))
        bpp := some (if d = 32 ∧ 0 < a.toNat then 4 else 3)
        outFormat := some (if d = 32 ∧ 0 < a.toNat then .rgba32 else .rgb24)
        planeSize := t.planeSize, pixSize := t.pixSize
        pix := [], plane := [], hout := [], freq := [], left := [], right := []
        errCode := 0, errChannel := 0, errStage := 0, statusFormat := .rgb24
        jobs := some js, jobIdx := some 0, statusState := .busy, phase := .chSetup } ∧
      statusWord t = 1 ∧
      t.planeSize.map BitVec.toNat = some (w.toNat * h.toNat) ∧
      t.pixSize.map BitVec.toNat = some (w.toNat * h.toNat * (if d = 32 ∧ 0 < a.toNat then 4 else 3)) ∧
      js.map (fun j => (j.chan.toNat, j.fileOff.toNat, j.len.toNat)) =
        (if d = 32 ∧ 0 < a.toNat then [(3, 32, a.toNat)] else []) ++
          [(0, 32 + a.toNat, r.toNat), (1, 32 + a.toNat + r.toNat, g.toNat),
            (2, 32 + a.toNat + r.toNat + g.toNat, b.toNat)]

/-- R26, R244: a CMD.DECODE_IMAGE whose descriptor fails CORE_OK is refused, in every phase that takes acts of the host
(log 4). -/
def Obligations.BadStartIsRefused : Prop :=
  ∀ (s : State) (rest : List HostAct), s.phase.waits = true → s.statusState ≠ .busy →
    s.inbox = .decodeImage :: rest → coreOk s = false → step s = .refused .startNotOk

/-- R230, R75: loading an image writes SRC and the descriptor registers and nothing else; the host's acts are refused while
BUSY; PIX is readable only when DONE. That the host's acts wait in a list is the model's choice (log 4). -/
def Obligations.HostInterface : Prop :=
  (∀ (s : State) (d : Descriptor) (image : List Byte) (rest : List HostAct), s.phase.waits = true →
    s.statusState ≠ .busy → s.inbox = .load d image :: rest → ∃ t, step s = .next t ∧
      t = { s with
        inbox := rest, src := t.src, descVersion := some d.version, descPack := some d.pack
        descWidth := some d.width, descHeight := some d.height, descDepth := some d.depth, descAlen := some d.alen
        descRlen := some d.rlen, descGlen := some d.glen, descBlen := some d.blen
        descFileSize := some d.fileSize } ∧
      ∀ a, t.src.read a = image[a]?) ∧
  (∀ (s : State) (act : HostAct), s.statusState = .busy → hostAct act s = .refused .hostWhileBusy) ∧
  (∀ (s : State) (a : Nat), s.statusState ≠ .done → hostReadPix s a = .refused .pixNotDone) ∧
  (∀ (s : State) (a : Nat) (v : Byte), s.statusState = .done → s.pix.read a = some v → hostReadPix s a = .next v)

/-- R231, R273, R91: a file that the header collaborator accepts, with width and height at least 1 and fewer than 2^32
bytes, satisfies CORE_OK once it is loaded. The collaborator's checks stand as a host-side function (log 17). -/
def Obligations.AcceptedFileMayStart : Prop :=
  ∀ (s : State) (image : List Byte) (d : Descriptor), loadDescriptor image = some d → 1 ≤ d.width.toNat →
    1 ≤ d.height.toNat → image.length < 2 ^ 32 → coreOk (s.loaded d image) = true

/-! ## Invariants of every step -/

/-- The invariants hold at reset. -/
def Obligations.InvariantsAtReset : Prop :=
  State.reset.Canonical ∧ State.reset.StatusAgrees ∧ State.reset.ErrorsLegal ∧ State.reset.InBounds ∧
    State.reset.FreqFits ∧ State.reset.UnwrittenIsEmpty

/-- Every step keeps the memories and the arena in their canonical form. -/
def Obligations.CanonicalFormKept : Prop :=
  ∀ (s t : State), s.Canonical → step s = .next t → t.Canonical

/-- R28, R33, R241, R242: every step keeps STATUS.STATE saying what PHASE says, and the error registers holding a report
that some stage can make, exactly in ERROR. -/
def Obligations.StatusAndErrorsKept : Prop :=
  ∀ (s t : State), s.StatusAgrees → s.ErrorsLegal → step s = .next t → t.StatusAgrees ∧ t.ErrorsLegal

/-- R60, R77, R36, R62: every step keeps every cell that holds a value inside its memory (PLANE below PLANE_SIZE, PIX below
PIX_SIZE, HOUT below HUF_UNPACKED, which is at most P_HOUT_CAPACITY, and SRC below DESC_FILESIZE while a decode is in
progress) and inside the arena (index 511 is never written). -/
def Obligations.CellsStayInBounds : Prop :=
  ∀ (s t : State), s.InBounds → step s = .next t → t.InBounds

/-- R36, R145: under every setting but exact, every step keeps FREQ within 32 bits. -/
def Obligations.FrequenciesStay32Bits : Prop :=
  ∀ (p : FreqOverflow) (s t : State), p ≠ .exact → s.FreqFits → stepWith p s = .next t → t.FreqFits

/-- R20, R45, R60: while a decode is in progress no step changes SRC, the descriptor or the job list; only a scatter
changes PIX, only the dictionary and run-length phases and CH_SETUP change PLANE, only HUF_DECODE and CH_SETUP change
HOUT, and only CH_SETUP, HUF_HEADER and HUF_BUILD change the arena, except that a fault wipes them. -/
def Obligations.OnlyTheirStagesWriteMemories : Prop :=
  ∀ (s t : State), s.phase.waits = false → step s = .next t →
    (t.src = s.src ∧ t.descVersion = s.descVersion ∧ t.descPack = s.descPack ∧ t.descWidth = s.descWidth ∧
      t.descHeight = s.descHeight ∧ t.descDepth = s.descDepth ∧ t.descAlen = s.descAlen ∧
      t.descRlen = s.descRlen ∧ t.descGlen = s.descGlen ∧ t.descBlen = s.descBlen ∧
      t.descFileSize = s.descFileSize ∧ t.jobs = s.jobs ∧ t.hasAlpha = s.hasAlpha ∧ t.bpp = s.bpp ∧
      t.outFormat = s.outFormat ∧ t.planeSize = s.planeSize ∧ t.pixSize = s.pixSize ∧ t.inbox = s.inbox) ∧
    (t.phase = .error ∨
      ((s.phase ≠ .scatter → t.pix = s.pix) ∧
        (s.phase ≠ .dict → s.phase ≠ .rle → s.phase ≠ .chSetup → t.plane = s.plane) ∧
        (s.phase ≠ .hufDecode → s.phase ≠ .chSetup → t.hout = s.hout) ∧
        (s.phase ≠ .chSetup → s.phase ≠ .hufHeader → s.phase ≠ .hufBuild →
          t.freq = s.freq ∧ t.left = s.left ∧ t.right = s.right ∧ t.act = s.act)))

/-- A start under CORE_OK, with the memories canonical and the pack type written, gives a safe running state (R26, R43). -/
def Obligations.StartIsSafe : Prop :=
  ∀ (s : State) (rest : List HostAct), s.phase.waits = true → s.statusState ≠ .busy →
    s.inbox = .decodeImage :: rest → coreOk s = true → s.src.wf = true → s.descPack ≠ none →
    ∃ t, step s = .next t ∧ t.Running ∧ t.LanesFilled

/-- R43, 93 U8: a decode in progress never stops: under every setting, from every safe running state a step answers a next
state (no read of a cell without a value, no access outside a memory), which is safe again or has ended. -/
def Obligations.RunningNeverStops : Prop :=
  ∀ (p : FreqOverflow) (s : State), s.Running → ∃ t, stepWith p s = .next t ∧ (t.Running ∨ t.Ended)

/-- R219, R223, R75: along a safe run the lanes of the finished channels stay filled, and when the decode reaches DONE every
byte of the pixel buffer holds a value. -/
def Obligations.DoneMeansWholeImage : Prop :=
  ∀ (s t : State), s.Running → s.LanesFilled → step s = .next t →
    (t.Running → t.LanesFilled) ∧ (t.phase = .done → t.PixComplete)

/-- R282: every run ends: from every safe running state, under every setting, finitely many steps reach DONE or ERROR. -/
def Obligations.EveryRunEnds : Prop :=
  ∀ (p : FreqOverflow) (s : State), s.Running → ∃ n t, runWith p n s = .next t ∧ t.Ended

/-! ## The codes the host reads (10_state R27 to R29, 60_exceptions R241, R242) -/

/-- R28, R27: the STATUS word reads STATE in bits 1:0 (0 IDLE, 1 BUSY, 2 DONE, 3 ERROR), OUT_FORMAT in bit 2 (0 RGB24,
1 RGBA32) and zeros above, in every state (decision D19). -/
def Obligations.StatusWordLayout : Prop :=
  ∀ s : State, (statusWord s).toNat =
    (match s.statusState with
      | .idle => 0
      | .busy => 1
      | .done => 2
      | .error => 3) +
    4 * (match s.statusFormat with
      | .rgb24 => 0
      | .rgba32 => 1)

/-- R242, R241: the pairs of ERR_STAGE and ERR_CODE that a stage can report are exactly those of R242's table, under R241's
numbers (decision D14). -/
def Obligations.ReportsAreTheTables : Prop :=
  ∀ (st : Stage) (e : ErrKind), stageReports st e = true ↔
    ((stageCode st).toNat, (errKindCode e).toNat) ∈
      [(1, 2), (1, 7), (1, 3), (2, 8), (3, 2), (4, 2), (4, 5), (4, 4), (5, 2), (5, 4), (6, 6)]

/-! ## Cells that hold no value -/

/-- R43, R40, R133, R272: every step keeps what a stage has not written yet at no value: at the Huffman header its registers
and the arena (the active list empty), through the build the walk's registers and HOUT, at the dictionary header its
registers, until a unit writes it the plane, and the BitReader's and the scatter's registers outside the walk and the
scatter. Which step starts a stage is the model's reading (log 23). -/
def Obligations.UnwrittenHoldsNoValue : Prop :=
  ∀ (p : FreqOverflow) (s t : State), s.UnwrittenIsEmpty → stepWith p s = .next t → t.UnwrittenIsEmpty
end

