-- ==== Sys2Proof/Laws/Cells.lean ====
section
/-! SUPPORT. The laws of cells and memories: read after write, a string of writes, the canonical form. -/

namespace Sys2Proof.Machine

section Cells
variable {α : Type}

@[simp] theorem cellGet_nil (a : Nat) : cellGet ([] : List (Nat × α)) a = none := rfl

theorem cellGet_cons (c : Nat × α) (m : List (Nat × α)) (a : Nat) :
    cellGet (c :: m) a = if c.1 = a then some c.2 else cellGet m a := by
  by_cases h : c.1 = a
  · simp [cellGet, h]
  · have hb : Nat.beq c.1 a = false := by
      rw [Bool.eq_false_iff]
      simpa [Nat.beq_eq] using h
    simp [cellGet, h, hb]

theorem cellSet_cons (c : Nat × α) (m : List (Nat × α)) (a : Nat) (v : α) :
    cellSet (c :: m) a v = if a < c.1 then (a, v) :: c :: m else if c.1 = a then (a, v) :: m else c :: cellSet m a v := by
  by_cases h1 : a < c.1
  · have hb : Nat.blt a c.1 = true := by simpa [Nat.blt_eq] using h1
    simp [cellSet, h1, hb]
  · have hb : Nat.blt a c.1 = false := by
      rw [Bool.eq_false_iff]
      simpa [Nat.blt_eq] using h1
    by_cases h2 : c.1 = a
    · subst h2
      simp [cellSet, hb]
    · have hc : Nat.beq c.1 a = false := by
        rw [Bool.eq_false_iff]
        simpa [Nat.beq_eq] using h2
      simp [cellSet, h1, h2, hb, hc]

/-- Read after write, of any list of cells. -/
theorem cellGet_cellSet (m : List (Nat × α)) (a b : Nat) (v : α) :
    cellGet (cellSet m a v) b = if a = b then some v else cellGet m b := by
  induction m with
  | nil => simp [cellSet, cellGet_cons]
  | cons c m ih =>
    rw [cellSet_cons]
    split
    · rw [cellGet_cons]
    · split
      · rename_i h1 h2
        subst h2
        simp only [cellGet_cons]
        split <;> rfl
      · rename_i h1 h2
        rw [cellGet_cons, cellGet_cons, ih]
        by_cases h : c.1 = b
        · have hab : ¬ a = b := by omega
          simp [h, hab]
        · simp [h]

theorem cellsFrom_mono {lo lo' : Nat} (h : lo' ≤ lo) (m : List (Nat × α)) (hm : cellsFrom lo m = true) :
    cellsFrom lo' m = true := by
  cases m with
  | nil => rfl
  | cons c m =>
    simp only [cellsFrom, Bool.and_eq_true, decide_eq_true_eq] at hm ⊢
    exact ⟨by omega, hm.2⟩

/-- Writing keeps the canonical form. -/
theorem cellsFrom_cellSet (m : List (Nat × α)) (lo a : Nat) (v : α) (hm : cellsFrom lo m = true) (ha : lo ≤ a) :
    cellsFrom lo (cellSet m a v) = true := by
  induction m generalizing lo with
  | nil => simp [cellSet, cellsFrom, ha]
  | cons c m ih =>
    simp only [cellsFrom, Bool.and_eq_true, decide_eq_true_eq] at hm
    rw [cellSet_cons]
    split
    · simp only [cellsFrom, Bool.and_eq_true, decide_eq_true_eq]
      exact ⟨ha, by omega, hm.2⟩
    · split
      · rename_i h
        simp only [cellsFrom, Bool.and_eq_true, decide_eq_true_eq]
        exact ⟨ha, h ▸ hm.2⟩
      · simp only [cellsFrom, Bool.and_eq_true, decide_eq_true_eq]
        exact ⟨hm.1, ih _ hm.2 (by omega)⟩

theorem cellGet_below (m : List (Nat × α)) (lo a : Nat) (hm : cellsFrom lo m = true) (h : a < lo) :
    cellGet m a = none := by
  induction m generalizing lo with
  | nil => rfl
  | cons c m ih =>
    simp only [cellsFrom, Bool.and_eq_true, decide_eq_true_eq] at hm
    rw [cellGet_cons, if_neg (by omega)]
    exact ih _ hm.2 (by omega)

/-- Canonical lists of cells are determined by what they hold. -/
theorem cells_ext (m m' : List (Nat × α)) (lo : Nat) (hm : cellsFrom lo m = true) (hm' : cellsFrom lo m' = true)
    (h : ∀ a, cellGet m a = cellGet m' a) : m = m' := by
  induction m generalizing m' lo with
  | nil =>
    cases m' with
    | nil => rfl
    | cons c' m' =>
      have := h c'.1
      simp [cellGet_cons] at this
  | cons c m ih =>
    cases m' with
    | nil =>
      have := h c.1
      simp [cellGet_cons] at this
    | cons c' m' =>
      simp only [cellsFrom, Bool.and_eq_true, decide_eq_true_eq] at hm hm'
      have key : ∀ x y : Nat × α, ∀ l l' : List (Nat × α), cellsFrom (y.1 + 1) l' = true →
          (∀ a, cellGet (x :: l) a = cellGet (y :: l') a) → y.1 ≤ x.1 := by
        intro x y l l' hl' hx
        by_contra hlt
        have h1 := hx x.1
        rw [cellGet_cons, if_pos rfl, cellGet_cons, if_neg (by omega), cellGet_below l' _ _ hl' (by omega)] at h1
        cases h1
      have h1 := key c c' m m' hm'.2 h
      have h2 := key c' c m' m hm.2 (fun a => (h a).symm)
      have hc : c.1 = c'.1 := by omega
      have hv : c.2 = c'.2 := by
        have := h c.1
        rw [cellGet_cons, if_pos rfl, cellGet_cons, if_pos hc.symm] at this
        exact Option.some.inj this
      have hcc : c = c' := Prod.ext hc hv
      subst hcc
      congr 1
      refine ih m' _ hm.2 hm'.2 fun a => ?_
      by_cases ha : c.1 = a
      · rw [cellGet_below m _ a hm.2 (by omega), cellGet_below m' _ a hm'.2 (by omega)]
      · simpa [cellGet_cons, ha] using h a

end Cells

/-! ## Memories -/

@[simp] theorem Memory.read_nil (a : Nat) : Memory.read [] a = none := rfl

@[simp] theorem Memory.wf_nil : Memory.wf [] = true := rfl

theorem Memory.read_write (m : Memory) (a b : Nat) (v : BitVec 8) :
    (m.write a v).read b = if a = b then some v else m.read b := cellGet_cellSet m a b v

theorem Memory.wf_write (m : Memory) (a : Nat) (v : BitVec 8) (h : m.wf = true) : (m.write a v).wf = true :=
  cellsFrom_cellSet m 0 a v h (Nat.zero_le a)

/-- What a byte reads as after a string of writes. -/
theorem Memory.read_writeBytes (vs : List (BitVec 8)) (m : Memory) (d a : Nat) :
    (m.writeBytes d vs).read a = if d ≤ a ∧ a < d + vs.length then vs[a - d]? else m.read a := by
  induction vs generalizing m d with
  | nil => rw [if_neg (by simp only [List.length_nil]; omega)]; rfl
  | cons v vs ih =>
    rw [Memory.writeBytes, ih, Memory.read_write]
    simp only [List.length_cons]
    by_cases h1 : d = a
    · subst h1
      rw [if_neg (by omega), if_pos rfl, if_pos (by omega)]
      simp
    · by_cases h2 : d + 1 ≤ a ∧ a < d + 1 + vs.length
      · rw [if_pos h2, if_pos (by omega)]
        have : a - d = (a - (d + 1)) + 1 := by omega
        rw [this, List.getElem?_cons_succ]
      · rw [if_neg h2, if_neg h1, if_neg (by omega)]

theorem Memory.wf_writeBytes (vs : List (BitVec 8)) (m : Memory) (d : Nat) (h : m.wf = true) :
    (m.writeBytes d vs).wf = true := by
  induction vs generalizing m d with
  | nil => exact h
  | cons v vs ih => exact ih _ _ (Memory.wf_write m d v h)

theorem Memory.read_ofBytes (vs : List (BitVec 8)) (d a : Nat) :
    (Memory.ofBytes d vs).read a = if d ≤ a then vs[a - d]? else none := by
  induction vs generalizing d with
  | nil => simp [Memory.ofBytes]
  | cons v vs ih =>
    rw [Memory.ofBytes]
    show cellGet ((d, v) :: Memory.ofBytes (d + 1) vs) a = _
    rw [cellGet_cons]
    by_cases h1 : d = a
    · simp [h1]
    · rw [if_neg (by simpa using h1)]
      rw [show cellGet (Memory.ofBytes (d + 1) vs) a = (Memory.ofBytes (d + 1) vs).read a from rfl, ih]
      by_cases h2 : d ≤ a
      · rw [if_pos (by omega), if_pos h2]
        have : a - d = (a - (d + 1)) + 1 := by omega
        rw [this, List.getElem?_cons_succ]
      · rw [if_neg (by omega), if_neg h2]

theorem Memory.cellsFrom_ofBytes (vs : List (BitVec 8)) (d : Nat) : cellsFrom d (Memory.ofBytes d vs) = true := by
  induction vs generalizing d with
  | nil => rfl
  | cons v vs ih => simp [Memory.ofBytes, cellsFrom, ih]

theorem Memory.wf_ofBytes (vs : List (BitVec 8)) (d : Nat) : (Memory.ofBytes d vs).wf = true :=
  cellsFrom_mono (Nat.zero_le d) _ (Memory.cellsFrom_ofBytes vs d)

/-- Canonical memories that read the same are the same. -/
theorem Memory.ext_read (m m' : Memory) (h : m.wf = true) (h' : m'.wf = true) (hr : ∀ a, m.read a = m'.read a) :
    m = m' := cells_ext m m' 0 h h' hr

end Sys2Proof.Machine
end

