-- ==== Sys2Proof/Laws/State.lean ====
section
/-! SUPPORT. What each named update of the state does to each field: one lemma per field and update, so that no proof
unfolds a record update. -/

namespace Sys2Proof.Machine

/-! ### `State.setInPos` -/

@[simp] theorem State.setInPos_phase (s : State) (p : BitVec 33) :
    (s.setInPos p).phase = s.phase := rfl
@[simp] theorem State.setInPos_statusState (s : State) (p : BitVec 33) :
    (s.setInPos p).statusState = s.statusState := rfl
@[simp] theorem State.setInPos_statusFormat (s : State) (p : BitVec 33) :
    (s.setInPos p).statusFormat = s.statusFormat := rfl
@[simp] theorem State.setInPos_errCode (s : State) (p : BitVec 33) :
    (s.setInPos p).errCode = s.errCode := rfl
@[simp] theorem State.setInPos_errChannel (s : State) (p : BitVec 33) :
    (s.setInPos p).errChannel = s.errChannel := rfl
@[simp] theorem State.setInPos_errStage (s : State) (p : BitVec 33) :
    (s.setInPos p).errStage = s.errStage := rfl
@[simp] theorem State.setInPos_descVersion (s : State) (p : BitVec 33) :
    (s.setInPos p).descVersion = s.descVersion := rfl
@[simp] theorem State.setInPos_descPack (s : State) (p : BitVec 33) :
    (s.setInPos p).descPack = s.descPack := rfl
@[simp] theorem State.setInPos_descWidth (s : State) (p : BitVec 33) :
    (s.setInPos p).descWidth = s.descWidth := rfl
@[simp] theorem State.setInPos_descHeight (s : State) (p : BitVec 33) :
    (s.setInPos p).descHeight = s.descHeight := rfl
@[simp] theorem State.setInPos_descDepth (s : State) (p : BitVec 33) :
    (s.setInPos p).descDepth = s.descDepth := rfl
@[simp] theorem State.setInPos_descAlen (s : State) (p : BitVec 33) :
    (s.setInPos p).descAlen = s.descAlen := rfl
@[simp] theorem State.setInPos_descRlen (s : State) (p : BitVec 33) :
    (s.setInPos p).descRlen = s.descRlen := rfl
@[simp] theorem State.setInPos_descGlen (s : State) (p : BitVec 33) :
    (s.setInPos p).descGlen = s.descGlen := rfl
@[simp] theorem State.setInPos_descBlen (s : State) (p : BitVec 33) :
    (s.setInPos p).descBlen = s.descBlen := rfl
@[simp] theorem State.setInPos_descFileSize (s : State) (p : BitVec 33) :
    (s.setInPos p).descFileSize = s.descFileSize := rfl
@[simp] theorem State.setInPos_hasAlpha (s : State) (p : BitVec 33) :
    (s.setInPos p).hasAlpha = s.hasAlpha := rfl
@[simp] theorem State.setInPos_bpp (s : State) (p : BitVec 33) :
    (s.setInPos p).bpp = s.bpp := rfl
@[simp] theorem State.setInPos_outFormat (s : State) (p : BitVec 33) :
    (s.setInPos p).outFormat = s.outFormat := rfl
@[simp] theorem State.setInPos_planeSize (s : State) (p : BitVec 33) :
    (s.setInPos p).planeSize = s.planeSize := rfl
@[simp] theorem State.setInPos_pixSize (s : State) (p : BitVec 33) :
    (s.setInPos p).pixSize = s.pixSize := rfl
@[simp] theorem State.setInPos_jobs (s : State) (p : BitVec 33) :
    (s.setInPos p).jobs = s.jobs := rfl
@[simp] theorem State.setInPos_jobIdx (s : State) (p : BitVec 33) :
    (s.setInPos p).jobIdx = s.jobIdx := rfl
@[simp] theorem State.setInPos_chChan (s : State) (p : BitVec 33) :
    (s.setInPos p).chChan = s.chChan := rfl
@[simp] theorem State.setInPos_chFileOff (s : State) (p : BitVec 33) :
    (s.setInPos p).chFileOff = s.chFileOff := rfl
@[simp] theorem State.setInPos_chLen (s : State) (p : BitVec 33) :
    (s.setInPos p).chLen = s.chLen := rfl
@[simp] theorem State.setInPos_pipeMode (s : State) (p : BitVec 33) :
    (s.setInPos p).pipeMode = s.pipeMode := rfl
@[simp] theorem State.setInPos_inSpace (s : State) (p : BitVec 33) :
    (s.setInPos p).inSpace = s.inSpace := rfl
@[simp] theorem State.setInPos_inBase (s : State) (p : BitVec 33) :
    (s.setInPos p).inBase = s.inBase := rfl
@[simp] theorem State.setInPos_inLimit (s : State) (p : BitVec 33) :
    (s.setInPos p).inLimit = s.inLimit := rfl
@[simp] theorem State.setInPos_inPos (s : State) (p : BitVec 33) :
    (s.setInPos p).inPos = some p := rfl
@[simp] theorem State.setInPos_brByte (s : State) (p : BitVec 33) :
    (s.setInPos p).brByte = s.brByte := rfl
@[simp] theorem State.setInPos_brPos (s : State) (p : BitVec 33) :
    (s.setInPos p).brPos = s.brPos := rfl
@[simp] theorem State.setInPos_hufUnpacked (s : State) (p : BitVec 33) :
    (s.setInPos p).hufUnpacked = s.hufUnpacked := rfl
@[simp] theorem State.setInPos_hufNext (s : State) (p : BitVec 33) :
    (s.setInPos p).hufNext = s.hufNext := rfl
@[simp] theorem State.setInPos_hufNode (s : State) (p : BitVec 33) :
    (s.setInPos p).hufNode = s.hufNode := rfl
@[simp] theorem State.setInPos_hufOutCnt (s : State) (p : BitVec 33) :
    (s.setInPos p).hufOutCnt = s.hufOutCnt := rfl
@[simp] theorem State.setInPos_freq (s : State) (p : BitVec 33) :
    (s.setInPos p).freq = s.freq := rfl
@[simp] theorem State.setInPos_left (s : State) (p : BitVec 33) :
    (s.setInPos p).left = s.left := rfl
@[simp] theorem State.setInPos_right (s : State) (p : BitVec 33) :
    (s.setInPos p).right = s.right := rfl
@[simp] theorem State.setInPos_act (s : State) (p : BitVec 33) :
    (s.setInPos p).act = s.act := rfl
@[simp] theorem State.setInPos_dictEsc (s : State) (p : BitVec 33) :
    (s.setInPos p).dictEsc = s.dictEsc := rfl
@[simp] theorem State.setInPos_dictDst (s : State) (p : BitVec 33) :
    (s.setInPos p).dictDst = s.dictDst := rfl
@[simp] theorem State.setInPos_rleSrcSize (s : State) (p : BitVec 33) :
    (s.setInPos p).rleSrcSize = s.rleSrcSize := rfl
@[simp] theorem State.setInPos_rleDst (s : State) (p : BitVec 33) :
    (s.setInPos p).rleDst = s.rleDst := rfl
@[simp] theorem State.setInPos_scatY (s : State) (p : BitVec 33) :
    (s.setInPos p).scatY = s.scatY := rfl
@[simp] theorem State.setInPos_scatX (s : State) (p : BitVec 33) :
    (s.setInPos p).scatX = s.scatX := rfl
@[simp] theorem State.setInPos_scatDst (s : State) (p : BitVec 33) :
    (s.setInPos p).scatDst = s.scatDst := rfl
@[simp] theorem State.setInPos_src (s : State) (p : BitVec 33) :
    (s.setInPos p).src = s.src := rfl
@[simp] theorem State.setInPos_hout (s : State) (p : BitVec 33) :
    (s.setInPos p).hout = s.hout := rfl
@[simp] theorem State.setInPos_plane (s : State) (p : BitVec 33) :
    (s.setInPos p).plane = s.plane := rfl
@[simp] theorem State.setInPos_pix (s : State) (p : BitVec 33) :
    (s.setInPos p).pix = s.pix := rfl
@[simp] theorem State.setInPos_inbox (s : State) (p : BitVec 33) :
    (s.setInPos p).inbox = s.inbox := rfl

/-! ### `State.openPort` -/

@[simp] theorem State.openPort_phase (s : State) (sp : Space) (base limit : BitVec 33) :
    (s.openPort sp base limit).phase = s.phase := rfl
@[simp] theorem State.openPort_statusState (s : State) (sp : Space) (base limit : BitVec 33) :
    (s.openPort sp base limit).statusState = s.statusState := rfl
@[simp] theorem State.openPort_statusFormat (s : State) (sp : Space) (base limit : BitVec 33) :
    (s.openPort sp base limit).statusFormat = s.statusFormat := rfl
@[simp] theorem State.openPort_errCode (s : State) (sp : Space) (base limit : BitVec 33) :
    (s.openPort sp base limit).errCode = s.errCode := rfl
@[simp] theorem State.openPort_errChannel (s : State) (sp : Space) (base limit : BitVec 33) :
    (s.openPort sp base limit).errChannel = s.errChannel := rfl
@[simp] theorem State.openPort_errStage (s : State) (sp : Space) (base limit : BitVec 33) :
    (s.openPort sp base limit).errStage = s.errStage := rfl
@[simp] theorem State.openPort_descVersion (s : State) (sp : Space) (base limit : BitVec 33) :
    (s.openPort sp base limit).descVersion = s.descVersion := rfl
@[simp] theorem State.openPort_descPack (s : State) (sp : Space) (base limit : BitVec 33) :
    (s.openPort sp base limit).descPack = s.descPack := rfl
@[simp] theorem State.openPort_descWidth (s : State) (sp : Space) (base limit : BitVec 33) :
    (s.openPort sp base limit).descWidth = s.descWidth := rfl
@[simp] theorem State.openPort_descHeight (s : State) (sp : Space) (base limit : BitVec 33) :
    (s.openPort sp base limit).descHeight = s.descHeight := rfl
@[simp] theorem State.openPort_descDepth (s : State) (sp : Space) (base limit : BitVec 33) :
    (s.openPort sp base limit).descDepth = s.descDepth := rfl
@[simp] theorem State.openPort_descAlen (s : State) (sp : Space) (base limit : BitVec 33) :
    (s.openPort sp base limit).descAlen = s.descAlen := rfl
@[simp] theorem State.openPort_descRlen (s : State) (sp : Space) (base limit : BitVec 33) :
    (s.openPort sp base limit).descRlen = s.descRlen := rfl
@[simp] theorem State.openPort_descGlen (s : State) (sp : Space) (base limit : BitVec 33) :
    (s.openPort sp base limit).descGlen = s.descGlen := rfl
@[simp] theorem State.openPort_descBlen (s : State) (sp : Space) (base limit : BitVec 33) :
    (s.openPort sp base limit).descBlen = s.descBlen := rfl
@[simp] theorem State.openPort_descFileSize (s : State) (sp : Space) (base limit : BitVec 33) :
    (s.openPort sp base limit).descFileSize = s.descFileSize := rfl
@[simp] theorem State.openPort_hasAlpha (s : State) (sp : Space) (base limit : BitVec 33) :
    (s.openPort sp base limit).hasAlpha = s.hasAlpha := rfl
@[simp] theorem State.openPort_bpp (s : State) (sp : Space) (base limit : BitVec 33) :
    (s.openPort sp base limit).bpp = s.bpp := rfl
@[simp] theorem State.openPort_outFormat (s : State) (sp : Space) (base limit : BitVec 33) :
    (s.openPort sp base limit).outFormat = s.outFormat := rfl
@[simp] theorem State.openPort_planeSize (s : State) (sp : Space) (base limit : BitVec 33) :
    (s.openPort sp base limit).planeSize = s.planeSize := rfl
@[simp] theorem State.openPort_pixSize (s : State) (sp : Space) (base limit : BitVec 33) :
    (s.openPort sp base limit).pixSize = s.pixSize := rfl
@[simp] theorem State.openPort_jobs (s : State) (sp : Space) (base limit : BitVec 33) :
    (s.openPort sp base limit).jobs = s.jobs := rfl
@[simp] theorem State.openPort_jobIdx (s : State) (sp : Space) (base limit : BitVec 33) :
    (s.openPort sp base limit).jobIdx = s.jobIdx := rfl
@[simp] theorem State.openPort_chChan (s : State) (sp : Space) (base limit : BitVec 33) :
    (s.openPort sp base limit).chChan = s.chChan := rfl
@[simp] theorem State.openPort_chFileOff (s : State) (sp : Space) (base limit : BitVec 33) :
    (s.openPort sp base limit).chFileOff = s.chFileOff := rfl
@[simp] theorem State.openPort_chLen (s : State) (sp : Space) (base limit : BitVec 33) :
    (s.openPort sp base limit).chLen = s.chLen := rfl
@[simp] theorem State.openPort_pipeMode (s : State) (sp : Space) (base limit : BitVec 33) :
    (s.openPort sp base limit).pipeMode = s.pipeMode := rfl
@[simp] theorem State.openPort_inSpace (s : State) (sp : Space) (base limit : BitVec 33) :
    (s.openPort sp base limit).inSpace = some sp := rfl
@[simp] theorem State.openPort_inBase (s : State) (sp : Space) (base limit : BitVec 33) :
    (s.openPort sp base limit).inBase = some base := rfl
@[simp] theorem State.openPort_inLimit (s : State) (sp : Space) (base limit : BitVec 33) :
    (s.openPort sp base limit).inLimit = some limit := rfl
@[simp] theorem State.openPort_inPos (s : State) (sp : Space) (base limit : BitVec 33) :
    (s.openPort sp base limit).inPos = some base := rfl
@[simp] theorem State.openPort_brByte (s : State) (sp : Space) (base limit : BitVec 33) :
    (s.openPort sp base limit).brByte = s.brByte := rfl
@[simp] theorem State.openPort_brPos (s : State) (sp : Space) (base limit : BitVec 33) :
    (s.openPort sp base limit).brPos = s.brPos := rfl
@[simp] theorem State.openPort_hufUnpacked (s : State) (sp : Space) (base limit : BitVec 33) :
    (s.openPort sp base limit).hufUnpacked = s.hufUnpacked := rfl
@[simp] theorem State.openPort_hufNext (s : State) (sp : Space) (base limit : BitVec 33) :
    (s.openPort sp base limit).hufNext = s.hufNext := rfl
@[simp] theorem State.openPort_hufNode (s : State) (sp : Space) (base limit : BitVec 33) :
    (s.openPort sp base limit).hufNode = s.hufNode := rfl
@[simp] theorem State.openPort_hufOutCnt (s : State) (sp : Space) (base limit : BitVec 33) :
    (s.openPort sp base limit).hufOutCnt = s.hufOutCnt := rfl
@[simp] theorem State.openPort_freq (s : State) (sp : Space) (base limit : BitVec 33) :
    (s.openPort sp base limit).freq = s.freq := rfl
@[simp] theorem State.openPort_left (s : State) (sp : Space) (base limit : BitVec 33) :
    (s.openPort sp base limit).left = s.left := rfl
@[simp] theorem State.openPort_right (s : State) (sp : Space) (base limit : BitVec 33) :
    (s.openPort sp base limit).right = s.right := rfl
@[simp] theorem State.openPort_act (s : State) (sp : Space) (base limit : BitVec 33) :
    (s.openPort sp base limit).act = s.act := rfl
@[simp] theorem State.openPort_dictEsc (s : State) (sp : Space) (base limit : BitVec 33) :
    (s.openPort sp base limit).dictEsc = s.dictEsc := rfl
@[simp] theorem State.openPort_dictDst (s : State) (sp : Space) (base limit : BitVec 33) :
    (s.openPort sp base limit).dictDst = s.dictDst := rfl
@[simp] theorem State.openPort_rleSrcSize (s : State) (sp : Space) (base limit : BitVec 33) :
    (s.openPort sp base limit).rleSrcSize = s.rleSrcSize := rfl
@[simp] theorem State.openPort_rleDst (s : State) (sp : Space) (base limit : BitVec 33) :
    (s.openPort sp base limit).rleDst = s.rleDst := rfl
@[simp] theorem State.openPort_scatY (s : State) (sp : Space) (base limit : BitVec 33) :
    (s.openPort sp base limit).scatY = s.scatY := rfl
@[simp] theorem State.openPort_scatX (s : State) (sp : Space) (base limit : BitVec 33) :
    (s.openPort sp base limit).scatX = s.scatX := rfl
@[simp] theorem State.openPort_scatDst (s : State) (sp : Space) (base limit : BitVec 33) :
    (s.openPort sp base limit).scatDst = s.scatDst := rfl
@[simp] theorem State.openPort_src (s : State) (sp : Space) (base limit : BitVec 33) :
    (s.openPort sp base limit).src = s.src := rfl
@[simp] theorem State.openPort_hout (s : State) (sp : Space) (base limit : BitVec 33) :
    (s.openPort sp base limit).hout = s.hout := rfl
@[simp] theorem State.openPort_plane (s : State) (sp : Space) (base limit : BitVec 33) :
    (s.openPort sp base limit).plane = s.plane := rfl
@[simp] theorem State.openPort_pix (s : State) (sp : Space) (base limit : BitVec 33) :
    (s.openPort sp base limit).pix = s.pix := rfl
@[simp] theorem State.openPort_inbox (s : State) (sp : Space) (base limit : BitVec 33) :
    (s.openPort sp base limit).inbox = s.inbox := rfl

/-! ### `State.attachBitReader` -/

@[simp] theorem State.attachBitReader_phase (s : State) :
    (s.attachBitReader).phase = s.phase := rfl
@[simp] theorem State.attachBitReader_statusState (s : State) :
    (s.attachBitReader).statusState = s.statusState := rfl
@[simp] theorem State.attachBitReader_statusFormat (s : State) :
    (s.attachBitReader).statusFormat = s.statusFormat := rfl
@[simp] theorem State.attachBitReader_errCode (s : State) :
    (s.attachBitReader).errCode = s.errCode := rfl
@[simp] theorem State.attachBitReader_errChannel (s : State) :
    (s.attachBitReader).errChannel = s.errChannel := rfl
@[simp] theorem State.attachBitReader_errStage (s : State) :
    (s.attachBitReader).errStage = s.errStage := rfl
@[simp] theorem State.attachBitReader_descVersion (s : State) :
    (s.attachBitReader).descVersion = s.descVersion := rfl
@[simp] theorem State.attachBitReader_descPack (s : State) :
    (s.attachBitReader).descPack = s.descPack := rfl
@[simp] theorem State.attachBitReader_descWidth (s : State) :
    (s.attachBitReader).descWidth = s.descWidth := rfl
@[simp] theorem State.attachBitReader_descHeight (s : State) :
    (s.attachBitReader).descHeight = s.descHeight := rfl
@[simp] theorem State.attachBitReader_descDepth (s : State) :
    (s.attachBitReader).descDepth = s.descDepth := rfl
@[simp] theorem State.attachBitReader_descAlen (s : State) :
    (s.attachBitReader).descAlen = s.descAlen := rfl
@[simp] theorem State.attachBitReader_descRlen (s : State) :
    (s.attachBitReader).descRlen = s.descRlen := rfl
@[simp] theorem State.attachBitReader_descGlen (s : State) :
    (s.attachBitReader).descGlen = s.descGlen := rfl
@[simp] theorem State.attachBitReader_descBlen (s : State) :
    (s.attachBitReader).descBlen = s.descBlen := rfl
@[simp] theorem State.attachBitReader_descFileSize (s : State) :
    (s.attachBitReader).descFileSize = s.descFileSize := rfl
@[simp] theorem State.attachBitReader_hasAlpha (s : State) :
    (s.attachBitReader).hasAlpha = s.hasAlpha := rfl
@[simp] theorem State.attachBitReader_bpp (s : State) :
    (s.attachBitReader).bpp = s.bpp := rfl
@[simp] theorem State.attachBitReader_outFormat (s : State) :
    (s.attachBitReader).outFormat = s.outFormat := rfl
@[simp] theorem State.attachBitReader_planeSize (s : State) :
    (s.attachBitReader).planeSize = s.planeSize := rfl
@[simp] theorem State.attachBitReader_pixSize (s : State) :
    (s.attachBitReader).pixSize = s.pixSize := rfl
@[simp] theorem State.attachBitReader_jobs (s : State) :
    (s.attachBitReader).jobs = s.jobs := rfl
@[simp] theorem State.attachBitReader_jobIdx (s : State) :
    (s.attachBitReader).jobIdx = s.jobIdx := rfl
@[simp] theorem State.attachBitReader_chChan (s : State) :
    (s.attachBitReader).chChan = s.chChan := rfl
@[simp] theorem State.attachBitReader_chFileOff (s : State) :
    (s.attachBitReader).chFileOff = s.chFileOff := rfl
@[simp] theorem State.attachBitReader_chLen (s : State) :
    (s.attachBitReader).chLen = s.chLen := rfl
@[simp] theorem State.attachBitReader_pipeMode (s : State) :
    (s.attachBitReader).pipeMode = s.pipeMode := rfl
@[simp] theorem State.attachBitReader_inSpace (s : State) :
    (s.attachBitReader).inSpace = s.inSpace := rfl
@[simp] theorem State.attachBitReader_inBase (s : State) :
    (s.attachBitReader).inBase = s.inBase := rfl
@[simp] theorem State.attachBitReader_inLimit (s : State) :
    (s.attachBitReader).inLimit = s.inLimit := rfl
@[simp] theorem State.attachBitReader_inPos (s : State) :
    (s.attachBitReader).inPos = s.inPos := rfl
@[simp] theorem State.attachBitReader_brByte (s : State) :
    (s.attachBitReader).brByte = none := rfl
@[simp] theorem State.attachBitReader_brPos (s : State) :
    (s.attachBitReader).brPos = some 8 := rfl
@[simp] theorem State.attachBitReader_hufUnpacked (s : State) :
    (s.attachBitReader).hufUnpacked = s.hufUnpacked := rfl
@[simp] theorem State.attachBitReader_hufNext (s : State) :
    (s.attachBitReader).hufNext = s.hufNext := rfl
@[simp] theorem State.attachBitReader_hufNode (s : State) :
    (s.attachBitReader).hufNode = s.hufNode := rfl
@[simp] theorem State.attachBitReader_hufOutCnt (s : State) :
    (s.attachBitReader).hufOutCnt = s.hufOutCnt := rfl
@[simp] theorem State.attachBitReader_freq (s : State) :
    (s.attachBitReader).freq = s.freq := rfl
@[simp] theorem State.attachBitReader_left (s : State) :
    (s.attachBitReader).left = s.left := rfl
@[simp] theorem State.attachBitReader_right (s : State) :
    (s.attachBitReader).right = s.right := rfl
@[simp] theorem State.attachBitReader_act (s : State) :
    (s.attachBitReader).act = s.act := rfl
@[simp] theorem State.attachBitReader_dictEsc (s : State) :
    (s.attachBitReader).dictEsc = s.dictEsc := rfl
@[simp] theorem State.attachBitReader_dictDst (s : State) :
    (s.attachBitReader).dictDst = s.dictDst := rfl
@[simp] theorem State.attachBitReader_rleSrcSize (s : State) :
    (s.attachBitReader).rleSrcSize = s.rleSrcSize := rfl
@[simp] theorem State.attachBitReader_rleDst (s : State) :
    (s.attachBitReader).rleDst = s.rleDst := rfl
@[simp] theorem State.attachBitReader_scatY (s : State) :
    (s.attachBitReader).scatY = s.scatY := rfl
@[simp] theorem State.attachBitReader_scatX (s : State) :
    (s.attachBitReader).scatX = s.scatX := rfl
@[simp] theorem State.attachBitReader_scatDst (s : State) :
    (s.attachBitReader).scatDst = s.scatDst := rfl
@[simp] theorem State.attachBitReader_src (s : State) :
    (s.attachBitReader).src = s.src := rfl
@[simp] theorem State.attachBitReader_hout (s : State) :
    (s.attachBitReader).hout = s.hout := rfl
@[simp] theorem State.attachBitReader_plane (s : State) :
    (s.attachBitReader).plane = s.plane := rfl
@[simp] theorem State.attachBitReader_pix (s : State) :
    (s.attachBitReader).pix = s.pix := rfl
@[simp] theorem State.attachBitReader_inbox (s : State) :
    (s.attachBitReader).inbox = s.inbox := rfl

/-! ### `State.detachBitReader` -/

@[simp] theorem State.detachBitReader_phase (s : State) :
    (s.detachBitReader).phase = s.phase := rfl
@[simp] theorem State.detachBitReader_statusState (s : State) :
    (s.detachBitReader).statusState = s.statusState := rfl
@[simp] theorem State.detachBitReader_statusFormat (s : State) :
    (s.detachBitReader).statusFormat = s.statusFormat := rfl
@[simp] theorem State.detachBitReader_errCode (s : State) :
    (s.detachBitReader).errCode = s.errCode := rfl
@[simp] theorem State.detachBitReader_errChannel (s : State) :
    (s.detachBitReader).errChannel = s.errChannel := rfl
@[simp] theorem State.detachBitReader_errStage (s : State) :
    (s.detachBitReader).errStage = s.errStage := rfl
@[simp] theorem State.detachBitReader_descVersion (s : State) :
    (s.detachBitReader).descVersion = s.descVersion := rfl
@[simp] theorem State.detachBitReader_descPack (s : State) :
    (s.detachBitReader).descPack = s.descPack := rfl
@[simp] theorem State.detachBitReader_descWidth (s : State) :
    (s.detachBitReader).descWidth = s.descWidth := rfl
@[simp] theorem State.detachBitReader_descHeight (s : State) :
    (s.detachBitReader).descHeight = s.descHeight := rfl
@[simp] theorem State.detachBitReader_descDepth (s : State) :
    (s.detachBitReader).descDepth = s.descDepth := rfl
@[simp] theorem State.detachBitReader_descAlen (s : State) :
    (s.detachBitReader).descAlen = s.descAlen := rfl
@[simp] theorem State.detachBitReader_descRlen (s : State) :
    (s.detachBitReader).descRlen = s.descRlen := rfl
@[simp] theorem State.detachBitReader_descGlen (s : State) :
    (s.detachBitReader).descGlen = s.descGlen := rfl
@[simp] theorem State.detachBitReader_descBlen (s : State) :
    (s.detachBitReader).descBlen = s.descBlen := rfl
@[simp] theorem State.detachBitReader_descFileSize (s : State) :
    (s.detachBitReader).descFileSize = s.descFileSize := rfl
@[simp] theorem State.detachBitReader_hasAlpha (s : State) :
    (s.detachBitReader).hasAlpha = s.hasAlpha := rfl
@[simp] theorem State.detachBitReader_bpp (s : State) :
    (s.detachBitReader).bpp = s.bpp := rfl
@[simp] theorem State.detachBitReader_outFormat (s : State) :
    (s.detachBitReader).outFormat = s.outFormat := rfl
@[simp] theorem State.detachBitReader_planeSize (s : State) :
    (s.detachBitReader).planeSize = s.planeSize := rfl
@[simp] theorem State.detachBitReader_pixSize (s : State) :
    (s.detachBitReader).pixSize = s.pixSize := rfl
@[simp] theorem State.detachBitReader_jobs (s : State) :
    (s.detachBitReader).jobs = s.jobs := rfl
@[simp] theorem State.detachBitReader_jobIdx (s : State) :
    (s.detachBitReader).jobIdx = s.jobIdx := rfl
@[simp] theorem State.detachBitReader_chChan (s : State) :
    (s.detachBitReader).chChan = s.chChan := rfl
@[simp] theorem State.detachBitReader_chFileOff (s : State) :
    (s.detachBitReader).chFileOff = s.chFileOff := rfl
@[simp] theorem State.detachBitReader_chLen (s : State) :
    (s.detachBitReader).chLen = s.chLen := rfl
@[simp] theorem State.detachBitReader_pipeMode (s : State) :
    (s.detachBitReader).pipeMode = s.pipeMode := rfl
@[simp] theorem State.detachBitReader_inSpace (s : State) :
    (s.detachBitReader).inSpace = s.inSpace := rfl
@[simp] theorem State.detachBitReader_inBase (s : State) :
    (s.detachBitReader).inBase = s.inBase := rfl
@[simp] theorem State.detachBitReader_inLimit (s : State) :
    (s.detachBitReader).inLimit = s.inLimit := rfl
@[simp] theorem State.detachBitReader_inPos (s : State) :
    (s.detachBitReader).inPos = s.inPos := rfl
@[simp] theorem State.detachBitReader_brByte (s : State) :
    (s.detachBitReader).brByte = none := rfl
@[simp] theorem State.detachBitReader_brPos (s : State) :
    (s.detachBitReader).brPos = none := rfl
@[simp] theorem State.detachBitReader_hufUnpacked (s : State) :
    (s.detachBitReader).hufUnpacked = s.hufUnpacked := rfl
@[simp] theorem State.detachBitReader_hufNext (s : State) :
    (s.detachBitReader).hufNext = s.hufNext := rfl
@[simp] theorem State.detachBitReader_hufNode (s : State) :
    (s.detachBitReader).hufNode = s.hufNode := rfl
@[simp] theorem State.detachBitReader_hufOutCnt (s : State) :
    (s.detachBitReader).hufOutCnt = s.hufOutCnt := rfl
@[simp] theorem State.detachBitReader_freq (s : State) :
    (s.detachBitReader).freq = s.freq := rfl
@[simp] theorem State.detachBitReader_left (s : State) :
    (s.detachBitReader).left = s.left := rfl
@[simp] theorem State.detachBitReader_right (s : State) :
    (s.detachBitReader).right = s.right := rfl
@[simp] theorem State.detachBitReader_act (s : State) :
    (s.detachBitReader).act = s.act := rfl
@[simp] theorem State.detachBitReader_dictEsc (s : State) :
    (s.detachBitReader).dictEsc = s.dictEsc := rfl
@[simp] theorem State.detachBitReader_dictDst (s : State) :
    (s.detachBitReader).dictDst = s.dictDst := rfl
@[simp] theorem State.detachBitReader_rleSrcSize (s : State) :
    (s.detachBitReader).rleSrcSize = s.rleSrcSize := rfl
@[simp] theorem State.detachBitReader_rleDst (s : State) :
    (s.detachBitReader).rleDst = s.rleDst := rfl
@[simp] theorem State.detachBitReader_scatY (s : State) :
    (s.detachBitReader).scatY = s.scatY := rfl
@[simp] theorem State.detachBitReader_scatX (s : State) :
    (s.detachBitReader).scatX = s.scatX := rfl
@[simp] theorem State.detachBitReader_scatDst (s : State) :
    (s.detachBitReader).scatDst = s.scatDst := rfl
@[simp] theorem State.detachBitReader_src (s : State) :
    (s.detachBitReader).src = s.src := rfl
@[simp] theorem State.detachBitReader_hout (s : State) :
    (s.detachBitReader).hout = s.hout := rfl
@[simp] theorem State.detachBitReader_plane (s : State) :
    (s.detachBitReader).plane = s.plane := rfl
@[simp] theorem State.detachBitReader_pix (s : State) :
    (s.detachBitReader).pix = s.pix := rfl
@[simp] theorem State.detachBitReader_inbox (s : State) :
    (s.detachBitReader).inbox = s.inbox := rfl

/-! ### `State.setBits` -/

@[simp] theorem State.setBits_phase (s : State) (b : BitVec 8) (q : Fin 9) :
    (s.setBits b q).phase = s.phase := rfl
@[simp] theorem State.setBits_statusState (s : State) (b : BitVec 8) (q : Fin 9) :
    (s.setBits b q).statusState = s.statusState := rfl
@[simp] theorem State.setBits_statusFormat (s : State) (b : BitVec 8) (q : Fin 9) :
    (s.setBits b q).statusFormat = s.statusFormat := rfl
@[simp] theorem State.setBits_errCode (s : State) (b : BitVec 8) (q : Fin 9) :
    (s.setBits b q).errCode = s.errCode := rfl
@[simp] theorem State.setBits_errChannel (s : State) (b : BitVec 8) (q : Fin 9) :
    (s.setBits b q).errChannel = s.errChannel := rfl
@[simp] theorem State.setBits_errStage (s : State) (b : BitVec 8) (q : Fin 9) :
    (s.setBits b q).errStage = s.errStage := rfl
@[simp] theorem State.setBits_descVersion (s : State) (b : BitVec 8) (q : Fin 9) :
    (s.setBits b q).descVersion = s.descVersion := rfl
@[simp] theorem State.setBits_descPack (s : State) (b : BitVec 8) (q : Fin 9) :
    (s.setBits b q).descPack = s.descPack := rfl
@[simp] theorem State.setBits_descWidth (s : State) (b : BitVec 8) (q : Fin 9) :
    (s.setBits b q).descWidth = s.descWidth := rfl
@[simp] theorem State.setBits_descHeight (s : State) (b : BitVec 8) (q : Fin 9) :
    (s.setBits b q).descHeight = s.descHeight := rfl
@[simp] theorem State.setBits_descDepth (s : State) (b : BitVec 8) (q : Fin 9) :
    (s.setBits b q).descDepth = s.descDepth := rfl
@[simp] theorem State.setBits_descAlen (s : State) (b : BitVec 8) (q : Fin 9) :
    (s.setBits b q).descAlen = s.descAlen := rfl
@[simp] theorem State.setBits_descRlen (s : State) (b : BitVec 8) (q : Fin 9) :
    (s.setBits b q).descRlen = s.descRlen := rfl
@[simp] theorem State.setBits_descGlen (s : State) (b : BitVec 8) (q : Fin 9) :
    (s.setBits b q).descGlen = s.descGlen := rfl
@[simp] theorem State.setBits_descBlen (s : State) (b : BitVec 8) (q : Fin 9) :
    (s.setBits b q).descBlen = s.descBlen := rfl
@[simp] theorem State.setBits_descFileSize (s : State) (b : BitVec 8) (q : Fin 9) :
    (s.setBits b q).descFileSize = s.descFileSize := rfl
@[simp] theorem State.setBits_hasAlpha (s : State) (b : BitVec 8) (q : Fin 9) :
    (s.setBits b q).hasAlpha = s.hasAlpha := rfl
@[simp] theorem State.setBits_bpp (s : State) (b : BitVec 8) (q : Fin 9) :
    (s.setBits b q).bpp = s.bpp := rfl
@[simp] theorem State.setBits_outFormat (s : State) (b : BitVec 8) (q : Fin 9) :
    (s.setBits b q).outFormat = s.outFormat := rfl
@[simp] theorem State.setBits_planeSize (s : State) (b : BitVec 8) (q : Fin 9) :
    (s.setBits b q).planeSize = s.planeSize := rfl
@[simp] theorem State.setBits_pixSize (s : State) (b : BitVec 8) (q : Fin 9) :
    (s.setBits b q).pixSize = s.pixSize := rfl
@[simp] theorem State.setBits_jobs (s : State) (b : BitVec 8) (q : Fin 9) :
    (s.setBits b q).jobs = s.jobs := rfl
@[simp] theorem State.setBits_jobIdx (s : State) (b : BitVec 8) (q : Fin 9) :
    (s.setBits b q).jobIdx = s.jobIdx := rfl
@[simp] theorem State.setBits_chChan (s : State) (b : BitVec 8) (q : Fin 9) :
    (s.setBits b q).chChan = s.chChan := rfl
@[simp] theorem State.setBits_chFileOff (s : State) (b : BitVec 8) (q : Fin 9) :
    (s.setBits b q).chFileOff = s.chFileOff := rfl
@[simp] theorem State.setBits_chLen (s : State) (b : BitVec 8) (q : Fin 9) :
    (s.setBits b q).chLen = s.chLen := rfl
@[simp] theorem State.setBits_pipeMode (s : State) (b : BitVec 8) (q : Fin 9) :
    (s.setBits b q).pipeMode = s.pipeMode := rfl
@[simp] theorem State.setBits_inSpace (s : State) (b : BitVec 8) (q : Fin 9) :
    (s.setBits b q).inSpace = s.inSpace := rfl
@[simp] theorem State.setBits_inBase (s : State) (b : BitVec 8) (q : Fin 9) :
    (s.setBits b q).inBase = s.inBase := rfl
@[simp] theorem State.setBits_inLimit (s : State) (b : BitVec 8) (q : Fin 9) :
    (s.setBits b q).inLimit = s.inLimit := rfl
@[simp] theorem State.setBits_inPos (s : State) (b : BitVec 8) (q : Fin 9) :
    (s.setBits b q).inPos = s.inPos := rfl
@[simp] theorem State.setBits_brByte (s : State) (b : BitVec 8) (q : Fin 9) :
    (s.setBits b q).brByte = some b := rfl
@[simp] theorem State.setBits_brPos (s : State) (b : BitVec 8) (q : Fin 9) :
    (s.setBits b q).brPos = some q := rfl
@[simp] theorem State.setBits_hufUnpacked (s : State) (b : BitVec 8) (q : Fin 9) :
    (s.setBits b q).hufUnpacked = s.hufUnpacked := rfl
@[simp] theorem State.setBits_hufNext (s : State) (b : BitVec 8) (q : Fin 9) :
    (s.setBits b q).hufNext = s.hufNext := rfl
@[simp] theorem State.setBits_hufNode (s : State) (b : BitVec 8) (q : Fin 9) :
    (s.setBits b q).hufNode = s.hufNode := rfl
@[simp] theorem State.setBits_hufOutCnt (s : State) (b : BitVec 8) (q : Fin 9) :
    (s.setBits b q).hufOutCnt = s.hufOutCnt := rfl
@[simp] theorem State.setBits_freq (s : State) (b : BitVec 8) (q : Fin 9) :
    (s.setBits b q).freq = s.freq := rfl
@[simp] theorem State.setBits_left (s : State) (b : BitVec 8) (q : Fin 9) :
    (s.setBits b q).left = s.left := rfl
@[simp] theorem State.setBits_right (s : State) (b : BitVec 8) (q : Fin 9) :
    (s.setBits b q).right = s.right := rfl
@[simp] theorem State.setBits_act (s : State) (b : BitVec 8) (q : Fin 9) :
    (s.setBits b q).act = s.act := rfl
@[simp] theorem State.setBits_dictEsc (s : State) (b : BitVec 8) (q : Fin 9) :
    (s.setBits b q).dictEsc = s.dictEsc := rfl
@[simp] theorem State.setBits_dictDst (s : State) (b : BitVec 8) (q : Fin 9) :
    (s.setBits b q).dictDst = s.dictDst := rfl
@[simp] theorem State.setBits_rleSrcSize (s : State) (b : BitVec 8) (q : Fin 9) :
    (s.setBits b q).rleSrcSize = s.rleSrcSize := rfl
@[simp] theorem State.setBits_rleDst (s : State) (b : BitVec 8) (q : Fin 9) :
    (s.setBits b q).rleDst = s.rleDst := rfl
@[simp] theorem State.setBits_scatY (s : State) (b : BitVec 8) (q : Fin 9) :
    (s.setBits b q).scatY = s.scatY := rfl
@[simp] theorem State.setBits_scatX (s : State) (b : BitVec 8) (q : Fin 9) :
    (s.setBits b q).scatX = s.scatX := rfl
@[simp] theorem State.setBits_scatDst (s : State) (b : BitVec 8) (q : Fin 9) :
    (s.setBits b q).scatDst = s.scatDst := rfl
@[simp] theorem State.setBits_src (s : State) (b : BitVec 8) (q : Fin 9) :
    (s.setBits b q).src = s.src := rfl
@[simp] theorem State.setBits_hout (s : State) (b : BitVec 8) (q : Fin 9) :
    (s.setBits b q).hout = s.hout := rfl
@[simp] theorem State.setBits_plane (s : State) (b : BitVec 8) (q : Fin 9) :
    (s.setBits b q).plane = s.plane := rfl
@[simp] theorem State.setBits_pix (s : State) (b : BitVec 8) (q : Fin 9) :
    (s.setBits b q).pix = s.pix := rfl
@[simp] theorem State.setBits_inbox (s : State) (b : BitVec 8) (q : Fin 9) :
    (s.setBits b q).inbox = s.inbox := rfl

/-! ### `State.enterRle` -/

@[simp] theorem State.enterRle_phase (s : State) (n : BitVec 32) :
    (s.enterRle n).phase = .rle := rfl
@[simp] theorem State.enterRle_statusState (s : State) (n : BitVec 32) :
    (s.enterRle n).statusState = s.statusState := rfl
@[simp] theorem State.enterRle_statusFormat (s : State) (n : BitVec 32) :
    (s.enterRle n).statusFormat = s.statusFormat := rfl
@[simp] theorem State.enterRle_errCode (s : State) (n : BitVec 32) :
    (s.enterRle n).errCode = s.errCode := rfl
@[simp] theorem State.enterRle_errChannel (s : State) (n : BitVec 32) :
    (s.enterRle n).errChannel = s.errChannel := rfl
@[simp] theorem State.enterRle_errStage (s : State) (n : BitVec 32) :
    (s.enterRle n).errStage = s.errStage := rfl
@[simp] theorem State.enterRle_descVersion (s : State) (n : BitVec 32) :
    (s.enterRle n).descVersion = s.descVersion := rfl
@[simp] theorem State.enterRle_descPack (s : State) (n : BitVec 32) :
    (s.enterRle n).descPack = s.descPack := rfl
@[simp] theorem State.enterRle_descWidth (s : State) (n : BitVec 32) :
    (s.enterRle n).descWidth = s.descWidth := rfl
@[simp] theorem State.enterRle_descHeight (s : State) (n : BitVec 32) :
    (s.enterRle n).descHeight = s.descHeight := rfl
@[simp] theorem State.enterRle_descDepth (s : State) (n : BitVec 32) :
    (s.enterRle n).descDepth = s.descDepth := rfl
@[simp] theorem State.enterRle_descAlen (s : State) (n : BitVec 32) :
    (s.enterRle n).descAlen = s.descAlen := rfl
@[simp] theorem State.enterRle_descRlen (s : State) (n : BitVec 32) :
    (s.enterRle n).descRlen = s.descRlen := rfl
@[simp] theorem State.enterRle_descGlen (s : State) (n : BitVec 32) :
    (s.enterRle n).descGlen = s.descGlen := rfl
@[simp] theorem State.enterRle_descBlen (s : State) (n : BitVec 32) :
    (s.enterRle n).descBlen = s.descBlen := rfl
@[simp] theorem State.enterRle_descFileSize (s : State) (n : BitVec 32) :
    (s.enterRle n).descFileSize = s.descFileSize := rfl
@[simp] theorem State.enterRle_hasAlpha (s : State) (n : BitVec 32) :
    (s.enterRle n).hasAlpha = s.hasAlpha := rfl
@[simp] theorem State.enterRle_bpp (s : State) (n : BitVec 32) :
    (s.enterRle n).bpp = s.bpp := rfl
@[simp] theorem State.enterRle_outFormat (s : State) (n : BitVec 32) :
    (s.enterRle n).outFormat = s.outFormat := rfl
@[simp] theorem State.enterRle_planeSize (s : State) (n : BitVec 32) :
    (s.enterRle n).planeSize = s.planeSize := rfl
@[simp] theorem State.enterRle_pixSize (s : State) (n : BitVec 32) :
    (s.enterRle n).pixSize = s.pixSize := rfl
@[simp] theorem State.enterRle_jobs (s : State) (n : BitVec 32) :
    (s.enterRle n).jobs = s.jobs := rfl
@[simp] theorem State.enterRle_jobIdx (s : State) (n : BitVec 32) :
    (s.enterRle n).jobIdx = s.jobIdx := rfl
@[simp] theorem State.enterRle_chChan (s : State) (n : BitVec 32) :
    (s.enterRle n).chChan = s.chChan := rfl
@[simp] theorem State.enterRle_chFileOff (s : State) (n : BitVec 32) :
    (s.enterRle n).chFileOff = s.chFileOff := rfl
@[simp] theorem State.enterRle_chLen (s : State) (n : BitVec 32) :
    (s.enterRle n).chLen = s.chLen := rfl
@[simp] theorem State.enterRle_pipeMode (s : State) (n : BitVec 32) :
    (s.enterRle n).pipeMode = s.pipeMode := rfl
@[simp] theorem State.enterRle_inSpace (s : State) (n : BitVec 32) :
    (s.enterRle n).inSpace = s.inSpace := rfl
@[simp] theorem State.enterRle_inBase (s : State) (n : BitVec 32) :
    (s.enterRle n).inBase = s.inBase := rfl
@[simp] theorem State.enterRle_inLimit (s : State) (n : BitVec 32) :
    (s.enterRle n).inLimit = s.inLimit := rfl
@[simp] theorem State.enterRle_inPos (s : State) (n : BitVec 32) :
    (s.enterRle n).inPos = s.inPos := rfl
@[simp] theorem State.enterRle_brByte (s : State) (n : BitVec 32) :
    (s.enterRle n).brByte = s.brByte := rfl
@[simp] theorem State.enterRle_brPos (s : State) (n : BitVec 32) :
    (s.enterRle n).brPos = s.brPos := rfl
@[simp] theorem State.enterRle_hufUnpacked (s : State) (n : BitVec 32) :
    (s.enterRle n).hufUnpacked = s.hufUnpacked := rfl
@[simp] theorem State.enterRle_hufNext (s : State) (n : BitVec 32) :
    (s.enterRle n).hufNext = s.hufNext := rfl
@[simp] theorem State.enterRle_hufNode (s : State) (n : BitVec 32) :
    (s.enterRle n).hufNode = s.hufNode := rfl
@[simp] theorem State.enterRle_hufOutCnt (s : State) (n : BitVec 32) :
    (s.enterRle n).hufOutCnt = s.hufOutCnt := rfl
@[simp] theorem State.enterRle_freq (s : State) (n : BitVec 32) :
    (s.enterRle n).freq = s.freq := rfl
@[simp] theorem State.enterRle_left (s : State) (n : BitVec 32) :
    (s.enterRle n).left = s.left := rfl
@[simp] theorem State.enterRle_right (s : State) (n : BitVec 32) :
    (s.enterRle n).right = s.right := rfl
@[simp] theorem State.enterRle_act (s : State) (n : BitVec 32) :
    (s.enterRle n).act = s.act := rfl
@[simp] theorem State.enterRle_dictEsc (s : State) (n : BitVec 32) :
    (s.enterRle n).dictEsc = s.dictEsc := rfl
@[simp] theorem State.enterRle_dictDst (s : State) (n : BitVec 32) :
    (s.enterRle n).dictDst = s.dictDst := rfl
@[simp] theorem State.enterRle_rleSrcSize (s : State) (n : BitVec 32) :
    (s.enterRle n).rleSrcSize = some n := rfl
@[simp] theorem State.enterRle_rleDst (s : State) (n : BitVec 32) :
    (s.enterRle n).rleDst = some 0 := rfl
@[simp] theorem State.enterRle_scatY (s : State) (n : BitVec 32) :
    (s.enterRle n).scatY = s.scatY := rfl
@[simp] theorem State.enterRle_scatX (s : State) (n : BitVec 32) :
    (s.enterRle n).scatX = s.scatX := rfl
@[simp] theorem State.enterRle_scatDst (s : State) (n : BitVec 32) :
    (s.enterRle n).scatDst = s.scatDst := rfl
@[simp] theorem State.enterRle_src (s : State) (n : BitVec 32) :
    (s.enterRle n).src = s.src := rfl
@[simp] theorem State.enterRle_hout (s : State) (n : BitVec 32) :
    (s.enterRle n).hout = s.hout := rfl
@[simp] theorem State.enterRle_plane (s : State) (n : BitVec 32) :
    (s.enterRle n).plane = s.plane := rfl
@[simp] theorem State.enterRle_pix (s : State) (n : BitVec 32) :
    (s.enterRle n).pix = s.pix := rfl
@[simp] theorem State.enterRle_inbox (s : State) (n : BitVec 32) :
    (s.enterRle n).inbox = s.inbox := rfl

/-! ### `State.enterDict` -/

@[simp] theorem State.enterDict_phase (s : State) :
    s.enterDict.phase = .dictHeader := rfl
@[simp] theorem State.enterDict_statusState (s : State) :
    s.enterDict.statusState = s.statusState := rfl
@[simp] theorem State.enterDict_statusFormat (s : State) :
    s.enterDict.statusFormat = s.statusFormat := rfl
@[simp] theorem State.enterDict_errCode (s : State) :
    s.enterDict.errCode = s.errCode := rfl
@[simp] theorem State.enterDict_errChannel (s : State) :
    s.enterDict.errChannel = s.errChannel := rfl
@[simp] theorem State.enterDict_errStage (s : State) :
    s.enterDict.errStage = s.errStage := rfl
@[simp] theorem State.enterDict_descVersion (s : State) :
    s.enterDict.descVersion = s.descVersion := rfl
@[simp] theorem State.enterDict_descPack (s : State) :
    s.enterDict.descPack = s.descPack := rfl
@[simp] theorem State.enterDict_descWidth (s : State) :
    s.enterDict.descWidth = s.descWidth := rfl
@[simp] theorem State.enterDict_descHeight (s : State) :
    s.enterDict.descHeight = s.descHeight := rfl
@[simp] theorem State.enterDict_descDepth (s : State) :
    s.enterDict.descDepth = s.descDepth := rfl
@[simp] theorem State.enterDict_descAlen (s : State) :
    s.enterDict.descAlen = s.descAlen := rfl
@[simp] theorem State.enterDict_descRlen (s : State) :
    s.enterDict.descRlen = s.descRlen := rfl
@[simp] theorem State.enterDict_descGlen (s : State) :
    s.enterDict.descGlen = s.descGlen := rfl
@[simp] theorem State.enterDict_descBlen (s : State) :
    s.enterDict.descBlen = s.descBlen := rfl
@[simp] theorem State.enterDict_descFileSize (s : State) :
    s.enterDict.descFileSize = s.descFileSize := rfl
@[simp] theorem State.enterDict_hasAlpha (s : State) :
    s.enterDict.hasAlpha = s.hasAlpha := rfl
@[simp] theorem State.enterDict_bpp (s : State) :
    s.enterDict.bpp = s.bpp := rfl
@[simp] theorem State.enterDict_outFormat (s : State) :
    s.enterDict.outFormat = s.outFormat := rfl
@[simp] theorem State.enterDict_planeSize (s : State) :
    s.enterDict.planeSize = s.planeSize := rfl
@[simp] theorem State.enterDict_pixSize (s : State) :
    s.enterDict.pixSize = s.pixSize := rfl
@[simp] theorem State.enterDict_jobs (s : State) :
    s.enterDict.jobs = s.jobs := rfl
@[simp] theorem State.enterDict_jobIdx (s : State) :
    s.enterDict.jobIdx = s.jobIdx := rfl
@[simp] theorem State.enterDict_chChan (s : State) :
    s.enterDict.chChan = s.chChan := rfl
@[simp] theorem State.enterDict_chFileOff (s : State) :
    s.enterDict.chFileOff = s.chFileOff := rfl
@[simp] theorem State.enterDict_chLen (s : State) :
    s.enterDict.chLen = s.chLen := rfl
@[simp] theorem State.enterDict_pipeMode (s : State) :
    s.enterDict.pipeMode = s.pipeMode := rfl
@[simp] theorem State.enterDict_inSpace (s : State) :
    s.enterDict.inSpace = s.inSpace := rfl
@[simp] theorem State.enterDict_inBase (s : State) :
    s.enterDict.inBase = s.inBase := rfl
@[simp] theorem State.enterDict_inLimit (s : State) :
    s.enterDict.inLimit = s.inLimit := rfl
@[simp] theorem State.enterDict_inPos (s : State) :
    s.enterDict.inPos = s.inPos := rfl
@[simp] theorem State.enterDict_brByte (s : State) :
    s.enterDict.brByte = s.brByte := rfl
@[simp] theorem State.enterDict_brPos (s : State) :
    s.enterDict.brPos = s.brPos := rfl
@[simp] theorem State.enterDict_hufUnpacked (s : State) :
    s.enterDict.hufUnpacked = s.hufUnpacked := rfl
@[simp] theorem State.enterDict_hufNext (s : State) :
    s.enterDict.hufNext = s.hufNext := rfl
@[simp] theorem State.enterDict_hufNode (s : State) :
    s.enterDict.hufNode = s.hufNode := rfl
@[simp] theorem State.enterDict_hufOutCnt (s : State) :
    s.enterDict.hufOutCnt = s.hufOutCnt := rfl
@[simp] theorem State.enterDict_freq (s : State) :
    s.enterDict.freq = s.freq := rfl
@[simp] theorem State.enterDict_left (s : State) :
    s.enterDict.left = s.left := rfl
@[simp] theorem State.enterDict_right (s : State) :
    s.enterDict.right = s.right := rfl
@[simp] theorem State.enterDict_act (s : State) :
    s.enterDict.act = s.act := rfl
@[simp] theorem State.enterDict_dictEsc (s : State) :
    s.enterDict.dictEsc = none := rfl
@[simp] theorem State.enterDict_dictDst (s : State) :
    s.enterDict.dictDst = none := rfl
@[simp] theorem State.enterDict_rleSrcSize (s : State) :
    s.enterDict.rleSrcSize = s.rleSrcSize := rfl
@[simp] theorem State.enterDict_rleDst (s : State) :
    s.enterDict.rleDst = s.rleDst := rfl
@[simp] theorem State.enterDict_scatY (s : State) :
    s.enterDict.scatY = s.scatY := rfl
@[simp] theorem State.enterDict_scatX (s : State) :
    s.enterDict.scatX = s.scatX := rfl
@[simp] theorem State.enterDict_scatDst (s : State) :
    s.enterDict.scatDst = s.scatDst := rfl
@[simp] theorem State.enterDict_src (s : State) :
    s.enterDict.src = s.src := rfl
@[simp] theorem State.enterDict_hout (s : State) :
    s.enterDict.hout = s.hout := rfl
@[simp] theorem State.enterDict_plane (s : State) :
    s.enterDict.plane = s.plane := rfl
@[simp] theorem State.enterDict_pix (s : State) :
    s.enterDict.pix = s.pix := rfl
@[simp] theorem State.enterDict_inbox (s : State) :
    s.enterDict.inbox = s.inbox := rfl

/-! ### `State.enterHuffman` -/

@[simp] theorem State.enterHuffman_phase (s : State) (m : PipeMode) :
    (s.enterHuffman m).phase = .hufHeader := rfl
@[simp] theorem State.enterHuffman_statusState (s : State) (m : PipeMode) :
    (s.enterHuffman m).statusState = s.statusState := rfl
@[simp] theorem State.enterHuffman_statusFormat (s : State) (m : PipeMode) :
    (s.enterHuffman m).statusFormat = s.statusFormat := rfl
@[simp] theorem State.enterHuffman_errCode (s : State) (m : PipeMode) :
    (s.enterHuffman m).errCode = s.errCode := rfl
@[simp] theorem State.enterHuffman_errChannel (s : State) (m : PipeMode) :
    (s.enterHuffman m).errChannel = s.errChannel := rfl
@[simp] theorem State.enterHuffman_errStage (s : State) (m : PipeMode) :
    (s.enterHuffman m).errStage = s.errStage := rfl
@[simp] theorem State.enterHuffman_descVersion (s : State) (m : PipeMode) :
    (s.enterHuffman m).descVersion = s.descVersion := rfl
@[simp] theorem State.enterHuffman_descPack (s : State) (m : PipeMode) :
    (s.enterHuffman m).descPack = s.descPack := rfl
@[simp] theorem State.enterHuffman_descWidth (s : State) (m : PipeMode) :
    (s.enterHuffman m).descWidth = s.descWidth := rfl
@[simp] theorem State.enterHuffman_descHeight (s : State) (m : PipeMode) :
    (s.enterHuffman m).descHeight = s.descHeight := rfl
@[simp] theorem State.enterHuffman_descDepth (s : State) (m : PipeMode) :
    (s.enterHuffman m).descDepth = s.descDepth := rfl
@[simp] theorem State.enterHuffman_descAlen (s : State) (m : PipeMode) :
    (s.enterHuffman m).descAlen = s.descAlen := rfl
@[simp] theorem State.enterHuffman_descRlen (s : State) (m : PipeMode) :
    (s.enterHuffman m).descRlen = s.descRlen := rfl
@[simp] theorem State.enterHuffman_descGlen (s : State) (m : PipeMode) :
    (s.enterHuffman m).descGlen = s.descGlen := rfl
@[simp] theorem State.enterHuffman_descBlen (s : State) (m : PipeMode) :
    (s.enterHuffman m).descBlen = s.descBlen := rfl
@[simp] theorem State.enterHuffman_descFileSize (s : State) (m : PipeMode) :
    (s.enterHuffman m).descFileSize = s.descFileSize := rfl
@[simp] theorem State.enterHuffman_hasAlpha (s : State) (m : PipeMode) :
    (s.enterHuffman m).hasAlpha = s.hasAlpha := rfl
@[simp] theorem State.enterHuffman_bpp (s : State) (m : PipeMode) :
    (s.enterHuffman m).bpp = s.bpp := rfl
@[simp] theorem State.enterHuffman_outFormat (s : State) (m : PipeMode) :
    (s.enterHuffman m).outFormat = s.outFormat := rfl
@[simp] theorem State.enterHuffman_planeSize (s : State) (m : PipeMode) :
    (s.enterHuffman m).planeSize = s.planeSize := rfl
@[simp] theorem State.enterHuffman_pixSize (s : State) (m : PipeMode) :
    (s.enterHuffman m).pixSize = s.pixSize := rfl
@[simp] theorem State.enterHuffman_jobs (s : State) (m : PipeMode) :
    (s.enterHuffman m).jobs = s.jobs := rfl
@[simp] theorem State.enterHuffman_jobIdx (s : State) (m : PipeMode) :
    (s.enterHuffman m).jobIdx = s.jobIdx := rfl
@[simp] theorem State.enterHuffman_chChan (s : State) (m : PipeMode) :
    (s.enterHuffman m).chChan = s.chChan := rfl
@[simp] theorem State.enterHuffman_chFileOff (s : State) (m : PipeMode) :
    (s.enterHuffman m).chFileOff = s.chFileOff := rfl
@[simp] theorem State.enterHuffman_chLen (s : State) (m : PipeMode) :
    (s.enterHuffman m).chLen = s.chLen := rfl
@[simp] theorem State.enterHuffman_pipeMode (s : State) (m : PipeMode) :
    (s.enterHuffman m).pipeMode = some m := rfl
@[simp] theorem State.enterHuffman_inSpace (s : State) (m : PipeMode) :
    (s.enterHuffman m).inSpace = s.inSpace := rfl
@[simp] theorem State.enterHuffman_inBase (s : State) (m : PipeMode) :
    (s.enterHuffman m).inBase = s.inBase := rfl
@[simp] theorem State.enterHuffman_inLimit (s : State) (m : PipeMode) :
    (s.enterHuffman m).inLimit = s.inLimit := rfl
@[simp] theorem State.enterHuffman_inPos (s : State) (m : PipeMode) :
    (s.enterHuffman m).inPos = s.inPos := rfl
@[simp] theorem State.enterHuffman_brByte (s : State) (m : PipeMode) :
    (s.enterHuffman m).brByte = s.brByte := rfl
@[simp] theorem State.enterHuffman_brPos (s : State) (m : PipeMode) :
    (s.enterHuffman m).brPos = s.brPos := rfl
@[simp] theorem State.enterHuffman_hufUnpacked (s : State) (m : PipeMode) :
    (s.enterHuffman m).hufUnpacked = none := rfl
@[simp] theorem State.enterHuffman_hufNext (s : State) (m : PipeMode) :
    (s.enterHuffman m).hufNext = none := rfl
@[simp] theorem State.enterHuffman_hufNode (s : State) (m : PipeMode) :
    (s.enterHuffman m).hufNode = none := rfl
@[simp] theorem State.enterHuffman_hufOutCnt (s : State) (m : PipeMode) :
    (s.enterHuffman m).hufOutCnt = none := rfl
@[simp] theorem State.enterHuffman_freq (s : State) (m : PipeMode) :
    (s.enterHuffman m).freq = [] := rfl
@[simp] theorem State.enterHuffman_left (s : State) (m : PipeMode) :
    (s.enterHuffman m).left = [] := rfl
@[simp] theorem State.enterHuffman_right (s : State) (m : PipeMode) :
    (s.enterHuffman m).right = [] := rfl
@[simp] theorem State.enterHuffman_act (s : State) (m : PipeMode) :
    (s.enterHuffman m).act = some [] := rfl
@[simp] theorem State.enterHuffman_dictEsc (s : State) (m : PipeMode) :
    (s.enterHuffman m).dictEsc = s.dictEsc := rfl
@[simp] theorem State.enterHuffman_dictDst (s : State) (m : PipeMode) :
    (s.enterHuffman m).dictDst = s.dictDst := rfl
@[simp] theorem State.enterHuffman_rleSrcSize (s : State) (m : PipeMode) :
    (s.enterHuffman m).rleSrcSize = s.rleSrcSize := rfl
@[simp] theorem State.enterHuffman_rleDst (s : State) (m : PipeMode) :
    (s.enterHuffman m).rleDst = s.rleDst := rfl
@[simp] theorem State.enterHuffman_scatY (s : State) (m : PipeMode) :
    (s.enterHuffman m).scatY = s.scatY := rfl
@[simp] theorem State.enterHuffman_scatX (s : State) (m : PipeMode) :
    (s.enterHuffman m).scatX = s.scatX := rfl
@[simp] theorem State.enterHuffman_scatDst (s : State) (m : PipeMode) :
    (s.enterHuffman m).scatDst = s.scatDst := rfl
@[simp] theorem State.enterHuffman_src (s : State) (m : PipeMode) :
    (s.enterHuffman m).src = s.src := rfl
@[simp] theorem State.enterHuffman_hout (s : State) (m : PipeMode) :
    (s.enterHuffman m).hout = [] := rfl
@[simp] theorem State.enterHuffman_plane (s : State) (m : PipeMode) :
    (s.enterHuffman m).plane = s.plane := rfl
@[simp] theorem State.enterHuffman_pix (s : State) (m : PipeMode) :
    (s.enterHuffman m).pix = s.pix := rfl
@[simp] theorem State.enterHuffman_inbox (s : State) (m : PipeMode) :
    (s.enterHuffman m).inbox = s.inbox := rfl

/-! ### `State.channelFor` -/

@[simp] theorem State.channelFor_phase (s : State) (j : Job) :
    (s.channelFor j).phase = s.phase := rfl
@[simp] theorem State.channelFor_statusState (s : State) (j : Job) :
    (s.channelFor j).statusState = s.statusState := rfl
@[simp] theorem State.channelFor_statusFormat (s : State) (j : Job) :
    (s.channelFor j).statusFormat = s.statusFormat := rfl
@[simp] theorem State.channelFor_errCode (s : State) (j : Job) :
    (s.channelFor j).errCode = s.errCode := rfl
@[simp] theorem State.channelFor_errChannel (s : State) (j : Job) :
    (s.channelFor j).errChannel = s.errChannel := rfl
@[simp] theorem State.channelFor_errStage (s : State) (j : Job) :
    (s.channelFor j).errStage = s.errStage := rfl
@[simp] theorem State.channelFor_descVersion (s : State) (j : Job) :
    (s.channelFor j).descVersion = s.descVersion := rfl
@[simp] theorem State.channelFor_descPack (s : State) (j : Job) :
    (s.channelFor j).descPack = s.descPack := rfl
@[simp] theorem State.channelFor_descWidth (s : State) (j : Job) :
    (s.channelFor j).descWidth = s.descWidth := rfl
@[simp] theorem State.channelFor_descHeight (s : State) (j : Job) :
    (s.channelFor j).descHeight = s.descHeight := rfl
@[simp] theorem State.channelFor_descDepth (s : State) (j : Job) :
    (s.channelFor j).descDepth = s.descDepth := rfl
@[simp] theorem State.channelFor_descAlen (s : State) (j : Job) :
    (s.channelFor j).descAlen = s.descAlen := rfl
@[simp] theorem State.channelFor_descRlen (s : State) (j : Job) :
    (s.channelFor j).descRlen = s.descRlen := rfl
@[simp] theorem State.channelFor_descGlen (s : State) (j : Job) :
    (s.channelFor j).descGlen = s.descGlen := rfl
@[simp] theorem State.channelFor_descBlen (s : State) (j : Job) :
    (s.channelFor j).descBlen = s.descBlen := rfl
@[simp] theorem State.channelFor_descFileSize (s : State) (j : Job) :
    (s.channelFor j).descFileSize = s.descFileSize := rfl
@[simp] theorem State.channelFor_hasAlpha (s : State) (j : Job) :
    (s.channelFor j).hasAlpha = s.hasAlpha := rfl
@[simp] theorem State.channelFor_bpp (s : State) (j : Job) :
    (s.channelFor j).bpp = s.bpp := rfl
@[simp] theorem State.channelFor_outFormat (s : State) (j : Job) :
    (s.channelFor j).outFormat = s.outFormat := rfl
@[simp] theorem State.channelFor_planeSize (s : State) (j : Job) :
    (s.channelFor j).planeSize = s.planeSize := rfl
@[simp] theorem State.channelFor_pixSize (s : State) (j : Job) :
    (s.channelFor j).pixSize = s.pixSize := rfl
@[simp] theorem State.channelFor_jobs (s : State) (j : Job) :
    (s.channelFor j).jobs = s.jobs := rfl
@[simp] theorem State.channelFor_jobIdx (s : State) (j : Job) :
    (s.channelFor j).jobIdx = s.jobIdx := rfl
@[simp] theorem State.channelFor_chChan (s : State) (j : Job) :
    (s.channelFor j).chChan = some j.chan := rfl
@[simp] theorem State.channelFor_chFileOff (s : State) (j : Job) :
    (s.channelFor j).chFileOff = some j.fileOff := rfl
@[simp] theorem State.channelFor_chLen (s : State) (j : Job) :
    (s.channelFor j).chLen = some j.len := rfl
@[simp] theorem State.channelFor_pipeMode (s : State) (j : Job) :
    (s.channelFor j).pipeMode = s.pipeMode := rfl
@[simp] theorem State.channelFor_inSpace (s : State) (j : Job) :
    (s.channelFor j).inSpace = some .src := rfl
@[simp] theorem State.channelFor_inBase (s : State) (j : Job) :
    (s.channelFor j).inBase = some j.fileOff := rfl
@[simp] theorem State.channelFor_inLimit (s : State) (j : Job) :
    (s.channelFor j).inLimit = some (j.fileOff + j.len.setWidth 33) := rfl
@[simp] theorem State.channelFor_inPos (s : State) (j : Job) :
    (s.channelFor j).inPos = some j.fileOff := rfl
@[simp] theorem State.channelFor_brByte (s : State) (j : Job) :
    (s.channelFor j).brByte = s.brByte := rfl
@[simp] theorem State.channelFor_brPos (s : State) (j : Job) :
    (s.channelFor j).brPos = s.brPos := rfl
@[simp] theorem State.channelFor_hufUnpacked (s : State) (j : Job) :
    (s.channelFor j).hufUnpacked = s.hufUnpacked := rfl
@[simp] theorem State.channelFor_hufNext (s : State) (j : Job) :
    (s.channelFor j).hufNext = s.hufNext := rfl
@[simp] theorem State.channelFor_hufNode (s : State) (j : Job) :
    (s.channelFor j).hufNode = s.hufNode := rfl
@[simp] theorem State.channelFor_hufOutCnt (s : State) (j : Job) :
    (s.channelFor j).hufOutCnt = s.hufOutCnt := rfl
@[simp] theorem State.channelFor_freq (s : State) (j : Job) :
    (s.channelFor j).freq = s.freq := rfl
@[simp] theorem State.channelFor_left (s : State) (j : Job) :
    (s.channelFor j).left = s.left := rfl
@[simp] theorem State.channelFor_right (s : State) (j : Job) :
    (s.channelFor j).right = s.right := rfl
@[simp] theorem State.channelFor_act (s : State) (j : Job) :
    (s.channelFor j).act = s.act := rfl
@[simp] theorem State.channelFor_dictEsc (s : State) (j : Job) :
    (s.channelFor j).dictEsc = s.dictEsc := rfl
@[simp] theorem State.channelFor_dictDst (s : State) (j : Job) :
    (s.channelFor j).dictDst = s.dictDst := rfl
@[simp] theorem State.channelFor_rleSrcSize (s : State) (j : Job) :
    (s.channelFor j).rleSrcSize = s.rleSrcSize := rfl
@[simp] theorem State.channelFor_rleDst (s : State) (j : Job) :
    (s.channelFor j).rleDst = s.rleDst := rfl
@[simp] theorem State.channelFor_scatY (s : State) (j : Job) :
    (s.channelFor j).scatY = s.scatY := rfl
@[simp] theorem State.channelFor_scatX (s : State) (j : Job) :
    (s.channelFor j).scatX = s.scatX := rfl
@[simp] theorem State.channelFor_scatDst (s : State) (j : Job) :
    (s.channelFor j).scatDst = s.scatDst := rfl
@[simp] theorem State.channelFor_src (s : State) (j : Job) :
    (s.channelFor j).src = s.src := rfl
@[simp] theorem State.channelFor_hout (s : State) (j : Job) :
    (s.channelFor j).hout = s.hout := rfl
@[simp] theorem State.channelFor_plane (s : State) (j : Job) :
    (s.channelFor j).plane = [] := rfl
@[simp] theorem State.channelFor_pix (s : State) (j : Job) :
    (s.channelFor j).pix = s.pix := rfl
@[simp] theorem State.channelFor_inbox (s : State) (j : Job) :
    (s.channelFor j).inbox = s.inbox := rfl

/-! ### `State.faultEntry` -/

@[simp] theorem State.faultEntry_phase (s : State) (e : ErrKind) (st : Stage) (c : BitVec 2) :
    (s.faultEntry e st c).phase = .error := rfl
@[simp] theorem State.faultEntry_statusState (s : State) (e : ErrKind) (st : Stage) (c : BitVec 2) :
    (s.faultEntry e st c).statusState = .error := rfl
@[simp] theorem State.faultEntry_statusFormat (s : State) (e : ErrKind) (st : Stage) (c : BitVec 2) :
    (s.faultEntry e st c).statusFormat = s.statusFormat := rfl
@[simp] theorem State.faultEntry_errCode (s : State) (e : ErrKind) (st : Stage) (c : BitVec 2) :
    (s.faultEntry e st c).errCode = errKindCode e := rfl
@[simp] theorem State.faultEntry_errChannel (s : State) (e : ErrKind) (st : Stage) (c : BitVec 2) :
    (s.faultEntry e st c).errChannel = c := rfl
@[simp] theorem State.faultEntry_errStage (s : State) (e : ErrKind) (st : Stage) (c : BitVec 2) :
    (s.faultEntry e st c).errStage = stageCode st := rfl
@[simp] theorem State.faultEntry_descVersion (s : State) (e : ErrKind) (st : Stage) (c : BitVec 2) :
    (s.faultEntry e st c).descVersion = s.descVersion := rfl
@[simp] theorem State.faultEntry_descPack (s : State) (e : ErrKind) (st : Stage) (c : BitVec 2) :
    (s.faultEntry e st c).descPack = s.descPack := rfl
@[simp] theorem State.faultEntry_descWidth (s : State) (e : ErrKind) (st : Stage) (c : BitVec 2) :
    (s.faultEntry e st c).descWidth = s.descWidth := rfl
@[simp] theorem State.faultEntry_descHeight (s : State) (e : ErrKind) (st : Stage) (c : BitVec 2) :
    (s.faultEntry e st c).descHeight = s.descHeight := rfl
@[simp] theorem State.faultEntry_descDepth (s : State) (e : ErrKind) (st : Stage) (c : BitVec 2) :
    (s.faultEntry e st c).descDepth = s.descDepth := rfl
@[simp] theorem State.faultEntry_descAlen (s : State) (e : ErrKind) (st : Stage) (c : BitVec 2) :
    (s.faultEntry e st c).descAlen = s.descAlen := rfl
@[simp] theorem State.faultEntry_descRlen (s : State) (e : ErrKind) (st : Stage) (c : BitVec 2) :
    (s.faultEntry e st c).descRlen = s.descRlen := rfl
@[simp] theorem State.faultEntry_descGlen (s : State) (e : ErrKind) (st : Stage) (c : BitVec 2) :
    (s.faultEntry e st c).descGlen = s.descGlen := rfl
@[simp] theorem State.faultEntry_descBlen (s : State) (e : ErrKind) (st : Stage) (c : BitVec 2) :
    (s.faultEntry e st c).descBlen = s.descBlen := rfl
@[simp] theorem State.faultEntry_descFileSize (s : State) (e : ErrKind) (st : Stage) (c : BitVec 2) :
    (s.faultEntry e st c).descFileSize = s.descFileSize := rfl
@[simp] theorem State.faultEntry_hasAlpha (s : State) (e : ErrKind) (st : Stage) (c : BitVec 2) :
    (s.faultEntry e st c).hasAlpha = s.hasAlpha := rfl
@[simp] theorem State.faultEntry_bpp (s : State) (e : ErrKind) (st : Stage) (c : BitVec 2) :
    (s.faultEntry e st c).bpp = s.bpp := rfl
@[simp] theorem State.faultEntry_outFormat (s : State) (e : ErrKind) (st : Stage) (c : BitVec 2) :
    (s.faultEntry e st c).outFormat = s.outFormat := rfl
@[simp] theorem State.faultEntry_planeSize (s : State) (e : ErrKind) (st : Stage) (c : BitVec 2) :
    (s.faultEntry e st c).planeSize = s.planeSize := rfl
@[simp] theorem State.faultEntry_pixSize (s : State) (e : ErrKind) (st : Stage) (c : BitVec 2) :
    (s.faultEntry e st c).pixSize = s.pixSize := rfl
@[simp] theorem State.faultEntry_jobs (s : State) (e : ErrKind) (st : Stage) (c : BitVec 2) :
    (s.faultEntry e st c).jobs = s.jobs := rfl
@[simp] theorem State.faultEntry_jobIdx (s : State) (e : ErrKind) (st : Stage) (c : BitVec 2) :
    (s.faultEntry e st c).jobIdx = none := rfl
@[simp] theorem State.faultEntry_chChan (s : State) (e : ErrKind) (st : Stage) (c : BitVec 2) :
    (s.faultEntry e st c).chChan = none := rfl
@[simp] theorem State.faultEntry_chFileOff (s : State) (e : ErrKind) (st : Stage) (c : BitVec 2) :
    (s.faultEntry e st c).chFileOff = none := rfl
@[simp] theorem State.faultEntry_chLen (s : State) (e : ErrKind) (st : Stage) (c : BitVec 2) :
    (s.faultEntry e st c).chLen = none := rfl
@[simp] theorem State.faultEntry_pipeMode (s : State) (e : ErrKind) (st : Stage) (c : BitVec 2) :
    (s.faultEntry e st c).pipeMode = none := rfl
@[simp] theorem State.faultEntry_inSpace (s : State) (e : ErrKind) (st : Stage) (c : BitVec 2) :
    (s.faultEntry e st c).inSpace = none := rfl
@[simp] theorem State.faultEntry_inBase (s : State) (e : ErrKind) (st : Stage) (c : BitVec 2) :
    (s.faultEntry e st c).inBase = none := rfl
@[simp] theorem State.faultEntry_inLimit (s : State) (e : ErrKind) (st : Stage) (c : BitVec 2) :
    (s.faultEntry e st c).inLimit = none := rfl
@[simp] theorem State.faultEntry_inPos (s : State) (e : ErrKind) (st : Stage) (c : BitVec 2) :
    (s.faultEntry e st c).inPos = none := rfl
@[simp] theorem State.faultEntry_brByte (s : State) (e : ErrKind) (st : Stage) (c : BitVec 2) :
    (s.faultEntry e st c).brByte = none := rfl
@[simp] theorem State.faultEntry_brPos (s : State) (e : ErrKind) (st : Stage) (c : BitVec 2) :
    (s.faultEntry e st c).brPos = none := rfl
@[simp] theorem State.faultEntry_hufUnpacked (s : State) (e : ErrKind) (st : Stage) (c : BitVec 2) :
    (s.faultEntry e st c).hufUnpacked = none := rfl
@[simp] theorem State.faultEntry_hufNext (s : State) (e : ErrKind) (st : Stage) (c : BitVec 2) :
    (s.faultEntry e st c).hufNext = none := rfl
@[simp] theorem State.faultEntry_hufNode (s : State) (e : ErrKind) (st : Stage) (c : BitVec 2) :
    (s.faultEntry e st c).hufNode = none := rfl
@[simp] theorem State.faultEntry_hufOutCnt (s : State) (e : ErrKind) (st : Stage) (c : BitVec 2) :
    (s.faultEntry e st c).hufOutCnt = none := rfl
@[simp] theorem State.faultEntry_freq (s : State) (e : ErrKind) (st : Stage) (c : BitVec 2) :
    (s.faultEntry e st c).freq = [] := rfl
@[simp] theorem State.faultEntry_left (s : State) (e : ErrKind) (st : Stage) (c : BitVec 2) :
    (s.faultEntry e st c).left = [] := rfl
@[simp] theorem State.faultEntry_right (s : State) (e : ErrKind) (st : Stage) (c : BitVec 2) :
    (s.faultEntry e st c).right = [] := rfl
@[simp] theorem State.faultEntry_act (s : State) (e : ErrKind) (st : Stage) (c : BitVec 2) :
    (s.faultEntry e st c).act = none := rfl
@[simp] theorem State.faultEntry_dictEsc (s : State) (e : ErrKind) (st : Stage) (c : BitVec 2) :
    (s.faultEntry e st c).dictEsc = none := rfl
@[simp] theorem State.faultEntry_dictDst (s : State) (e : ErrKind) (st : Stage) (c : BitVec 2) :
    (s.faultEntry e st c).dictDst = none := rfl
@[simp] theorem State.faultEntry_rleSrcSize (s : State) (e : ErrKind) (st : Stage) (c : BitVec 2) :
    (s.faultEntry e st c).rleSrcSize = none := rfl
@[simp] theorem State.faultEntry_rleDst (s : State) (e : ErrKind) (st : Stage) (c : BitVec 2) :
    (s.faultEntry e st c).rleDst = none := rfl
@[simp] theorem State.faultEntry_scatY (s : State) (e : ErrKind) (st : Stage) (c : BitVec 2) :
    (s.faultEntry e st c).scatY = none := rfl
@[simp] theorem State.faultEntry_scatX (s : State) (e : ErrKind) (st : Stage) (c : BitVec 2) :
    (s.faultEntry e st c).scatX = none := rfl
@[simp] theorem State.faultEntry_scatDst (s : State) (e : ErrKind) (st : Stage) (c : BitVec 2) :
    (s.faultEntry e st c).scatDst = none := rfl
@[simp] theorem State.faultEntry_src (s : State) (e : ErrKind) (st : Stage) (c : BitVec 2) :
    (s.faultEntry e st c).src = s.src := rfl
@[simp] theorem State.faultEntry_hout (s : State) (e : ErrKind) (st : Stage) (c : BitVec 2) :
    (s.faultEntry e st c).hout = [] := rfl
@[simp] theorem State.faultEntry_plane (s : State) (e : ErrKind) (st : Stage) (c : BitVec 2) :
    (s.faultEntry e st c).plane = [] := rfl
@[simp] theorem State.faultEntry_pix (s : State) (e : ErrKind) (st : Stage) (c : BitVec 2) :
    (s.faultEntry e st c).pix = [] := rfl
@[simp] theorem State.faultEntry_inbox (s : State) (e : ErrKind) (st : Stage) (c : BitVec 2) :
    (s.faultEntry e st c).inbox = s.inbox := rfl

/-! ### `State.loaded` -/

@[simp] theorem State.loaded_phase (s : State) (d : Descriptor) (image : List (BitVec 8)) :
    (s.loaded d image).phase = s.phase := rfl
@[simp] theorem State.loaded_statusState (s : State) (d : Descriptor) (image : List (BitVec 8)) :
    (s.loaded d image).statusState = s.statusState := rfl
@[simp] theorem State.loaded_statusFormat (s : State) (d : Descriptor) (image : List (BitVec 8)) :
    (s.loaded d image).statusFormat = s.statusFormat := rfl
@[simp] theorem State.loaded_errCode (s : State) (d : Descriptor) (image : List (BitVec 8)) :
    (s.loaded d image).errCode = s.errCode := rfl
@[simp] theorem State.loaded_errChannel (s : State) (d : Descriptor) (image : List (BitVec 8)) :
    (s.loaded d image).errChannel = s.errChannel := rfl
@[simp] theorem State.loaded_errStage (s : State) (d : Descriptor) (image : List (BitVec 8)) :
    (s.loaded d image).errStage = s.errStage := rfl
@[simp] theorem State.loaded_descVersion (s : State) (d : Descriptor) (image : List (BitVec 8)) :
    (s.loaded d image).descVersion = some d.version := rfl
@[simp] theorem State.loaded_descPack (s : State) (d : Descriptor) (image : List (BitVec 8)) :
    (s.loaded d image).descPack = some d.pack := rfl
@[simp] theorem State.loaded_descWidth (s : State) (d : Descriptor) (image : List (BitVec 8)) :
    (s.loaded d image).descWidth = some d.width := rfl
@[simp] theorem State.loaded_descHeight (s : State) (d : Descriptor) (image : List (BitVec 8)) :
    (s.loaded d image).descHeight = some d.height := rfl
@[simp] theorem State.loaded_descDepth (s : State) (d : Descriptor) (image : List (BitVec 8)) :
    (s.loaded d image).descDepth = some d.depth := rfl
@[simp] theorem State.loaded_descAlen (s : State) (d : Descriptor) (image : List (BitVec 8)) :
    (s.loaded d image).descAlen = some d.alen := rfl
@[simp] theorem State.loaded_descRlen (s : State) (d : Descriptor) (image : List (BitVec 8)) :
    (s.loaded d image).descRlen = some d.rlen := rfl
@[simp] theorem State.loaded_descGlen (s : State) (d : Descriptor) (image : List (BitVec 8)) :
    (s.loaded d image).descGlen = some d.glen := rfl
@[simp] theorem State.loaded_descBlen (s : State) (d : Descriptor) (image : List (BitVec 8)) :
    (s.loaded d image).descBlen = some d.blen := rfl
@[simp] theorem State.loaded_descFileSize (s : State) (d : Descriptor) (image : List (BitVec 8)) :
    (s.loaded d image).descFileSize = some d.fileSize := rfl
@[simp] theorem State.loaded_hasAlpha (s : State) (d : Descriptor) (image : List (BitVec 8)) :
    (s.loaded d image).hasAlpha = s.hasAlpha := rfl
@[simp] theorem State.loaded_bpp (s : State) (d : Descriptor) (image : List (BitVec 8)) :
    (s.loaded d image).bpp = s.bpp := rfl
@[simp] theorem State.loaded_outFormat (s : State) (d : Descriptor) (image : List (BitVec 8)) :
    (s.loaded d image).outFormat = s.outFormat := rfl
@[simp] theorem State.loaded_planeSize (s : State) (d : Descriptor) (image : List (BitVec 8)) :
    (s.loaded d image).planeSize = s.planeSize := rfl
@[simp] theorem State.loaded_pixSize (s : State) (d : Descriptor) (image : List (BitVec 8)) :
    (s.loaded d image).pixSize = s.pixSize := rfl
@[simp] theorem State.loaded_jobs (s : State) (d : Descriptor) (image : List (BitVec 8)) :
    (s.loaded d image).jobs = s.jobs := rfl
@[simp] theorem State.loaded_jobIdx (s : State) (d : Descriptor) (image : List (BitVec 8)) :
    (s.loaded d image).jobIdx = s.jobIdx := rfl
@[simp] theorem State.loaded_chChan (s : State) (d : Descriptor) (image : List (BitVec 8)) :
    (s.loaded d image).chChan = s.chChan := rfl
@[simp] theorem State.loaded_chFileOff (s : State) (d : Descriptor) (image : List (BitVec 8)) :
    (s.loaded d image).chFileOff = s.chFileOff := rfl
@[simp] theorem State.loaded_chLen (s : State) (d : Descriptor) (image : List (BitVec 8)) :
    (s.loaded d image).chLen = s.chLen := rfl
@[simp] theorem State.loaded_pipeMode (s : State) (d : Descriptor) (image : List (BitVec 8)) :
    (s.loaded d image).pipeMode = s.pipeMode := rfl
@[simp] theorem State.loaded_inSpace (s : State) (d : Descriptor) (image : List (BitVec 8)) :
    (s.loaded d image).inSpace = s.inSpace := rfl
@[simp] theorem State.loaded_inBase (s : State) (d : Descriptor) (image : List (BitVec 8)) :
    (s.loaded d image).inBase = s.inBase := rfl
@[simp] theorem State.loaded_inLimit (s : State) (d : Descriptor) (image : List (BitVec 8)) :
    (s.loaded d image).inLimit = s.inLimit := rfl
@[simp] theorem State.loaded_inPos (s : State) (d : Descriptor) (image : List (BitVec 8)) :
    (s.loaded d image).inPos = s.inPos := rfl
@[simp] theorem State.loaded_brByte (s : State) (d : Descriptor) (image : List (BitVec 8)) :
    (s.loaded d image).brByte = s.brByte := rfl
@[simp] theorem State.loaded_brPos (s : State) (d : Descriptor) (image : List (BitVec 8)) :
    (s.loaded d image).brPos = s.brPos := rfl
@[simp] theorem State.loaded_hufUnpacked (s : State) (d : Descriptor) (image : List (BitVec 8)) :
    (s.loaded d image).hufUnpacked = s.hufUnpacked := rfl
@[simp] theorem State.loaded_hufNext (s : State) (d : Descriptor) (image : List (BitVec 8)) :
    (s.loaded d image).hufNext = s.hufNext := rfl
@[simp] theorem State.loaded_hufNode (s : State) (d : Descriptor) (image : List (BitVec 8)) :
    (s.loaded d image).hufNode = s.hufNode := rfl
@[simp] theorem State.loaded_hufOutCnt (s : State) (d : Descriptor) (image : List (BitVec 8)) :
    (s.loaded d image).hufOutCnt = s.hufOutCnt := rfl
@[simp] theorem State.loaded_freq (s : State) (d : Descriptor) (image : List (BitVec 8)) :
    (s.loaded d image).freq = s.freq := rfl
@[simp] theorem State.loaded_left (s : State) (d : Descriptor) (image : List (BitVec 8)) :
    (s.loaded d image).left = s.left := rfl
@[simp] theorem State.loaded_right (s : State) (d : Descriptor) (image : List (BitVec 8)) :
    (s.loaded d image).right = s.right := rfl
@[simp] theorem State.loaded_act (s : State) (d : Descriptor) (image : List (BitVec 8)) :
    (s.loaded d image).act = s.act := rfl
@[simp] theorem State.loaded_dictEsc (s : State) (d : Descriptor) (image : List (BitVec 8)) :
    (s.loaded d image).dictEsc = s.dictEsc := rfl
@[simp] theorem State.loaded_dictDst (s : State) (d : Descriptor) (image : List (BitVec 8)) :
    (s.loaded d image).dictDst = s.dictDst := rfl
@[simp] theorem State.loaded_rleSrcSize (s : State) (d : Descriptor) (image : List (BitVec 8)) :
    (s.loaded d image).rleSrcSize = s.rleSrcSize := rfl
@[simp] theorem State.loaded_rleDst (s : State) (d : Descriptor) (image : List (BitVec 8)) :
    (s.loaded d image).rleDst = s.rleDst := rfl
@[simp] theorem State.loaded_scatY (s : State) (d : Descriptor) (image : List (BitVec 8)) :
    (s.loaded d image).scatY = s.scatY := rfl
@[simp] theorem State.loaded_scatX (s : State) (d : Descriptor) (image : List (BitVec 8)) :
    (s.loaded d image).scatX = s.scatX := rfl
@[simp] theorem State.loaded_scatDst (s : State) (d : Descriptor) (image : List (BitVec 8)) :
    (s.loaded d image).scatDst = s.scatDst := rfl
@[simp] theorem State.loaded_src (s : State) (d : Descriptor) (image : List (BitVec 8)) :
    (s.loaded d image).src = Memory.ofBytes 0 image := rfl
@[simp] theorem State.loaded_hout (s : State) (d : Descriptor) (image : List (BitVec 8)) :
    (s.loaded d image).hout = s.hout := rfl
@[simp] theorem State.loaded_plane (s : State) (d : Descriptor) (image : List (BitVec 8)) :
    (s.loaded d image).plane = s.plane := rfl
@[simp] theorem State.loaded_pix (s : State) (d : Descriptor) (image : List (BitVec 8)) :
    (s.loaded d image).pix = s.pix := rfl
@[simp] theorem State.loaded_inbox (s : State) (d : Descriptor) (image : List (BitVec 8)) :
    (s.loaded d image).inbox = s.inbox := rfl

end Sys2Proof.Machine
end

