-- ==== Sys2Proof/Laws/Ops.lean ====
section
/-! SUPPORT. What each shared operation can do, said once: how it goes on, and what follows when it answers a next state. -/

namespace Sys2Proof.Machine

section Reading
variable {α β : Type}

@[simp] theorem withVal_some (c : CellName) (a : α) (k : α → Host.Outcome β Fault Refusal) :
    withVal c (some a) k = k a := rfl

@[simp] theorem withVal_none (c : CellName) (k : α → Host.Outcome β Fault Refusal) :
    withVal c none k = .refused (.noValue c) := rfl

@[simp] theorem withReg_some (r : Reg) (a : α) (k : α → Host.Outcome β Fault Refusal) :
    withReg r (some a) k = k a := rfl

@[simp] theorem withReg_none (r : Reg) (k : α → Host.Outcome β Fault Refusal) :
    withReg r none k = .refused (.noValue (.reg r)) := rfl

/-- A read goes on only with a value. -/
theorem withVal_next {c : CellName} {v : Option α} {k : α → Host.Outcome β Fault Refusal} {t : β} :
    withVal c v k = .next t ↔ ∃ a, v = some a ∧ k a = .next t := by
  cases v <;> simp

theorem withReg_next {r : Reg} {v : Option α} {k : α → Host.Outcome β Fault Refusal} {t : β} :
    withReg r v k = .next t ↔ ∃ a, v = some a ∧ k a = .next t := withVal_next

@[simp] theorem andThen_ofNext (a : α) (k : α → Host.Outcome β Fault Refusal) : andThen (.next a) k = k a := rfl

theorem andThen_next {o : Host.Outcome α Fault Refusal} {k : α → Host.Outcome β Fault Refusal} {t : β} :
    andThen o k = .next t ↔ ∃ a, o = .next a ∧ k a = .next t := by
  cases o <;> simp [andThen]

end Reading

/-! ## The fault entry -/

@[simp] theorem faultEntry_setInPos (s : State) (p : BitVec 33) (e : ErrKind) (st : Stage) (c : BitVec 2) :
    (s.setInPos p).faultEntry e st c = s.faultEntry e st c := rfl

@[simp] theorem faultEntry_setBits (s : State) (b : BitVec 8) (q : Fin 9) (e : ErrKind) (st : Stage) (c : BitVec 2) :
    (s.setBits b q).faultEntry e st c = s.faultEntry e st c := rfl

/-- `raise` answers the fault entry of the channel in `CH_CHAN`. -/
theorem raise_next {e : ErrKind} {st : Stage} {s t : State} :
    raise e st s = .next t ↔ ∃ c, s.chChan = some c ∧ t = s.faultEntry e st c := by
  simp only [raise, withReg_next, Host.Outcome.next.injEq]
  constructor
  · rintro ⟨c, hc, rfl⟩; exact ⟨c, hc, rfl⟩
  · rintro ⟨c, hc, rfl⟩; exact ⟨c, hc, rfl⟩

@[simp] theorem raise_setInPos (e : ErrKind) (st : Stage) (s : State) (p : BitVec 33) :
    raise e st (s.setInPos p) = raise e st s := rfl

theorem raise_eq {e : ErrKind} {st : Stage} {s : State} {c : BitVec 2} (h : s.chChan = some c) :
    raise e st s = .next (s.faultEntry e st c) := by simp [raise, h]

/-! ## The input port -/

@[simp] theorem portByte_setInPos (s : State) (p : BitVec 33) (sp : Space) (a : Nat) :
    portByte (s.setInPos p) sp a = portByte s sp a := by cases sp <;> rfl

/-- Consuming bytes that the window holds. -/
theorem takeBytes_room {n : Nat} {e : ErrKind} {st : Stage} {s : State} {k : State → Out} {p l : BitVec 33}
    (hp : s.inPos = some p) (hl : s.inLimit = some l) (h : p.toNat + n ≤ l.toNat) :
    takeBytes n e st s k = k (s.setInPos (p + BitVec.ofNat 33 n)) := by
  simp [takeBytes, hp, hl, h]

/-- Consuming bytes that the window does not hold. -/
theorem takeBytes_short {n : Nat} {e : ErrKind} {st : Stage} {s : State} {k : State → Out} {p l : BitVec 33}
    (hp : s.inPos = some p) (hl : s.inLimit = some l) (h : l.toNat < p.toNat + n) :
    takeBytes n e st s k = raise e st s := by
  simp [takeBytes, hp, hl, Nat.not_le.mpr h]

/-- What consuming bytes can lead to. -/
theorem takeBytes_next {n : Nat} {e : ErrKind} {st : Stage} {s t : State} {k : State → Out}
    (h : takeBytes n e st s k = .next t) :
    ∃ p l, s.inPos = some p ∧ s.inLimit = some l ∧
      ((p.toNat + n ≤ l.toNat ∧ k (s.setInPos (p + BitVec.ofNat 33 n)) = .next t) ∨
        (l.toNat < p.toNat + n ∧ ∃ c, s.chChan = some c ∧ t = s.faultEntry e st c)) := by
  simp only [takeBytes, withReg_next] at h
  obtain ⟨p, hp, l, hl, h⟩ := h
  refine ⟨p, l, hp, hl, ?_⟩
  split at h
  · exact .inl ⟨by assumption, h⟩
  · exact .inr ⟨by omega, raise_next.mp h⟩

/-- Reading a byte that the window holds. -/
theorem readByte_room {e : ErrKind} {st : Stage} {s : State} {k : BitVec 8 → State → Out} {p l : BitVec 33}
    {sp : Space} {v : BitVec 8} (hp : s.inPos = some p) (hl : s.inLimit = some l) (h : p.toNat < l.toNat)
    (hsp : s.inSpace = some sp) (hv : portByte s sp p.toNat = some v) :
    readByte e st s k = k v (s.setInPos (p + 1)) := by
  have : ¬ l ≤ p := by rw [BitVec.le_def]; omega
  simp [readByte, hp, hl, this, hsp, hv]

/-- Reading a byte beyond the window. -/
theorem readByte_short {e : ErrKind} {st : Stage} {s : State} {k : BitVec 8 → State → Out} {p l : BitVec 33}
    (hp : s.inPos = some p) (hl : s.inLimit = some l) (h : l.toNat ≤ p.toNat) :
    readByte e st s k = raise e st s := by
  have : l ≤ p := by rw [BitVec.le_def]; omega
  simp [readByte, hp, hl, this]

/-- What reading a byte can lead to. -/
theorem readByte_next {e : ErrKind} {st : Stage} {s t : State} {k : BitVec 8 → State → Out}
    (h : readByte e st s k = .next t) :
    ∃ p l, s.inPos = some p ∧ s.inLimit = some l ∧
      ((p.toNat < l.toNat ∧ ∃ sp v, s.inSpace = some sp ∧ portByte s sp p.toNat = some v ∧
          k v (s.setInPos (p + 1)) = .next t) ∨
        (l.toNat ≤ p.toNat ∧ ∃ c, s.chChan = some c ∧ t = s.faultEntry e st c)) := by
  simp only [readByte, withReg_next] at h
  obtain ⟨p, hp, l, hl, h⟩ := h
  refine ⟨p, l, hp, hl, ?_⟩
  split at h
  · rename_i hle
    exact .inr ⟨by rw [BitVec.le_def] at hle; omega, raise_next.mp h⟩
  · rename_i hle
    simp only [withReg_next, withVal_next] at h
    obtain ⟨sp, hsp, v, hv, h⟩ := h
    exact .inl ⟨by rw [BitVec.le_def] at hle; omega, sp, v, hsp, hv, h⟩

/-! ## The BitReader -/

/-- A bit of the byte that is loaded. -/
theorem nextBit_loaded {s : State} {k : Bool → State → Out} {q : Fin 9} {b : BitVec 8} (hq : s.brPos = some q)
    (h : q.val < 8) (hb : s.brByte = some b) :
    nextBit s k = k (b.getLsbD q.val) (s.setBits b ⟨q.val + 1, Nat.succ_lt_succ h⟩) := by
  simp [nextBit, hq, h, hb]

/-- A bit of the next byte: the lazy refill. -/
theorem nextBit_refill {s : State} {k : Bool → State → Out} {p l : BitVec 33} {sp : Space} {v : BitVec 8}
    (hq : s.brPos = some 8) (hp : s.inPos = some p) (hl : s.inLimit = some l) (h : p.toNat < l.toNat)
    (hsp : s.inSpace = some sp) (hv : portByte s sp p.toNat = some v) :
    nextBit s k = k (v.getLsbD 0) ((s.setInPos (p + 1)).setBits v 1) := by
  simp [nextBit, hq, readByte_room hp hl h hsp hv]

/-- No bit is left and no byte either. -/
theorem nextBit_short {s : State} {k : Bool → State → Out} {p l : BitVec 33}
    (hq : s.brPos = some 8) (hp : s.inPos = some p) (hl : s.inLimit = some l) (h : l.toNat ≤ p.toNat) :
    nextBit s k = raise .truncatedInput .hufDecode s := by
  simp [nextBit, hq, readByte_short hp hl h]

/-- What taking a bit can lead to. -/
theorem nextBit_next {s t : State} {k : Bool → State → Out} (h : nextBit s k = .next t) :
    (∃ q b, ∃ hq : q.val < 8, s.brPos = some q ∧ s.brByte = some b ∧
        k (b.getLsbD q.val) (s.setBits b ⟨q.val + 1, Nat.succ_lt_succ hq⟩) = .next t) ∨
      (s.brPos = some 8 ∧ ∃ p l, s.inPos = some p ∧ s.inLimit = some l ∧
        ((p.toNat < l.toNat ∧ ∃ sp v, s.inSpace = some sp ∧ portByte s sp p.toNat = some v ∧
            k (v.getLsbD 0) ((s.setInPos (p + 1)).setBits v 1) = .next t) ∨
          (l.toNat ≤ p.toNat ∧ ∃ c, s.chChan = some c ∧ t = s.faultEntry .truncatedInput .hufDecode c))) := by
  simp only [nextBit, withReg_next] at h
  obtain ⟨q, hq, h⟩ := h
  split at h
  · rename_i h8
    rw [withReg_next] at h
    obtain ⟨b, hb, h⟩ := h
    exact .inl ⟨q, b, h8, hq, hb, h⟩
  · rename_i h8
    have : q = 8 := by ext; show q.val = 8; omega
    subst this
    exact .inr ⟨hq, readByte_next h⟩

/-! ## Writing the plane -/

theorem writePlane_room {s : State} {d : Nat} {vs : List (BitVec 8)} {k : Memory → Out} {n : BitVec 32}
    (hn : s.planeSize = some n) (h : d + vs.length ≤ n.toNat) :
    writePlane s d vs k = k (s.plane.writeBytes d vs) := by
  simp [writePlane, hn, h]

theorem writePlane_next {s t : State} {d : Nat} {vs : List (BitVec 8)} {k : Memory → Out}
    (h : writePlane s d vs k = .next t) :
    ∃ n, s.planeSize = some n ∧ d + vs.length ≤ n.toNat ∧ k (s.plane.writeBytes d vs) = .next t := by
  simp only [writePlane, withReg_next] at h
  obtain ⟨n, hn, h⟩ := h
  split at h
  · exact ⟨n, hn, by assumption, h⟩
  · cases h

end Sys2Proof.Machine
end

