-- ==== Sys2Proof/Laws/Huffman.lean ====
section
/-! SUPPORT. The laws of the active list and of the arena writes. -/

namespace Sys2Proof.Machine

/-- The entries of a list with their frequencies are the list's entries, each with its `FREQ`. -/
theorem keyed_next {freq : List (Nat × Nat)} {act : List (BitVec 9)} {l : List (Nat × BitVec 9)}
    (h : keyed freq act = .next l) :
    l.map Prod.snd = act ∧ ∀ x ∈ l, cellGet freq x.2.toNat = some x.1 := by
  induction act generalizing l with
  | nil => simp only [keyed, Host.Outcome.next.injEq] at h; subst h; simp
  | cons x xs ih =>
    simp only [keyed, withVal_next, andThen_next, Host.Outcome.next.injEq] at h
    obtain ⟨f, hf, l', hl', rfl⟩ := h
    obtain ⟨h1, h2⟩ := ih hl'
    refine ⟨by simp [h1], ?_⟩
    intro y hy
    cases hy with
    | head => exact hf
    | tail _ hy => exact h2 y hy

/-- A list whose entries all hold a frequency has its keyed form. -/
theorem keyed_of_some {freq : List (Nat × Nat)} {act : List (BitVec 9)}
    (h : ∀ x ∈ act, (cellGet freq x.toNat).isSome = true) : ∃ l, keyed freq act = .next l := by
  induction act with
  | nil => exact ⟨[], rfl⟩
  | cons x xs ih =>
    obtain ⟨l, hl⟩ := ih fun y hy => h y (List.mem_cons_of_mem _ hy)
    obtain ⟨f, hf⟩ := Option.isSome_iff_exists.mp (h x List.mem_cons_self)
    exact ⟨(f, x) :: l, by simp [keyed, hf, hl]⟩

/-- A list of pairs that carry their `FREQ` is the keyed form of its entries. -/
theorem keyed_map_snd {freq : List (Nat × Nat)} {l : List (Nat × BitVec 9)}
    (h : ∀ x ∈ l, cellGet freq x.2.toNat = some x.1) : keyed freq (l.map Prod.snd) = .next l := by
  induction l with
  | nil => rfl
  | cons x xs ih =>
    simp [keyed, h x List.mem_cons_self, ih fun y hy => h y (List.mem_cons_of_mem _ hy)]

@[simp] theorem insertKeyed_length (f : Nat) (n : BitVec 9) (l : List (Nat × BitVec 9)) :
    (insertKeyed f n l).length = l.length + 1 := by
  induction l with
  | nil => rfl
  | cons x l ih =>
    simp only [insertKeyed]
    split <;> simp [ih]

/-- The entries after an insertion are the old ones and the new one. -/
theorem mem_insertKeyed {f : Nat} {n : BitVec 9} {l : List (Nat × BitVec 9)} {x : Nat × BitVec 9} :
    x ∈ insertKeyed f n l ↔ x = (f, n) ∨ x ∈ l := by
  induction l with
  | nil => simp [insertKeyed]
  | cons y l ih =>
    simp only [insertKeyed]
    split
    · simp
    · simp only [List.mem_cons, ih]
      constructor
      · rintro (h | h | h)
        · exact .inr (.inl h)
        · exact .inl h
        · exact .inr (.inr h)
      · rintro (h | h | h)
        · exact .inr (.inl h)
        · exact .inl h
        · exact .inr (.inr h)

/-- What a stable insertion into the active list gives. -/
theorem insertStable_next {freq : List (Nat × Nat)} {n : BitVec 9} {act act' : List (BitVec 9)} :
    insertStable freq n act = .next act' ↔
      ∃ f l, cellGet freq n.toNat = some f ∧ keyed freq act = .next l ∧ act' = (insertKeyed f n l).map Prod.snd := by
  simp only [insertStable, withVal_next, andThen_next, Host.Outcome.next.injEq]
  constructor
  · rintro ⟨f, hf, l, hl, rfl⟩; exact ⟨f, l, hf, hl, rfl⟩
  · rintro ⟨f, l, hf, hl, rfl⟩; exact ⟨f, hf, l, hl, rfl⟩

/-- Reading `FREQ` after the header wrote the leaves from `i` on. -/
theorem cellGet_writeFreqs (fs : List (BitVec 32)) (freq : List (Nat × Nat)) (i a : Nat) :
    cellGet (writeFreqs freq i fs) a =
      if i ≤ a ∧ a < i + fs.length then fs[a - i]?.map BitVec.toNat else cellGet freq a := by
  induction fs generalizing freq i with
  | nil => rw [if_neg (by simp only [List.length_nil]; omega)]; rfl
  | cons f fs ih =>
    rw [writeFreqs, ih, cellGet_cellSet]
    simp only [List.length_cons]
    by_cases h1 : i = a
    · subst h1
      rw [if_neg (by omega), if_pos rfl, if_pos (by omega)]
      simp
    · by_cases h2 : i + 1 ≤ a ∧ a < i + 1 + fs.length
      · rw [if_pos h2, if_pos (by omega)]
        have : a - i = (a - (i + 1)) + 1 := by omega
        rw [this, List.getElem?_cons_succ]
      · rw [if_neg h2, if_neg h1, if_neg (by omega)]

theorem cellsFrom_writeFreqs (fs : List (BitVec 32)) (freq : List (Nat × Nat)) (i : Nat)
    (h : cellsFrom 0 freq = true) : cellsFrom 0 (writeFreqs freq i fs) = true := by
  induction fs generalizing freq i with
  | nil => exact h
  | cons f fs ih => exact ih _ _ (cellsFrom_cellSet freq 0 i f.toNat h (Nat.zero_le i))

theorem seedKeyed_length (i : Nat) (fs : List (BitVec 32)) (l : List (Nat × BitVec 9)) :
    (seedKeyed i fs l).length = fs.length + l.length := by
  induction fs generalizing i l with
  | nil => simp [seedKeyed]
  | cons f fs ih => rw [seedKeyed, ih, insertKeyed_length, List.length_cons]; omega

@[simp] theorem seedActive_length (fs : List (BitVec 32)) : (seedActive fs).length = fs.length := by
  simp [seedActive, seedKeyed_length]

/-- The entries of a seeded list. -/
theorem mem_seedKeyed {i : Nat} {fs : List (BitVec 32)} {l : List (Nat × BitVec 9)} {x : Nat × BitVec 9} :
    x ∈ seedKeyed i fs l ↔ x ∈ l ∨ ∃ j, ∃ h : j < fs.length, x = (fs[j].toNat, BitVec.ofNat 9 (i + j)) := by
  induction fs generalizing i l with
  | nil => simp [seedKeyed]
  | cons f fs ih =>
    rw [seedKeyed, ih, mem_insertKeyed]
    constructor
    · rintro ((rfl | h) | ⟨j, hj, rfl⟩)
      · exact .inr ⟨0, by simp, by simp⟩
      · exact .inl h
      · exact .inr ⟨j + 1, by simpa using hj, by simp [Nat.add_assoc, Nat.add_comm 1 j]⟩
    · rintro (h | ⟨j, hj, rfl⟩)
      · exact .inl (.inr h)
      · cases j with
        | zero => exact .inl (.inl (by simp))
        | succ j => exact .inr ⟨j, by simpa using hj, by simp [Nat.add_assoc, Nat.add_comm 1 j]⟩

end Sys2Proof.Machine
end

