-- ==== Sys2Proof/Laws/PerInstr.lean ====
section
/-! SUPPORT. A law of every token as syntax, one lemma per constructor: its encoding in a format that admits it has the
length 30_encoding R102 gives it, and no token of a format is longer than the longest one the fetch looks at. -/

/-- Four bytes for every 32-bit value. -/
theorem Sys2Proof.flatMap_u32Bytes_length (ws : List Sys2Proof.Word32) :
    (ws.flatMap Sys2Proof.u32Bytes).length = 4 * ws.length := by
  induction ws with
  | nil => rfl
  | cons w ws ih =>
    simp only [List.flatMap_cons, List.length_append, ih, Sys2Proof.u32Bytes, List.length_cons, List.length_nil]
    omega

namespace Sys2Proof.Laws.EncodedLength

/-- The encoding is as long as R102 says, in every format that admits the token (R95, R97, R102). -/
def Statement (i : Instr) : Prop :=
  ∀ c : Ctx, i.wf c = true → (encode c i).length = i.byteLength ∧ i.byteLength ≤ c.longest

theorem pipeRle : Statement .pipeRle := by
  intro c h
  cases c <;> simp_all [Instr.wf, encode, Instr.byteLength, Ctx.longest]

theorem pipeHufdict : Statement .pipeHufdict := by
  intro c h
  cases c <;> simp_all [Instr.wf, encode, Instr.byteLength, Ctx.longest]

theorem pipeHufrle (pack : Byte) : Statement (.pipeHufrle pack) := by
  intro c h
  cases c <;> simp_all [Instr.wf, encode, Instr.byteLength, Ctx.longest]

theorem hufHeader (unpacked packed : Word32) (freqs : List Word32) : Statement (.hufHeader unpacked packed freqs) := by
  intro c h
  cases c <;> simp [Instr.wf] at h
  simp only [encode, Instr.byteLength, Ctx.longest, List.length_append, flatMap_u32Bytes_length, h, u32Bytes,
    List.length_cons, List.length_nil]
  exact ⟨trivial, Nat.le_refl _⟩

theorem hufBit0 : Statement .hufBit0 := by
  intro c h
  cases c <;> simp_all [Instr.wf, encode, Instr.byteLength, Ctx.longest]

theorem hufBit1 : Statement .hufBit1 := by
  intro c h
  cases c <;> simp_all [Instr.wf, encode, Instr.byteLength, Ctx.longest]

theorem dictHeader (esc : Byte) : Statement (.dictHeader esc) := by
  intro c h
  cases c <;> simp_all [Instr.wf, encode, Instr.byteLength, Ctx.longest]

theorem dictLit (b : Byte) : Statement (.dictLit b) := by
  intro c h
  cases c <;> simp_all [Instr.wf, encode, Instr.byteLength, Ctx.longest]

theorem dictEsc : Statement .dictEsc := by
  intro c h
  cases c <;> simp_all [Instr.wf, encode, Instr.byteLength, Ctx.longest]

theorem dictCopy (rawOffset count : Byte) : Statement (.dictCopy rawOffset count) := by
  intro c h
  cases c <;> simp_all [Instr.wf, encode, Instr.byteLength, Ctx.longest]

theorem rleNop : Statement .rleNop := by
  intro c h
  cases c <;> simp_all [Instr.wf, encode, Instr.byteLength, Ctx.longest]

theorem rleLit (lits : List Byte) : Statement (.rleLit lits) := by
  intro c h
  cases c <;> simp_all [Instr.wf, encode, Instr.byteLength, Ctx.longest]
  omega

theorem rleRun (n : BitVec 7) (v : Byte) : Statement (.rleRun n v) := by
  intro c h
  cases c <;> simp_all [Instr.wf, encode, Instr.byteLength, Ctx.longest]

end Sys2Proof.Laws.EncodedLength
end

