-- ==== Sys2Proof/Laws/Step.lean ====
section
/-! SUPPORT. What a step can do, said once: `Effect p s t` lists every way a step answers a next state, and
`stepWith_effect` says there is no other. Invariants are proved by cases on it, without unfolding the step. -/

namespace Sys2Proof.Machine

/-! ## What CORE_OK says of SRC -/

theorem cellGet_isSome_mem {α : Type} {m : List (Nat × α)} {a : Nat} (h : (cellGet m a).isSome = true) :
    ∃ c ∈ m, c.1 = a := by
  induction m with
  | nil => cases h
  | cons c m ih =>
    rw [cellGet_cons] at h
    split at h
    · exact ⟨c, List.mem_cons_self, by assumption⟩
    · obtain ⟨d, hd, e⟩ := ih h
      exact ⟨d, List.mem_cons_of_mem c hd, e⟩

/-- Under `CORE_OK` every byte of `SRC` that holds a value lies below the file size (R26, 20_memory R60). -/
theorem coreOk_src {s : State} (h : coreOk s = true) {a : Nat} (ha : (s.src.read a).isSome = true) :
    ∃ f, s.descFileSize = some f ∧ a < f.toNat := by
  obtain ⟨c, hc, rfl⟩ := cellGet_isSome_mem ha
  unfold coreOk at h
  split at h
  · rename_i f _ _ _ _ _ _ _ hf
    simp only [Bool.and_eq_true, Memory.holdsImage, List.all_eq_true, decide_eq_true_eq] at h
    exact ⟨f, hf, h.2.2 c hc⟩
  · cases h

/-! ## What the decoder can answer in each format -/

theorem takeU32s_length {n : Nat} {bs r : List Byte} {ws : List Word32} (h : takeU32s n bs = some (ws, r)) :
    ws.length = n := by
  induction n generalizing bs ws r with
  | zero => simp only [takeU32s, Option.some.injEq, Prod.mk.injEq] at h; simp [← h.1]
  | succ n ih =>
    simp only [takeU32s] at h
    split at h
    · cases h
    · rename_i w r' _
      split at h
      · cases h
      · rename_i ws' r'' hh
        simp only [Option.some.injEq, Prod.mk.injEq] at h
        rw [← h.1, List.length_cons, ih hh]

theorem decode_pack_cases {bs : List Byte} {i : Instr} {r : List Byte} (h : decode .pack bs = .token i r) :
    ∃ k, bs = k :: r ∧ ((k = 0x01 ∧ i = .pipeRle) ∨ (k = 0xA2 ∧ i = .pipeHufdict) ∨
      (k ≠ 0x01 ∧ k ≠ 0xA2 ∧ i = .pipeHufrle k)) := by
  cases bs with
  | nil => simp [decode, decodePack, cutShort] at h
  | cons k bs =>
    simp only [decode, decodePack] at h
    split at h
    · simp only [Decoded.token.injEq] at h
      obtain ⟨rfl, rfl⟩ := h
      exact ⟨k, rfl, .inl ⟨by assumption, rfl⟩⟩
    · split at h
      · simp only [Decoded.token.injEq] at h
        obtain ⟨rfl, rfl⟩ := h
        exact ⟨k, rfl, .inr (.inl ⟨by assumption, rfl⟩)⟩
      · simp only [Decoded.token.injEq] at h
        obtain ⟨rfl, rfl⟩ := h
        exact ⟨k, rfl, .inr (.inr ⟨by assumption, by assumption, rfl⟩)⟩

theorem decode_hufHeader_cases {bs : List Byte} {i : Instr} {r : List Byte} (h : decode .hufHeader bs = .token i r) :
    ∃ u pk fs, i = .hufHeader u pk fs ∧ fs.length = 256 := by
  simp only [decode, decodeHufHeader, cutShort] at h
  split at h
  · cases h
  · split at h
    · cases h
    · split at h
      · cases h
      · rename_i hfs
        simp only [Decoded.token.injEq] at h
        exact ⟨_, _, _, h.1.symm, takeU32s_length hfs⟩

theorem decode_hufBit_cases {pos : Fin 8} {bs : List Byte} {i : Instr} {r : List Byte}
    (h : decode (.hufBit pos) bs = .token i r) : i = .hufBit0 ∨ i = .hufBit1 := by
  cases bs with
  | nil => simp [decode, decodeHufBit, cutShort] at h
  | cons b bs =>
    simp only [decode, decodeHufBit, Decoded.token.injEq] at h
    rw [← h.1]
    split
    · exact .inr rfl
    · exact .inl rfl

theorem decode_dictHeader_cases {bs : List Byte} {i : Instr} {r : List Byte}
    (h : decode .dictHeader bs = .token i r) : ∃ e, i = .dictHeader e := by
  simp only [decode] at h
  unfold decodeDictHeader at h
  split at h
  · simp only [Decoded.token.injEq] at h
    exact ⟨_, h.1.symm⟩
  · cases h

theorem decode_dict_cases {e : Byte} {bs : List Byte} {i : Instr} {r : List Byte}
    (h : decode (.dict e) bs = .token i r) :
    (∃ b, i = .dictLit b) ∨ i = .dictEsc ∨ ∃ o n, i = .dictCopy o n := by
  simp only [decode] at h
  unfold decodeDict at h
  split at h
  · cases h
  · split at h
    · simp only [Decoded.token.injEq] at h
      exact .inl ⟨_, h.1.symm⟩
    · split at h
      · cases h
      · split at h
        · simp only [Decoded.token.injEq] at h
          exact .inr (.inl h.1.symm)
        · split at h
          · cases h
          · simp only [Decoded.token.injEq] at h
            exact .inr (.inr ⟨_, _, h.1.symm⟩)

theorem decode_rle_cases {bs : List Byte} {i : Instr} {r : List Byte} (h : decode .rle bs = .token i r) :
    i = .rleNop ∨ (∃ vs, i = .rleLit vs) ∨ ∃ n v, i = .rleRun n v := by
  simp only [decode] at h
  unfold decodeRle at h
  split at h
  · cases h
  · split at h
    · split at h
      · cases h
      · simp only [Decoded.token.injEq] at h
        exact .inr (.inr ⟨_, _, h.1.symm⟩)
    · split at h
      · simp only [Decoded.token.injEq] at h
        exact .inl h.1.symm
      · split at h
        · simp only [Decoded.token.injEq] at h
          exact .inr (.inl ⟨_, h.1.symm⟩)
        · cases h

/-! ## The effects of a step -/

/-- Every way a step answers a next state. -/
inductive Effect (p : FreqOverflow) (s : State) : State → Prop
  /-- Nothing pending: the CORE waits. -/
  | wait (hw : s.phase.waits = true) (hi : s.inbox = []) : Effect p s s
  /-- The host loads an image. -/
  | load (d : Descriptor) (image : List (BitVec 8)) (rest : List HostAct) (hw : s.phase.waits = true)
      (hb : s.statusState ≠ .busy) (hi : s.inbox = .load d image :: rest) :
      Effect p s ({ s with inbox := rest }.loaded d image)
  /-- `CMD.DECODE_IMAGE`. -/
  | start (rest : List HostAct) (w h d : BitVec 16) (a r g b : BitVec 32) (hw : s.phase.waits = true)
      (hb : s.statusState ≠ .busy) (hi : s.inbox = .decodeImage :: rest) (hok : coreOk s = true)
      (hdw : s.descWidth = some w) (hdh : s.descHeight = some h) (hdd : s.descDepth = some d)
      (hda : s.descAlen = some a) (hdr : s.descRlen = some r) (hdg : s.descGlen = some g)
      (hdb : s.descBlen = some b) : Effect p s ({ s with inbox := rest }.started w h d a r g b)
  /-- A fault: the kind is one the stage can report. -/
  | fault (e : ErrKind) (st : Stage) (c : BitVec 2) (hw : s.phase.waits = false) (hn : s.phase ≠ .chSetup)
      (hrep : stageReports st e = true) (hc : s.chChan = some c) : Effect p s (s.faultEntry e st c)
  /-- `CH_SETUP` into raw run-length decoding. -/
  | pipeRle (js : List Job) (i : BitVec 3) (j : Job) (hph : s.phase = .chSetup) (hjs : s.jobs = some js)
      (hi : s.jobIdx = some i) (hj : js[i.toNat]? = some j) (hk : s.descPack = some 0x01) :
      Effect p s ({ s.channelFor j with pipeMode := some .rle }.enterRle j.len)
  /-- `CH_SETUP` into a Huffman stage. -/
  | pipeHuf (js : List Job) (i : BitVec 3) (j : Job) (k : BitVec 8) (hph : s.phase = .chSetup)
      (hjs : s.jobs = some js) (hi : s.jobIdx = some i) (hj : js[i.toNat]? = some j) (hk : s.descPack = some k)
      (hk1 : k ≠ 0x01) :
      Effect p s ((s.channelFor j).enterHuffman (if k = 0xA2 then .hufdict else .hufrle))
  /-- `HUF.HEADER`. -/
  | header (u : BitVec 32) (fs : List (BitVec 32)) (p0 l q : BitVec 33) (hph : s.phase = .hufHeader)
      (hp : s.inPos = some p0) (hl : s.inLimit = some l) (hroom : p0.toNat + 1032 ≤ l.toNat)
      (hq : q.toNat = p0.toNat + 1032) (hfs : fs.length = 256) (hu : u.toNat ≤ Config.houtCapacity) :
      Effect p s
        { s.setInPos q with
          hufUnpacked := some u, freq := writeFreqs s.freq 0 fs, act := some (seedActive fs)
          hufNext := some 256, phase := .hufBuild }
  /-- `HUF.MERGE`. -/
  | merge (l r : BitVec 9) (rest act' : List (BitVec 9)) (n : BitVec 10) (fl fr f : Nat)
      (hph : s.phase = .hufBuild) (hact : s.act = some (l :: r :: rest)) (hn : s.hufNext = some n)
      (hlo : 256 ≤ n.toNat) (hhi : n.toNat ≤ 510) (hfl : cellGet s.freq l.toNat = some fl)
      (hfr : cellGet s.freq r.toNat = some fr) (hf : freqAdd p fl fr = some f)
      (hins : insertStable (cellSet s.freq n.toNat f) (n.setWidth 9) rest = .next act') :
      Effect p s (s.merged n l r f act')
  /-- A code bit to an internal node. `s1` is the state after the bit was taken. -/
  | walk (bit : Bool) (s1 : State) (node child : BitVec 9) (hph : s.phase = .hufDecode) (hbit : BitTaken s bit s1)
      (hnode : s.hufNode = some node)
      (hchild : cellGet s.left node.toNat = some child ∨ cellGet s.right node.toNat = some child)
      (hin : 256 ≤ child.toNat) : Effect p s { s1 with hufNode := some child }
  /-- A code bit to a leaf. -/
  | emit (bit : Bool) (s1 : State) (node child : BitVec 9) (cnt u : BitVec 32) (hph : s.phase = .hufDecode)
      (hbit : BitTaken s bit s1) (hnode : s.hufNode = some node)
      (hchild : cellGet s.left node.toNat = some child ∨ cellGet s.right node.toNat = some child)
      (hleaf : child.toNat ≤ 255) (hcnt : s.hufOutCnt = some cnt) (hu : s.hufUnpacked = some u)
      (hlt : cnt.toNat < u.toNat) :
      Effect p s
        { s1 with
          hout := s.hout.write cnt.toNat (child.setWidth 8), hufOutCnt := some (cnt + 1), hufNode := some 510 }
  /-- The end of a Huffman stage into the dictionary stage. -/
  | hufEndDict (u : BitVec 32) (hph : s.phase = .hufDecode) (hu : s.hufUnpacked = some u)
      (hcnt : s.hufOutCnt = some u) (hm : s.pipeMode = some .hufdict) :
      Effect p s (s.detachBitReader.openPort .hout 0 (u.setWidth 33)).enterDict
  /-- The end of a Huffman stage into the run-length stage. -/
  | hufEndRle (u : BitVec 32) (m : PipeMode) (hph : s.phase = .hufDecode) (hu : s.hufUnpacked = some u)
      (hcnt : s.hufOutCnt = some u) (hm : s.pipeMode = some m) (hmode : m ≠ .hufdict) :
      Effect p s ((s.detachBitReader.openPort .hout 0 (u.setWidth 33)).enterRle u)
  /-- `DICT.HEADER`. -/
  | dictHeader (e : BitVec 8) (l : BitVec 33) (hph : s.phase = .dictHeader) (hl : s.inLimit = some l)
      (hroom : 9 ≤ l.toNat) :
      Effect p s { s.setInPos 12 with dictEsc := some e, dictDst := some 0, phase := .dict }
  /-- `DICT.LIT` or `DICT.ESC`: one byte appended, `len` bytes consumed. -/
  | dictAppend (b : BitVec 8) (len : Nat) (p0 l : BitVec 33) (d n : BitVec 32) (hph : s.phase = .dict)
      (hp : s.inPos = some p0) (hl : s.inLimit = some l) (hroom : p0.toNat + len ≤ l.toNat) (hlen : len = 1 ∨ len = 2)
      (hd : s.dictDst = some d) (hn : s.planeSize = some n) (hlt : d.toNat < n.toNat) :
      Effect p s
        { s.setInPos (p0 + BitVec.ofNat 33 len) with
          plane := s.plane.writeBytes d.toNat [b], dictDst := some (d + 1) }
  /-- `DICT.COPY` of count 0. -/
  | dictSkip (p0 l : BitVec 33) (hph : s.phase = .dict) (hp : s.inPos = some p0) (hl : s.inLimit = some l)
      (hroom : p0.toNat + 3 ≤ l.toNat) : Effect p s (s.setInPos (p0 + 3))
  /-- `DICT.COPY` of at least one byte. -/
  | dictCopy (p0 l : BitVec 33) (o count e : BitVec 8) (d n : BitVec 32) (plane : Memory) (hph : s.phase = .dict)
      (hp : s.inPos = some p0) (hl : s.inLimit = some l) (hroom : p0.toNat + 3 ≤ l.toNat) (he : s.dictEsc = some e)
      (hd : s.dictDst = some d) (hn : s.planeSize = some n) (hcount : count ≠ 0) (hoff : copyOffset o e ≠ 0)
      (hback : (copyOffset o e).toNat ≤ d.toNat) (hfit : d.toNat + count.toNat ≤ n.toNat)
      (hcopy : copyLoop (copyOffset o e).toNat count.toNat d.toNat s.plane = .next plane) :
      Effect p s
        { s.setInPos (p0 + 3) with plane := plane, dictDst := some (d + BitVec.ofNat 32 count.toNat) }
  /-- The end of a dictionary stage. -/
  | dictEnd (n : BitVec 32) (hph : s.phase = .dict) (hd : s.dictDst = some n) (hn : s.planeSize = some n) :
      Effect p s { s with phase := .fillCheck }
  /-- `RLE.LIT` or `RLE.RUN`: the bytes `vs` written, `1 + len` bytes consumed. -/
  | rleWrite (vs : List (BitVec 8)) (len : Nat) (p0 l q : BitVec 33) (d n : BitVec 32) (hph : s.phase = .rle)
      (hp : s.inPos = some p0) (hl : s.inLimit = some l) (hroom : p0.toNat + 1 + len ≤ l.toNat)
      (hq : q.toNat = p0.toNat + 1 + len) (hd : s.rleDst = some d) (hn : s.planeSize = some n)
      (hfit : d.toNat + vs.length ≤ n.toNat) :
      Effect p s
        { s.setInPos q with
          plane := s.plane.writeBytes d.toNat vs, rleDst := some (d + BitVec.ofNat 32 vs.length) }
  /-- `RLE.NOP`. -/
  | rleNop (p0 l : BitVec 33) (hph : s.phase = .rle) (hp : s.inPos = some p0) (hl : s.inLimit = some l)
      (hroom : p0.toNat + 1 ≤ l.toNat) : Effect p s (s.setInPos (p0 + 1))
  /-- The end of a run-length stage. -/
  | rleEnd (p0 b : BitVec 33) (n : BitVec 32) (hph : s.phase = .rle) (hp : s.inPos = some p0)
      (hb : s.inBase = some b) (hn : s.rleSrcSize = some n) (hdone : n.toNat ≤ p0.toNat - b.toNat) :
      Effect p s { s with phase := .fillCheck }
  /-- The fill check passes. -/
  | fillOk (m : PipeMode) (n : BitVec 32) (hph : s.phase = .fillCheck) (hm : s.pipeMode = some m)
      (hn : s.planeSize = some n) (hd : (if m = .hufdict then s.dictDst else s.rleDst) = some n) :
      Effect p s { s with phase := .scatter }
  /-- `PIPE.SCATTER`. -/
  | scatter (c : BitVec 2) (b : BitVec 3) (w h : BitVec 16) (n : BitVec 34) (pix : Memory) (hph : s.phase = .scatter)
      (hc : s.chChan = some c) (hb : s.bpp = some b) (hw : s.descWidth = some w) (hh : s.descHeight = some h)
      (hn : s.pixSize = some n)
      (hloop : scatterLoop s.plane b.toNat n.toNat (scatterOrder w.toNat h.toNat) c.toNat s.pix = .next pix) :
      Effect p s { s with pix := pix, scatY := none, scatX := none, scatDst := none, phase := .chNext }
  /-- The last channel is done. -/
  | imageDone (js : List Job) (i : BitVec 3) (f : OutFormat) (hph : s.phase = .chNext) (hjs : s.jobs = some js)
      (hi : s.jobIdx = some i) (hlast : i.toNat + 1 = js.length) (hf : s.outFormat = some f) :
      Effect p s { s with jobIdx := some (i + 1), statusFormat := f, statusState := .done, phase := .done }
  /-- The next channel. -/
  | nextChannel (js : List Job) (i : BitVec 3) (hph : s.phase = .chNext) (hjs : s.jobs = some js)
      (hi : s.jobIdx = some i) (hmore : i.toNat + 1 ≠ js.length) :
      Effect p s { s with jobIdx := some (i + 1), phase := .chSetup }

/-! ## The meanings -/

section Meanings
variable {p : FreqOverflow} {s t : State}

theorem effect_fault {e : ErrKind} {st : Stage} (hw : s.phase.waits = false) (hn : s.phase ≠ .chSetup)
    (hrep : stageReports st e = true) (h : ∃ c, s.chChan = some c ∧ t = s.faultEntry e st c) : Effect p s t := by
  obtain ⟨c, hc, rfl⟩ := h
  exact .fault e st c hw hn hrep hc

theorem effect_hufHeader {u pk : BitVec 32} {fs : List (BitVec 32)} (hph : s.phase = .hufHeader)
    (hfs : fs.length = 256) (h : execHufHeader u pk fs s = .next t) : Effect p s t := by
  have hw : s.phase.waits = false := by rw [hph]; rfl
  have hn : s.phase ≠ .chSetup := by rw [hph]; decide
  unfold execHufHeader hufHeader at h
  obtain ⟨p0, l, hp, hl, ⟨h4, h⟩ | ⟨-, h⟩⟩ := takeBytes_next h
  swap; · exact effect_fault hw hn rfl h
  split at h
  · exact effect_fault hw hn rfl (raise_next.mp h)
  · rename_i hcap
    obtain ⟨p1, l1, hp1, hl1, ⟨h8, h⟩ | ⟨-, h⟩⟩ := takeBytes_next h
    swap; · exact effect_fault hw hn rfl h
    obtain ⟨p2, l2, hp2, hl2, ⟨hroom, h⟩ | ⟨-, h⟩⟩ := takeBytes_next h
    swap; · exact effect_fault hw hn rfl h
    simp only [State.setInPos_inPos, State.setInPos_inLimit, Option.some.injEq] at hp1 hl1 hp2 hl2
    subst hp1; subst hp2
    have e1 : l1 = l := by rw [hl] at hl1; exact (Option.some.inj hl1).symm
    have e2 : l2 = l := by rw [hl] at hl2; exact (Option.some.inj hl2).symm
    subst e1; subst e2
    simp only [Host.Outcome.next.injEq] at h
    subst h
    have hlt := l2.isLt
    have q1 : (p0 + BitVec.ofNat 33 4).toNat = p0.toNat + 4 := by
      rw [BitVec.toNat_add, BitVec.toNat_ofNat]; omega
    have q2 : (p0 + BitVec.ofNat 33 4 + BitVec.ofNat 33 4).toNat = p0.toNat + 8 := by
      rw [BitVec.toNat_add, q1, BitVec.toNat_ofNat]; omega
    refine .header u fs p0 l2 (p0 + BitVec.ofNat 33 4 + BitVec.ofNat 33 4 + BitVec.ofNat 33 1024) hph hp hl
      (by omega) ?_ hfs (by omega)
    rw [BitVec.toNat_add, q2, BitVec.toNat_ofNat]; omega

theorem effect_merge (hph : s.phase = .hufBuild) (h : hufMerge p s = .next t) : Effect p s t := by
  simp only [hufMerge, withReg_next] at h
  obtain ⟨act, hact, h⟩ := h
  split at h
  · rename_i l r rest
    simp only [withReg_next] at h
    obtain ⟨n, hn, h⟩ := h
    split at h
    · rename_i hrange
      simp only [withVal_next] at h
      obtain ⟨fl, hfl, fr, hfr, h⟩ := h
      split at h
      · exact effect_fault (by rw [hph]; rfl) (by rw [hph]; decide) rfl (raise_next.mp h)
      · rename_i f hf
        simp only [andThen_next, Host.Outcome.next.injEq] at h
        obtain ⟨act', hins, rfl⟩ := h
        exact .merge l r rest act' n fl fr f hph hact hn hrange.1 hrange.2 hfl hfr hf hins
    · cases h
  · cases h

theorem effect_bit {child? : State → Option (BitVec 9)} {cell : CellName} {bit : Bool} {s1 : State} (hph : s.phase = .hufDecode)
    (hbit : BitTaken s bit s1)
    (hside : (∀ node, s.hufNode = some node →
      ∀ x, child? s1 = some x → cellGet s.left node.toNat = some x ∨ cellGet s.right node.toNat = some x))
    (hnode : s.hufNode ≠ none) (h : withVal cell (child? s1) (fun child => hufMove child s1) = .next t) :
    Effect p s t := by
  obtain ⟨child, hchild, h⟩ := withVal_next.mp h
  obtain ⟨node, hnode⟩ := Option.ne_none_iff_exists'.mp hnode
  have hc := hside node hnode child hchild
  simp only [hufMove] at h
  split at h
  · rename_i hleaf
    simp only [hufEmit, withReg_next] at h
    obtain ⟨cnt, hcnt, u, hu, h⟩ := h
    split at h
    · rename_i hlt
      simp only [Host.Outcome.next.injEq] at h
      subst h
      have e1 : s1.hufOutCnt = s.hufOutCnt := by cases hbit <;> rfl
      have e2 : s1.hufUnpacked = s.hufUnpacked := by cases hbit <;> rfl
      have e3 : s1.hout = s.hout := by cases hbit <;> rfl
      rw [e3]
      exact .emit bit s1 node child cnt u hph hbit hnode hc hleaf (e1 ▸ hcnt) (e2 ▸ hu) (by simpa [BitVec.lt_def] using hlt)
    · cases h
  · rename_i hleaf
    simp only [Host.Outcome.next.injEq] at h
    subst h
    exact .walk bit s1 node child hph hbit hnode hc (by omega)

theorem effect_hufBit0 (hph : s.phase = .hufDecode) (h : execHufBit0 s = .next t) : Effect p s t := by
  have fin : ∀ bit s1, BitTaken s bit s1 → (withReg .hufNode s1.hufNode fun node =>
      withVal (.left node.toNat) (cellGet s1.left node.toNat) fun child => hufMove child s1) = .next t →
      Effect p s t := by
    intro bit s1 hbit h
    obtain ⟨node, hnode, h⟩ := withReg_next.mp h
    have e1 : s1.hufNode = s.hufNode := by cases hbit <;> rfl
    have e2 : s1.left = s.left := by cases hbit <;> rfl
    rw [e1] at hnode
    refine effect_bit (child? := fun s1 => cellGet s1.left node.toNat) hph hbit ?_ (by simp [hnode]) h
    intro node' hn' x hx
    rw [hnode] at hn'
    obtain rfl := Option.some.inj hn'
    exact .inl (by simpa [e2] using hx)
  obtain ⟨q, b, hq, hpos, hb, h⟩ | ⟨hpos, p0, l, hp, hl, ⟨hlt, sp, v, hsp, hv, h⟩ | ⟨-, h⟩⟩ := nextBit_next h
  · exact fin _ _ (.loaded q b hq hpos hb) h
  · exact fin _ _ (.refill p0 l sp v hpos hp hl hlt hsp hv) h
  · exact effect_fault (by rw [hph]; rfl) (by rw [hph]; decide) rfl h

theorem effect_hufBit1 (hph : s.phase = .hufDecode) (h : execHufBit1 s = .next t) : Effect p s t := by
  have fin : ∀ bit s1, BitTaken s bit s1 → (withReg .hufNode s1.hufNode fun node =>
      withVal (.right node.toNat) (cellGet s1.right node.toNat) fun child => hufMove child s1) = .next t →
      Effect p s t := by
    intro bit s1 hbit h
    obtain ⟨node, hnode, h⟩ := withReg_next.mp h
    have e1 : s1.hufNode = s.hufNode := by cases hbit <;> rfl
    have e2 : s1.right = s.right := by cases hbit <;> rfl
    rw [e1] at hnode
    refine effect_bit (child? := fun s1 => cellGet s1.right node.toNat) hph hbit ?_ (by simp [hnode]) h
    intro node' hn' x hx
    rw [hnode] at hn'
    obtain rfl := Option.some.inj hn'
    exact .inr (by simpa [e2] using hx)
  obtain ⟨q, b, hq, hpos, hb, h⟩ | ⟨hpos, p0, l, hp, hl, ⟨hlt, sp, v, hsp, hv, h⟩ | ⟨-, h⟩⟩ := nextBit_next h
  · exact fin _ _ (.loaded q b hq hpos hb) h
  · exact fin _ _ (.refill p0 l sp v hpos hp hl hlt hsp hv) h
  · exact effect_fault (by rw [hph]; rfl) (by rw [hph]; decide) rfl h

theorem effect_hufEnd {cnt : BitVec 32} (hph : s.phase = .hufDecode) (hcnt : s.hufOutCnt = some cnt)
    (hu : s.hufUnpacked = some cnt) (h : hufEnd s = .next t) : Effect p s t := by
  simp only [hufEnd, withReg_next] at h
  obtain ⟨u, hu', m, hm, h⟩ := h
  rw [hu] at hu'
  obtain rfl := Option.some.inj hu'
  cases m with
  | hufdict =>
    simp only [Host.Outcome.next.injEq] at h
    subst h
    exact .hufEndDict cnt hph hu hcnt hm
  | rle =>
    simp only [Host.Outcome.next.injEq] at h
    subst h
    exact .hufEndRle cnt .rle hph hu hcnt hm (by decide)
  | hufrle =>
    simp only [Host.Outcome.next.injEq] at h
    subst h
    exact .hufEndRle cnt .hufrle hph hu hcnt hm (by decide)

theorem effect_dictHeader {e : BitVec 8} (hph : s.phase = .dictHeader) (h : execDictHeader e s = .next t) :
    Effect p s t := by
  obtain ⟨p0, l, hp, hl, ⟨hroom, h⟩ | ⟨-, c, hc, rfl⟩⟩ := takeBytes_next h
  · simp only [State.setInPos_inPos, Option.some.injEq] at hp
    subst hp
    simp only [Host.Outcome.next.injEq] at h
    subst h
    exact .dictHeader e l hph hl hroom
  · exact .fault _ _ c (by rw [hph]; rfl) (by rw [hph]; decide) rfl hc

theorem effect_dictAppend {b : BitVec 8} {len : Nat} {p0 l : BitVec 33} (hph : s.phase = .dict)
    (hp : s.inPos = some p0) (hl : s.inLimit = some l) (hroom : p0.toNat + len ≤ l.toNat) (hlen : len = 1 ∨ len = 2)
    (h : dictAppend b (s.setInPos (p0 + BitVec.ofNat 33 len)) = .next t) : Effect p s t := by
  simp only [dictAppend, withReg_next] at h
  obtain ⟨d, hd, h⟩ := h
  obtain ⟨n, hn, hfit, h⟩ := writePlane_next h
  simp only [Host.Outcome.next.injEq] at h
  subst h
  exact .dictAppend b len p0 l d n hph hp hl hroom hlen hd hn (by simpa using hfit)

theorem effect_dictLit {b : BitVec 8} (hph : s.phase = .dict) (h : execDictLit b s = .next t) : Effect p s t := by
  obtain ⟨p0, l, hp, hl, ⟨hroom, h⟩ | ⟨-, h⟩⟩ := takeBytes_next h
  · exact effect_dictAppend hph hp hl hroom (.inl rfl) h
  · exact effect_fault (by rw [hph]; rfl) (by rw [hph]; decide) rfl h

theorem effect_dictEsc (hph : s.phase = .dict) (h : execDictEsc s = .next t) : Effect p s t := by
  obtain ⟨p0, l, hp, hl, ⟨hroom, h⟩ | ⟨-, h⟩⟩ := takeBytes_next h
  · obtain ⟨e, -, h⟩ := withReg_next.mp h
    exact effect_dictAppend hph hp hl hroom (.inr rfl) h
  · exact effect_fault (by rw [hph]; rfl) (by rw [hph]; decide) rfl h

theorem effect_dictCopy {o count : BitVec 8} (hph : s.phase = .dict) (h : execDictCopy o count s = .next t) :
    Effect p s t := by
  have hw : s.phase.waits = false := by rw [hph]; rfl
  have hn : s.phase ≠ .chSetup := by rw [hph]; decide
  obtain ⟨p0, l, hp, hl, ⟨hroom, h⟩ | ⟨-, h⟩⟩ := takeBytes_next h
  swap; · exact effect_fault hw hn rfl h
  split at h
  · simp only [Host.Outcome.next.injEq] at h
    subst h
    exact .dictSkip p0 l hph hp hl hroom
  · rename_i hcount
    simp only [withReg_next] at h
    obtain ⟨e, he, d, hd, h⟩ := h
    split at h
    · exact effect_fault hw hn rfl (raise_next.mp h)
    · rename_i hback
      obtain ⟨n, hsize, h⟩ := withReg_next.mp h
      split at h
      · exact effect_fault hw hn rfl (raise_next.mp h)
      · rename_i hfit
        simp only [andThen_next, Host.Outcome.next.injEq] at h
        obtain ⟨plane, hcopy, rfl⟩ := h
        exact .dictCopy p0 l o count e d n plane hph hp hl hroom he hd hsize hcount (fun h => hback (.inl h))
          (by by_contra h; exact hback (.inr (by omega))) (by omega) hcopy

theorem effect_rleWrite {vs : List (BitVec 8)} {len : Nat} (hph : s.phase = .rle)
    (h : rleWrite vs len s = .next t) : Effect p s t := by
  have hw : s.phase.waits = false := by rw [hph]; rfl
  have hn : s.phase ≠ .chSetup := by rw [hph]; decide
  obtain ⟨p0, l, hp, hl, ⟨h1, h⟩ | ⟨-, h⟩⟩ := takeBytes_next h
  swap; · exact effect_fault hw hn rfl h
  simp only [withReg_next] at h
  obtain ⟨d, hd, n, hsize, h⟩ := h
  split at h
  · exact effect_fault hw hn rfl (raise_next.mp h)
  · rename_i hfit
    obtain ⟨p1, l1, hp1, hl1, ⟨h2, h⟩ | ⟨-, h⟩⟩ := takeBytes_next h
    swap; · exact effect_fault hw hn rfl h
    simp only [State.setInPos_inPos, State.setInPos_inLimit, Option.some.injEq] at hp1 hl1
    subst hp1
    rw [hl] at hl1
    obtain rfl := Option.some.inj hl1
    simp only [Host.Outcome.next.injEq] at h
    subst h
    have hlt := l.isLt
    have q1 : (p0 + BitVec.ofNat 33 1).toNat = p0.toNat + 1 := by
      rw [BitVec.toNat_add, BitVec.toNat_ofNat]; omega
    have q2 : (p0 + BitVec.ofNat 33 1 + BitVec.ofNat 33 len).toNat = p0.toNat + 1 + len := by
      rw [BitVec.toNat_add, q1, BitVec.toNat_ofNat]; omega
    exact .rleWrite vs len p0 l _ d n hph hp hl (by omega) q2 hd hsize (by omega)

theorem effect_rleNop (hph : s.phase = .rle) (h : execRleNop s = .next t) : Effect p s t := by
  obtain ⟨p0, l, hp, hl, ⟨hroom, h⟩ | ⟨-, h⟩⟩ := takeBytes_next h
  · simp only [Host.Outcome.next.injEq] at h
    subst h
    exact .rleNop p0 l hph hp hl hroom
  · exact effect_fault (by rw [hph]; rfl) (by rw [hph]; decide) rfl h

theorem runToken_next {c : Ctx} (h : runToken c s = .next t) :
    ∃ i r, decode c (tokenBytes c s) = .token i r ∧ exec i s = .next t := by
  unfold runToken at h
  split at h
  · exact ⟨_, _, by assumption, h⟩
  · cases h

theorem effect_chSetup (hph : s.phase = .chSetup) (h : chSetupStep s = .next t) : Effect p s t := by
  simp only [chSetupStep, channelSetup, withReg_next, withVal_next] at h
  obtain ⟨js, hjs, i, hi, j, hj, h⟩ := h
  obtain ⟨tok, r, hdec, h⟩ := runToken_next h
  obtain ⟨k, hk, hcase⟩ := decode_pack_cases hdec
  have hpack : s.descPack = some k := by
    simp only [tokenBytes, State.channelFor_descPack] at hk
    cases hd : s.descPack with
    | none => simp [hd] at hk
    | some k' => simp only [hd, Option.toList_some, List.cons.injEq] at hk; rw [hk.1]
  rcases hcase with ⟨rfl, rfl⟩ | ⟨rfl, rfl⟩ | ⟨h1, h2, rfl⟩
  · simp only [exec, execPipeRle, State.channelFor_chLen, withReg_some, Host.Outcome.next.injEq] at h
    subst h
    exact .pipeRle js i j hph hjs hi hj hpack
  · simp only [exec, execPipeHufdict, Host.Outcome.next.injEq] at h
    subst h
    exact .pipeHuf js i j 0xA2 hph hjs hi hj hpack (by decide)
  · simp only [exec, execPipeHufrle, Host.Outcome.next.injEq] at h
    subst h
    have := Effect.pipeHuf (p := p) js i j k hph hjs hi hj hpack h1
    rwa [if_neg h2] at this

theorem effect_wait (hw : s.phase.waits = true) (h : waitForHost s = .next t) : Effect p s t := by
  unfold waitForHost at h
  split at h
  · rename_i hi
    simp only [Host.Outcome.next.injEq] at h
    subst h
    exact .wait hw hi
  · rename_i act rest hi
    unfold hostAct at h
    split at h
    · cases h
    · rename_i hb
      cases act with
      | load d image =>
        simp only [Host.Outcome.next.injEq] at h
        subst h
        exact .load d image rest hw hb hi
      | decodeImage =>
        simp only [startDecode] at h
        split at h
        · rename_i hok
          simp only [withReg_next, Host.Outcome.next.injEq] at h
          obtain ⟨w, hdw, hh, hdh, d, hdd, a, hda, r, hdr, g, hdg, b, hdb, rfl⟩ := h
          exact .start rest w hh d a r g b hw hb hi hok hdw hdh hdd hda hdr hdg hdb
        · cases h

theorem effect_fillCheck (hph : s.phase = .fillCheck) (h : fillCheck s = .next t) : Effect p s t := by
  simp only [fillCheck, withReg_next] at h
  obtain ⟨m, hm, n, hn, d, hd, h⟩ := h
  split at h
  · rename_i hdn
    subst hdn
    simp only [Host.Outcome.next.injEq] at h
    subst h
    exact .fillOk m d hph hm hn hd
  · exact effect_fault (by rw [hph]; rfl) (by rw [hph]; decide) rfl (raise_next.mp h)

theorem effect_scatter (hph : s.phase = .scatter) (h : pipeScatter s = .next t) : Effect p s t := by
  simp only [pipeScatter, withReg_next, andThen_next, Host.Outcome.next.injEq] at h
  obtain ⟨c, hc, b, hb, w, hw, hh, hdh, n, hn, pix, hloop, rfl⟩ := h
  exact .scatter c b w hh n pix hph hc hb hw hdh hn hloop

theorem effect_channelNext (hph : s.phase = .chNext) (h : channelNext s = .next t) : Effect p s t := by
  simp only [channelNext, withReg_next] at h
  obtain ⟨js, hjs, i, hi, h⟩ := h
  split at h
  · rename_i hlast
    simp only [withReg_next, Host.Outcome.next.injEq] at h
    obtain ⟨f, hf, rfl⟩ := h
    exact .imageDone js i f hph hjs hi hlast hf
  · rename_i hmore
    simp only [Host.Outcome.next.injEq] at h
    subst h
    exact .nextChannel js i hph hjs hi hmore

/-- A step that answers a next state has one of the listed effects. -/
theorem stepWith_effect (h : stepWith p s = .next t) : Effect p s t := by
  unfold stepWith at h
  split at h
  case h_1 hph => exact effect_wait (by rw [hph]; rfl) h
  case h_2 hph => exact effect_chSetup hph h
  case h_3 hph =>
    obtain ⟨i, r, hdec, h⟩ := runToken_next h
    obtain ⟨u, pk, fs, rfl, hfs⟩ := decode_hufHeader_cases hdec
    exact effect_hufHeader (pk := pk) hph hfs h
  case h_4 hph => exact effect_merge hph h
  case h_5 hph =>
    simp only [hufDecodeStep, withReg_next] at h
    obtain ⟨cnt, hcnt, u, hu, h⟩ := h
    split at h
    · rename_i heq
      subst heq
      exact effect_hufEnd hph hcnt hu h
    · obtain ⟨q, -, h⟩ := withReg_next.mp h
      obtain ⟨i, r, hdec, h⟩ := runToken_next h
      have : i = .hufBit0 ∨ i = .hufBit1 := by
        unfold bitCtx at hdec
        split at hdec
        · exact decode_hufBit_cases hdec
        · exact decode_hufBit_cases hdec
      rcases this with rfl | rfl
      · exact effect_hufBit0 hph h
      · exact effect_hufBit1 hph h
  case h_6 hph =>
    obtain ⟨i, r, hdec, h⟩ := runToken_next h
    obtain ⟨e, rfl⟩ := decode_dictHeader_cases hdec
    exact effect_dictHeader hph h
  case h_7 hph =>
    simp only [dictStep, withReg_next] at h
    obtain ⟨d, hd, n, hn, h⟩ := h
    split at h
    · rename_i heq
      subst heq
      simp only [dictEnd, Host.Outcome.next.injEq] at h
      subst h
      exact .dictEnd d hph hd hn
    · obtain ⟨e, -, h⟩ := withReg_next.mp h
      obtain ⟨i, r, hdec, h⟩ := runToken_next h
      obtain ⟨b, rfl⟩ | rfl | ⟨o, c, rfl⟩ := decode_dict_cases hdec
      · exact effect_dictLit hph h
      · exact effect_dictEsc hph h
      · exact effect_dictCopy hph h
  case h_8 hph =>
    simp only [rleStep, withReg_next] at h
    obtain ⟨p0, hp, b, hb, n, hn, h⟩ := h
    split at h
    · obtain ⟨i, r, hdec, h⟩ := runToken_next h
      obtain rfl | ⟨vs, rfl⟩ | ⟨m, v, rfl⟩ := decode_rle_cases hdec
      · exact effect_rleNop hph h
      · exact effect_rleWrite hph h
      · exact effect_rleWrite hph h
    · rename_i hdone
      simp only [rleEnd, Host.Outcome.next.injEq] at h
      subst h
      exact .rleEnd p0 b n hph hp hb hn (by omega)
  case h_9 hph => exact effect_fillCheck hph h
  case h_10 hph => exact effect_scatter hph h
  case h_11 hph => exact effect_channelNext hph h
  case h_12 hph => exact effect_wait (by rw [hph]; rfl) h
  case h_13 hph => exact effect_wait (by rw [hph]; rfl) h

end Meanings

end Sys2Proof.Machine
end

