-- ==== Sys2Proof/Tests/Slice0.lean ====
section
/-! SUPPORT. The model's own tests: well-formedness, decoding, one step of each token, and a witness for the hypotheses of
every statement. Expected results are the spec's (spec/95_test_vectors.md, or worked out from the rule named). -/

namespace Sys2Proof.Tests

open Sys2Proof.Machine

/-! ## Well-formedness: an ill-formed term for each check (30_encoding R94, R95, R98, R100) -/

/-- Every token is refused outside its own format. -/
theorem test_wf_wrong_format :
    Instr.wf .rle .pipeRle = false ∧ Instr.wf .rle .pipeHufdict = false ∧ Instr.wf .rle (.pipeHufrle 0xA1) = false ∧
    Instr.wf .dictHeader (.hufHeader 0 0 []) = false ∧ Instr.wf .rle .hufBit0 = false ∧
    Instr.wf .rle .hufBit1 = false ∧ Instr.wf .pack (.dictHeader 0) = false ∧ Instr.wf .rle (.dictLit 1) = false ∧
    Instr.wf .pack .dictEsc = false ∧ Instr.wf .rle (.dictCopy 1 1) = false ∧ Instr.wf .pack .rleNop = false ∧
    Instr.wf (.dict 0) (.rleLit [1]) = false ∧ Instr.wf .pack (.rleRun 0 0) = false := by decide

/-- `PIPE.HUFRLE` is no spelling of the two pack types the other rows match (R94). -/
theorem test_wf_pack_types :
    Instr.wf .pack (.pipeHufrle 0x01) = false ∧ Instr.wf .pack (.pipeHufrle 0xA2) = false ∧
    Instr.wf .pack (.pipeHufrle 0xA1) = true ∧ Instr.wf .pack (.pipeHufrle 0x00) = true := by decide

/-- A Huffman header has exactly 256 frequencies (R95). -/
theorem test_wf_frequencies :
    Instr.wf .hufHeader (.hufHeader 0 0 (List.replicate 3 0)) = false ∧
    Instr.wf .hufHeader (.hufHeader 0 0 (List.replicate 256 0)) = true := by
  constructor
  · decide
  · simp only [Instr.wf, List.length_replicate]
    rfl

/-- Under marker `E`, a literal and a raw offset are never `E` (R98). -/
theorem test_wf_marker :
    Instr.wf (.dict 0xFE) (.dictLit 0xFE) = false ∧ Instr.wf (.dict 0xFE) (.dictCopy 0xFE 1) = false ∧
    Instr.wf (.dict 0xFE) (.dictLit 0xFF) = true ∧ Instr.wf (.dict 0xFE) (.dictCopy 0xFF 0) = true := by decide

/-- A literal string has 1 to 127 bytes (R100). -/
theorem test_wf_literal_length :
    Instr.wf .rle (.rleLit []) = false ∧ Instr.wf .rle (.rleLit (List.replicate 128 0)) = false ∧
    Instr.wf .rle (.rleLit [7]) = true ∧ Instr.wf .rle (.rleLit (List.replicate 127 0)) = true := by
  refine ⟨by decide, ?_, by decide, ?_⟩ <;> simp [Instr.wf]

/-! ## Decoding: words written out from the encoding tables -/

/-- The pack types, one byte each (R94). -/
theorem test_decode_pack :
    decode .pack [0b00000001] = .token .pipeRle [] ∧ decode .pack [0b10100010] = .token .pipeHufdict [] ∧
    decode .pack [0b10100001] = .token (.pipeHufrle 0xA1) [] ∧ decode .pack [0b11111111] = .token (.pipeHufrle 0xFF) [] ∧
    decode .pack [] = .rejected .tokenCutShort := by decide

/-- `unpackedSize` 05 00 00 00 is 5, and 0D 04 00 00 is 0x40D: little-endian, the first byte least significant (R11, R95). -/
theorem test_decode_u32 :
    takeU32 [0x05, 0, 0, 0, 0x09] = some (5, [0x09]) ∧ takeU32 [0x0D, 0x04, 0, 0] = some (0x40D, []) ∧
    takeU32 [0x44, 0x33, 0x22, 0x11] = some (0x11223344, []) ∧ takeU32 [1, 2, 3] = none := by decide

/-- Two frequencies in index order, the bytes after them left over (R95). -/
theorem test_decode_frequencies :
    takeU32s 2 [4, 0, 0, 0, 0, 2, 0, 0, 9] = some ([4, 0x200], [9]) := by decide

/-- A Huffman header cut off inside a frequency is no token (R95, R102). -/
theorem test_decode_huf_header_short :
    decode .hufHeader [5, 0, 0, 0, 9, 0, 0, 0, 1, 0, 0] = .rejected .tokenCutShort := by decide

/-- The bits of B4 = 10110100, least significant first: 0 0 1 0 1 1 0 1 (R96, V-BR-1). -/
theorem test_decode_code_bits :
    (List.finRange 8).map (fun q => decode (.hufBit q) [0b10110100]) =
      [.token .hufBit0 [], .token .hufBit0 [], .token .hufBit1 [], .token .hufBit0 [], .token .hufBit1 [],
       .token .hufBit1 [], .token .hufBit0 [], .token .hufBit1 []] := by decide

/-- Byte 8 of the dictionary header is the marker; the other 11 bytes are not looked at (R97, L1-4). -/
theorem test_decode_dict_header :
    decode .dictHeader [1, 2, 3, 4, 5, 6, 7, 8, 0xFF, 9, 10, 11, 0x41] = .token (.dictHeader 0xFF) [0x41] := by decide

/-- The payload of L1-4 under marker FF: a literal, an escaped marker, a literal (R98). -/
theorem test_decode_dict_literals :
    decode (.dict 0xFF) [0x41, 0xFF, 0xFF, 0x42] = .token (.dictLit 0x41) [0xFF, 0xFF, 0x42] ∧
    decode (.dict 0xFF) [0xFF, 0xFF, 0x42] = .token .dictEsc [0x42] ∧
    decode (.dict 0xFF) [0xFF] = .rejected .tokenCutShort := by decide

/-- The copy FE 01 07 of V-DICT-2: raw offset 1, count 7 (R98, R99). -/
theorem test_decode_dict_copy :
    decode (.dict 0xFE) [0xFE, 0x01, 0x07] = .token (.dictCopy 0x01 0x07) [] ∧
    decode (.dict 0x00) [0x00, 0x02, 0x02] = .token (.dictCopy 0x02 0x02) [] := by decide

/-- The run-length tokens of L1-1 to L1-3 and the run of length 0 (R100, R101, R106). -/
theorem test_decode_rle :
    decode .rle [0b00000000] = .token .rleNop [] ∧
    decode .rle [0b00000011, 0xAA, 0xBB, 0xCC] = .token (.rleLit [0xAA, 0xBB, 0xCC]) [] ∧
    decode .rle [0b10000011, 0x5A] = .token (.rleRun 3 0x5A) [] ∧
    decode .rle [0b10000000, 0x55] = .token (.rleRun 0 0x55) [] ∧
    decode .rle [0b11111111, 0x33] = .token (.rleRun 127 0x33) [] := by decide

/-- The notation of R105, byte for byte. -/
theorem test_encode :
    encode .rle .rleNop = [0x00] ∧ encode .rle (.rleLit [0x11, 0x22]) = [0x02, 0x11, 0x22] ∧
    encode .rle (.rleRun 4 0x10) = [0x84, 0x10] ∧ encode (.dict 0xFF) .dictEsc = [0xFF, 0xFF] ∧
    encode (.dict 0xFE) (.dictCopy 1 7) = [0xFE, 1, 7] ∧ encode .dictHeader (.dictHeader 0xFE) =
      [0, 0, 0, 0, 0, 0, 0, 0, 0xFE, 0, 0, 0] := by decide

/-- The header of program P1: version 1, pack type 1, 2 by 2, 24 bits, regions of 0, 2, 5 and 6 bytes (R91, R92). -/
theorem test_parse_header :
    parseHeader [0x01, 0x01, 0x02, 0, 0x02, 0, 0x18, 0, 0, 0, 0x02, 0, 0, 0, 0x02, 0, 0, 0, 0, 0, 0x02, 0, 0, 0,
      0x05, 0, 0, 0, 0x06, 0, 0, 0] =
      some { version := 1, pack := 1, width := 2, height := 2, depth := 24, alen := 0, rlen := 2, glen := 5, blen := 6,
             fileSize := 32 } := by decide

/-! ## Small states -/

/-- A run-length stage over the bytes `bs` of SRC, in channel 0 with a plane of `size` bytes. -/
def rleState (bs : List Byte) (size : BitVec 32) : State :=
  { State.reset.placeInSrc bs.length bs with
    phase := .rle, pipeMode := some .rle, rleSrcSize := some (BitVec.ofNat 32 bs.length), rleDst := some 0
    planeSize := some size }

/-- A dictionary stage with the marker `e`, the payload `bs`, and the plane bytes `out` already written. -/
def dictState (e : Byte) (bs out : List Byte) (size : BitVec 32) : State :=
  { State.reset.placeInHout 12 bs.length bs with
    phase := .dict, pipeMode := some .hufdict, dictEsc := some e, dictDst := some (BitVec.ofNat 32 out.length)
    planeSize := some size, plane := Memory.ofBytes 0 out }

/-- A tree walk at node 508 with the children 4 and 256, over the bytes `bs`, an empty BitReader. -/
def walkState (bs : List Byte) : State :=
  { (State.reset.placeInSrc bs.length bs).attachBitReader with
    phase := .hufDecode, pipeMode := some .hufrle, hufNode := some 508, hufUnpacked := some 2, hufOutCnt := some 0
    left := [(508, 4)], right := [(508, 256)] }

/-- A build with two nodes left, 7 and 3, of frequencies 1 and 5 (R144). -/
def buildState : State :=
  { State.reset with
    phase := .hufBuild, statusState := .busy, chChan := some 1, hufNext := some 510, act := some [7, 3]
    freq := [(3, 5), (7, 1)] }

/-- A decode in progress of a 1 by 1 image of three raw channels of two bytes each: 81 AA, 81 BB, 81 CC. -/
def imgState : State :=
  { State.reset with
    phase := .chSetup, statusState := .busy
    descVersion := some 1, descPack := some 1, descWidth := some 1, descHeight := some 1, descDepth := some 24
    descAlen := some 0, descRlen := some 2, descGlen := some 2, descBlen := some 2, descFileSize := some 38
    hasAlpha := some false, bpp := some 3, outFormat := some .rgb24, planeSize := some 1, pixSize := some 3
    jobs := some (jobList false 0 2 2 2), jobIdx := some 0
    src := Memory.ofBytes 0 (List.replicate 32 0 ++ [0x81, 0xAA, 0x81, 0xBB, 0x81, 0xCC]) }

/-- What a step answers, tested. -/
def nextIs (o : Out) (check : State → Bool) : Bool :=
  match o with
  | .next t => check t
  | .fault _ => false
  | .refused _ => false

/-- The error the step reports (R245): the kind, the channel, the stage. -/
def faults (o : Out) (e : ErrKind) (channel : BitVec 2) (st : Stage) : Bool :=
  nextIs o fun t =>
    t.phase == .error && statusWord t == 3 && t.errCode == errKindCode e && t.errChannel == channel
      && t.errStage == stageCode st && t.pix == [] && t.plane == [] && t.hout == [] && t.inPos == none

/-! ## One step of each token -/

/-- L1-1: `03 AA BB CC` writes AA BB CC and consumes 4 bytes (R194). -/
theorem test_rle_lit : nextIs (exec (.rleLit [0xAA, 0xBB, 0xCC]) (rleState [0x03, 0xAA, 0xBB, 0xCC] 3)) (fun t =>
    t.plane == [(0, 0xAA), (1, 0xBB), (2, 0xCC)] && t.rleDst == some 3 && t.inPos == some 36) = true := by decide

/-- V-RLE-5: the third literal lies beyond `srcSize` (R194, 90 C1). -/
theorem test_rle_lit_short : faults (exec (.rleLit [0xAA, 0xBB, 0]) (rleState [0x03, 0xAA, 0xBB] 3)) .truncatedInput 0 .rle = true := by decide

/-- L1-2: `83 5A` writes 5A 5A 5A and consumes 2 bytes (R193). -/
theorem test_rle_run : nextIs (step (rleState [0x83, 0x5A] 3)) (fun t =>
    t.plane == [(0, 0x5A), (1, 0x5A), (2, 0x5A)] && t.rleDst == some 3 && t.inPos == some 34) = true := by decide

/-- `85` alone with a plane of 4: the overflow is met before the missing value byte (R193, R248). -/
theorem test_rle_run_overflow : faults (step (rleState [0x85] 4)) .outputOverflow 0 .rle = true := by decide

/-- L1-3: `00` writes nothing and consumes one byte (R195). -/
theorem test_rle_nop : nextIs (step (rleState [0x00] 1)) (fun t =>
    t.plane == [] && t.rleDst == some 0 && t.inPos == some 33 && t.phase == .rle) = true := by decide

/-- V-DICT-10's copy: under marker 10 the raw offset 11 is 16 back; here one byte of it (R175, R99). -/
theorem test_dict_copy_adjusted : nextIs
    (step (dictState 0x10 [0x10, 0x11, 0x01]
      [0xA0, 0xA1, 0xA2, 0xA3, 0xA4, 0xA5, 0xA6, 0xA7, 0xA8, 0xA9, 0xAA, 0xAB, 0xAC, 0xAD, 0xAE, 0xAF] 18)) (fun t =>
    t.plane.read 16 == some 0xA0 && t.dictDst == some 17 && t.inPos == some 15) = true := by decide

/-- V-DICT-4's copy: `FF 02 06` after 01 02 repeats them, reading bytes it wrote itself (R175, R276). -/
theorem test_dict_copy_overlap : nextIs (step (dictState 0xFF [0xFF, 0x02, 0x06] [0x01, 0x02] 8)) (fun t =>
    t.plane == [(0, 1), (1, 2), (2, 1), (3, 2), (4, 1), (5, 2), (6, 1), (7, 2)] && t.dictDst == some 8) = true := by
  decide

/-- L1-4: the literal 41 (R173). -/
theorem test_dict_lit : nextIs (step (dictState 0xFF [0x41, 0xFF, 0xFF] [] 3)) (fun t =>
    t.plane == [(0, 0x41)] && t.dictDst == some 1 && t.inPos == some 13) = true := by decide

/-- L1-4: the escaped marker writes FF for two bytes (R174). -/
theorem test_dict_esc : nextIs (step (dictState 0xFF [0xFF, 0xFF, 0x42] [0x41] 3)) (fun t =>
    t.plane == [(0, 0x41), (1, 0xFF)] && t.dictDst == some 2 && t.inPos == some 14) = true := by decide

/-- A dictionary stream at its header, its marker FF at index 8. -/
def dictHeaderState (n : Nat) : State :=
  { State.reset.placeInHout 0 n [0, 0, 0, 0, 0, 0, 0, 0, 0xFF] with phase := .dictHeader, pipeMode := some .hufdict }

/-- The example of R171: DICT_ESC = FF, IN_POS = 12, even when only 9 bytes are there. -/
theorem test_dict_header : nextIs (step (dictHeaderState 9)) (fun t =>
    t.dictEsc == some 0xFF && t.inPos == some 12 && t.dictDst == some 0 && t.phase == .dict) = true := by decide

/-- V-DICT-18: 8 bytes of Huffman output have no marker (R171). -/
theorem test_dict_header_short : faults (step (dictHeaderState 8)) .truncatedInput 0 .dict = true := by decide

/-- A bit 0 moves to the left child; it is a leaf, so byte 4 is out and the walk is at the root again (R148, R150). -/
theorem test_huf_bit0 : nextIs (step (walkState [0b10110100])) (fun t =>
    t.hout == [(0, 4)] && t.hufOutCnt == some 1 && t.hufNode == some 510 && t.brPos == some 1 && t.inPos == some 33) =
    true := by decide

/-- A bit 1 moves to the right child, an internal node; bit 2 of the byte was next, so no byte is read (R149, R131). -/
theorem test_huf_bit1 : nextIs (step ((walkState []).setBits 0b10110100 2)) (fun t =>
    t.hout == [] && t.hufNode == some 256 && t.brPos == some 3 && t.inPos == some 32) = true := by decide

/-- V-HUF-14: with a capacity of 4, an unpackedSize of 5 is CapacityExceeded (R141). -/
theorem test_huf_header_capacity :
    faults (hufHeader 4 5 [] (State.reset.placeInSrc 1032 [])) .capacityExceeded 0 .hufHeader = true := by decide

/-- A window of 1031 bytes ends inside the frequencies: MalformedTree (R141, V-HUF-12). -/
theorem test_huf_header_malformed :
    faults (hufHeader 100 1 [] (State.reset.placeInSrc 1031 [])) .malformedTree 0 .hufHeader = true := by decide

/-- Pack type 1 dispatches channel set-up to the run-length path, over the red region (R213, R214). -/
theorem test_pipe_rle : nextIs (step imgState) (fun t =>
    t.phase == .rle && t.pipeMode == some .rle && t.rleSrcSize == some 2 && t.inPos == some 32 && t.inLimit == some 34 &&
      t.chChan == some 0) = true := by decide

/-- Pack type A2 dispatches it to the Huffman and dictionary path (R213, R215). -/
theorem test_pipe_hufdict : nextIs (step { imgState with descPack := some 0xA2, freq := [(0, 5)], hout := [(0, 1)] }) (fun t =>
    t.phase == .hufHeader && t.pipeMode == some .hufdict && t.freq == [] && t.hout == [] && t.act == some []) = true := by
  decide

/-- Pack types A1 and 0 both take the Huffman and run-length path (R213, R216, V-PIPE-1). -/
theorem test_pipe_hufrle :
    nextIs (step { imgState with descPack := some 0xA1 }) (fun t => t.pipeMode == some .hufrle && t.phase == .hufHeader) =
      true ∧
    nextIs (step { imgState with descPack := some 0x00 }) (fun t => t.pipeMode == some .hufrle && t.phase == .hufHeader) =
      true := by decide

/-! ## The internal steps -/

/-- The merge of nodes 7 and 3 into 510: the first removed is the left child; one node is left, so the walk begins (R144). -/
theorem test_huf_merge : nextIs (stepWith .exact buildState) (fun t =>
    t.left == [(510, 7)] && t.right == [(510, 3)] && t.freq == [(3, 5), (7, 1), (510, 6)] && t.act == some [510] &&
      t.hufNext == some 511 && t.phase == .hufDecode && t.brPos == some 8 && t.hufNode == some 510) = true := by decide

/-- V-HUF-16 to V-HUF-18: FFFFFFFF + 2 under the three settings (R145). -/
theorem test_freq_add :
    freqAdd .wrap32 0xFFFFFFFF 2 = some 1 ∧ freqAdd .exact 0xFFFFFFFF 2 = some 4294967297 ∧
    freqAdd .fault 0xFFFFFFFF 2 = none := by decide

/-- A node of equal frequency goes after the entries that are there (R142, R274). -/
theorem test_insert_stable :
    insertKeyed 5 9 [(1, 7), (5, 3), (6, 2)] = [(1, 7), (5, 3), (5, 9), (6, 2)] := by decide

/-- V-PIPE-5: the scatter of a 3 by 2 plane into lane 3 of 4 (R218, R219). -/
theorem test_scatter : nextIs
    (step
      { State.reset with
        phase := .scatter, statusState := .busy, chChan := some 3, bpp := some 4, descWidth := some 3
        descHeight := some 2, pixSize := some 24, plane := Memory.ofBytes 0 [1, 2, 3, 4, 5, 6] }) (fun t =>
    t.pix == [(3, 4), (7, 5), (11, 6), (15, 1), (19, 2), (23, 3)] && t.phase == .chNext) = true := by decide

/-- V-PIPE-2 to V-PIPE-4: the job lists (R212, R93). -/
theorem test_job_list :
    (jobList true 10 20 30 40).map (fun j => (j.chan.toNat, j.fileOff.toNat, j.len.toNat)) =
      [(3, 32, 10), (0, 42, 20), (1, 62, 30), (2, 92, 40)] ∧
    (jobList false 10 20 30 40).map (fun j => (j.chan.toNat, j.fileOff.toNat, j.len.toNat)) =
      [(0, 42, 20), (1, 62, 30), (2, 92, 40)] := by decide

/-- The codes of STATUS: a finished RGBA image reads 06 (R28, 95 L3). -/
theorem test_status_word :
    statusWord { State.reset with statusState := .done, statusFormat := .rgba32 } = 6 ∧ statusWord State.reset = 0 := by
  decide

/-! ## A word placed for the next step (logs 5 and 6) -/

/-- A word placed after reset is the token the next step runs. -/
theorem test_placed_word :
    decodeTableWord 16 0x5A83 = some (.rleRun 3 0x5A) ∧
    nextIs (step (State.reset.withFetchWord 16 0x5A83)) (fun t => t.rleDst == some 3) = true ∧
    decodeTableWord 24 0x0701FE = some (.dictCopy 1 7) ∧ decodeTableWord 1 1 = some .hufBit1 := by decide

/-! ## Witnesses: a concrete state and operands that meet the hypotheses of each statement

Each theorem is named after its statement; several clauses over one input get a witness each, at the ends of their ranges. -/

/-- DecodeOfEncode: every token is well formed in some format, at the ends of its operands. -/
theorem test_witness_DecodeOfEncode :
    Instr.wf .pack .pipeRle = true ∧ Instr.wf .pack .pipeHufdict = true ∧ Instr.wf .pack (.pipeHufrle 0xFF) = true ∧
    Instr.wf (.hufBit 7) .hufBit0 = true ∧ Instr.wf (.hufBit 7) .hufBit1 = true ∧
    Instr.wf .dictHeader (.dictHeader 0xFF) = true ∧ Instr.wf (.dict 0) (.dictLit 0xFF) = true ∧
    Instr.wf (.dict 0) .dictEsc = true ∧ Instr.wf (.dict 0xFF) (.dictCopy 0 0xFF) = true ∧
    Instr.wf .rle .rleNop = true ∧ Instr.wf .rle (.rleLit [0]) = true ∧ Instr.wf .rle (.rleRun 127 0xFF) = true := by
  decide

/-- EncodeOfDecode: bytes that decode, in every format but the Huffman header's, which is `test_witness_TokenMapIsTotal`'s. -/
theorem test_witness_EncodeOfDecode :
    decode .pack [0x00] = .token (.pipeHufrle 0) [] ∧ decode (.hufBit 7) [0x80] = .token .hufBit1 [] ∧
    decode .dictHeader (List.replicate 12 0) = .token (.dictHeader 0) [] ∧
    decode (.dict 0) [0, 0xFF, 0xFF, 1] = .token (.dictCopy 0xFF 0xFF) [1] ∧
    decode .rle [0xFF, 0] = .token (.rleRun 127 0) [] := by decide

/-- TokenMapIsTotal: byte strings of exactly the length each clause asks for. -/
theorem test_witness_TokenMapIsTotal :
    127 ≤ ((0 : Byte) :: List.replicate 126 0).length ∧
    ∀ c : Ctx, c.longest ≤ (List.replicate c.longest (0 : Byte)).length := by
  refine ⟨?_, fun c => ?_⟩ <;> simp

/-- CopyOffsetIsBijective: raw offsets next to the marker, and the ends of the range. -/
theorem test_witness_CopyOffsetIsBijective :
    (0x11 : Byte) ≠ 0x10 ∧ (0x0F : Byte) ≠ 0x10 ∧ (0x00 : Byte) ≠ 0xFF ∧ (0xFF : Byte) ≠ 0x00 := by decide

/-- StepRunsDecodedToken, phase HUF_HEADER: a window of no bytes still decodes (the error is the meaning's). -/
theorem test_witness_StepRunsDecodedToken_hufHeader :
    let s : State := { State.reset.placeInSrc 0 [] with phase := .hufHeader }
    s.phase = .hufHeader ∧ ∃ i rest, decode .hufHeader (tokenBytes .hufHeader s) = .token i rest := by
  intro s
  refine ⟨rfl, ?_⟩
  have h : tokenBytes .hufHeader s = List.replicate 1032 0 := by
    have hp : ∀ n p, 32 ≤ p → peekBytes s .src 32 n p = List.replicate n 0 := by
      intro n
      induction n with
      | zero => intro p _; rfl
      | succ n ih =>
        intro p h
        rw [peekBytes, if_neg (by omega), ih (p + 1) (by omega), List.replicate_succ]
    exact hp 1032 32 (Nat.le_refl _)
  have hu : ∀ n, takeU32 (List.replicate (n + 4) 0) = some (0, List.replicate n 0) := fun n => rfl
  have hus : ∀ n m, takeU32s n (List.replicate (4 * n + m) 0) = some (List.replicate n 0, List.replicate m 0) := by
    intro n m
    induction n with
    | zero => rw [Nat.mul_zero, Nat.zero_add]; rfl
    | succ n ih =>
      rw [show 4 * (n + 1) + m = 4 * n + m + 4 by omega, takeU32s, hu]
      simp only [ih, List.replicate_succ]
  refine ⟨.hufHeader 0 0 (List.replicate 256 0), [], ?_⟩
  rw [h, decode, decodeHufHeader, show 1032 = 1028 + 4 from rfl, hu]
  simp only
  rw [show 1028 = 1024 + 4 from rfl, hu]
  simp only
  rw [show 1024 = 4 * 256 + 0 from rfl, hus]
  rfl

/-- StepRunsDecodedToken, the other phases. -/
theorem test_witness_StepRunsDecodedToken :
    ((dictHeaderState 9).phase = .dictHeader ∧
      decode .dictHeader (tokenBytes .dictHeader (dictHeaderState 9)) = .token (.dictHeader 0xFF) []) ∧
    ((walkState [0xB4]).phase = .hufDecode ∧ (walkState [0xB4]).hufOutCnt = some 0 ∧
      (walkState [0xB4]).hufUnpacked = some 2 ∧ (walkState [0xB4]).brPos = some 8 ∧
      decode (bitCtx 8) (tokenBytes (bitCtx 8) (walkState [0xB4])) = .token .hufBit0 []) ∧
    ((dictState 0xFF [0x41] [] 1).phase = .dict ∧ (dictState 0xFF [0x41] [] 1).dictDst = some 0 ∧
      (dictState 0xFF [0x41] [] 1).planeSize = some 1 ∧ (dictState 0xFF [0x41] [] 1).dictEsc = some 0xFF ∧
      decode (.dict 0xFF) (tokenBytes (.dict 0xFF) (dictState 0xFF [0x41] [] 1)) = .token (.dictLit 0x41) [0, 0]) ∧
    ((rleState [0x00] 1).phase = .rle ∧ (rleState [0x00] 1).inPos = some 32 ∧ (rleState [0x00] 1).inBase = some 32 ∧
      (rleState [0x00] 1).rleSrcSize = some 1) ∧
    (imgState.phase = .chSetup ∧ imgState.jobs = some (jobList false 0 2 2 2) ∧ imgState.jobIdx = some 0 ∧
      (jobList false 0 2 2 2)[0]?.isSome = true ∧ imgState.descPack = some 1 ∧
      decode .pack [1] = .token .pipeRle []) := by decide

/-- StepRunsDecodedToken, phase RLE: the control byte 00 decodes. -/
theorem test_witness_StepRunsDecodedToken_rle :
    ∃ rest, decode .rle (tokenBytes .rle (rleState [0x00] 1)) = .token .rleNop rest := ⟨_, rfl⟩

/-- TokenBytesAreUnderThePort: an empty BitReader, and one with a byte loaded; a window of one byte, which holds a value. -/
theorem test_witness_TokenBytesAreUnderThePort :
    (let s := walkState [0xB4]
     s.inSpace = some .src ∧ s.inPos = some 32 ∧ s.inLimit = some 33 ∧ s.brPos = some 8 ∧
       ∀ a, 32 ≤ a → a < 33 → (portByte s .src a).isSome = true) ∧
    (let s := (walkState [0xB4]).setBits 1 7
     s.inSpace = some .src ∧ s.inPos = some 32 ∧ s.inLimit = some 33 ∧ s.brPos = some 7 ∧ (7 : Fin 9) ≠ 8 ∧
       ∀ a, 32 ≤ a → a < 33 → (portByte s .src a).isSome = true) := by decide

/-- WaitingKeepsEverything: the state after reset. -/
theorem test_witness_WaitingKeepsEverything : State.reset.phase.waits = true ∧ State.reset.inbox = [] := by decide

/-- The first channel of `imgState`, set up on the run-length path. -/
def rleRunState : State :=
  { imgState with
    chChan := some 0, chFileOff := some 32, chLen := some 2, inSpace := some .src, inBase := some 32, inPos := some 32
    inLimit := some 34, pipeMode := some .rle, rleSrcSize := some 2, rleDst := some 0, phase := .rle }

/-- PipeRleEntersRunLength: a channel with a length. -/
theorem test_witness_PipeRleEntersRunLength : rleRunState.chLen = some 2 := by decide

/-- ChannelSetupDispatches: the first job of `imgState`, under each pack type. -/
theorem test_witness_ChannelSetupDispatches :
    imgState.phase = .chSetup ∧ imgState.jobs = some (jobList false 0 2 2 2) ∧ imgState.jobIdx = some 0 ∧
    (jobList false 0 2 2 2)[(0 : BitVec 3).toNat]? = some { chan := 0, fileOff := 32, len := 2 } ∧
    imgState.descPack = some 0x01 ∧ ({ imgState with descPack := some 0xA2 } : State).descPack = some 0xA2 ∧
    ({ imgState with descPack := some 0xA1 } : State).descPack = some 0xA1 := by decide

/-- A run-length or dictionary channel at its fill check, with `d` of 4 bytes produced. -/
def fillState (m : PipeMode) (d : BitVec 32) : State :=
  { State.reset with
    phase := .fillCheck, statusState := .busy, chChan := some 2, pipeMode := some m, planeSize := some 4
    rleDst := some d, dictDst := some d }

/-- FillCheckDecides: the plane full, and one byte short, in both kinds of path. -/
theorem test_witness_FillCheckDecides (m : PipeMode) (d : BitVec 32) :
    (fillState m d).phase = .fillCheck ∧ (fillState m d).pipeMode = some m ∧ (fillState m d).planeSize = some 4 ∧
      (if m = .hufdict then (fillState m d).dictDst else (fillState m d).rleDst) = some d ∧
      (fillState m d).chChan = some 2 ∧ (4 : BitVec 32) = 4 ∧ (3 : BitVec 32) ≠ 4 := by
  refine ⟨rfl, rfl, rfl, ?_, rfl, rfl, by decide⟩
  cases m <;> rfl

/-- V-PIPE-8: a plane one byte short is PlaneUnderfill in FILL_CHECK; a full one goes to the scatter (R217). -/
theorem test_fill_check :
    faults (step (fillState .rle 3)) .planeUnderfill 2 .fillCheck = true ∧
    nextIs (step (fillState .hufdict 4)) (fun t => t.phase == .scatter) = true := by decide

/-- ScatterFlipsRows: the plane of V-PIPE-5. -/
theorem test_witness_ScatterFlipsRows :
    let s : State :=
      { State.reset with
        phase := .scatter, statusState := .busy, chChan := some 3, bpp := some 4, descWidth := some 3
        descHeight := some 2, pixSize := some 24, plane := Memory.ofBytes 0 [1, 2, 3, 4, 5, 6] }
    s.phase = .scatter ∧ s.chChan = some 3 ∧ s.bpp = some 4 ∧ s.descWidth = some 3 ∧ s.descHeight = some 2 ∧
      s.pixSize = some 24 ∧ (3 : BitVec 2).toNat < (4 : BitVec 3).toNat ∧
      (24 : BitVec 34).toNat = (3 : BitVec 16).toNat * (2 : BitVec 16).toNat * (4 : BitVec 3).toNat ∧
      ∀ a, a < 6 → (s.plane.read a).isSome = true := by decide

/-- The last channel of `imgState` done, all three bytes of the pixel written. -/
def lastChannelState : State :=
  { imgState with phase := .chNext, jobIdx := some 2, pix := [(0, 0xAA), (1, 0xBB), (2, 0xCC)] }

/-- ChannelAdvance: the last job, and the one before it. -/
theorem test_witness_ChannelAdvance :
    lastChannelState.phase = .chNext ∧ lastChannelState.jobs = some (jobList false 0 2 2 2) ∧
    lastChannelState.jobIdx = some 2 ∧ lastChannelState.outFormat = some .rgb24 ∧
    (2 : BitVec 3).toNat + 1 = (jobList false 0 2 2 2).length ∧ (1 : BitVec 3).toNat + 1 ≠ (jobList false 0 2 2 2).length ∧
    ({ lastChannelState with jobIdx := some 1 } : State).jobIdx = some 1 := by decide

/-- BitReaderReadsLsbFirst: 16 bits are in a window of two bytes, the 17th is not. -/
theorem test_witness_BitReaderReadsLsbFirst :
    let s := walkState [0xB4, 0x01]
    s.brPos = some 8 ∧ s.inSpace = some .src ∧ s.inPos = some 32 ∧ s.inLimit = some 34 ∧
      (∀ a, 32 ≤ a → a < 34 → (portByte s .src a).isSome = true) ∧ s.chChan = some 0 ∧
      32 + (16 + 7) / 8 ≤ 34 ∧ 34 < 32 + (17 + 7) / 8 := by decide

/-- HufHeaderSeedsTheBuild: a window of exactly 1032 bytes and one byte to put out, which every capacity admits; and for the
errors, windows at the last length of each, with a capacity of 4. -/
theorem test_witness_HufHeaderSeedsTheBuild :
    (List.replicate 256 (0 : Word32)).length = 256 ∧
    ((State.reset.placeInSrc 1032 []).inPos = some 32 ∧ (State.reset.placeInSrc 1032 []).inLimit = some 1064 ∧
      (32 : BitVec 33).toNat + 1032 ≤ (1064 : BitVec 33).toNat) ∧
    (1 : Word32).toNat ≤ Config.houtCapacity ∧
    (∀ n ∈ [3, 4, 7, 8, 1031], (State.reset.placeInSrc n []).inPos = some 32 ∧
      (State.reset.placeInSrc n []).inLimit = some (BitVec.ofNat 33 (32 + n)) ∧
      (State.reset.placeInSrc n []).chChan = some 0) ∧
    (4 < (5 : Word32).toNat ∧ (4 : Word32).toNat ≤ 4) := by
  refine ⟨List.length_replicate, by decide, ?_, by decide, by decide⟩
  exact Nat.le_max_left 1 _

/-- InsertStablePosition: node 9 of frequency 5 among entries of frequencies 1, 5 and 6. -/
theorem test_witness_InsertStablePosition :
    let freq : List (Nat × Nat) := [(2, 6), (3, 5), (7, 1), (9, 5)]
    (cellGet freq (9 : BitVec 9).toNat).isSome = true ∧
      ∀ x ∈ [(7 : BitVec 9), 3, 2], (cellGet freq x.toNat).isSome = true := by decide

/-- HeaderGivesSortedLeaves: a header whose window has 1032 bytes enters the build. -/
theorem test_witness_HeaderGivesSortedLeaves : (List.replicate 256 (0 : Word32)).length = 256 ∧
    ∃ t, exec (.hufHeader 1 0 (List.replicate 256 0)) (State.reset.placeInSrc 1032 []) = .next t ∧
      t.phase = .hufBuild := by
  refine ⟨List.length_replicate, ?_⟩
  have hc : ¬ (1 : Word32).toNat > Config.houtCapacity := Nat.not_lt.mpr (Nat.le_max_left 1 _)
  generalize List.replicate 256 (0 : Word32) = fs
  rw [exec, execHufHeader, hufHeader, takeBytes_room (p := 32) (l := 1064) rfl rfl (by decide), if_neg hc,
    takeBytes_room (p := 36) (l := 1064) rfl rfl (by decide),
    takeBytes_room (p := 40) (l := 1064) rfl rfl (by decide)]
  exact ⟨_, rfl, rfl⟩

/-- A build with three nodes left, 7, 3 and 5. -/
def buildState3 : State :=
  { buildState with hufNext := some 509, act := some [7, 3, 5], freq := [(3, 5), (5, 5), (7, 1)] }

/-- A build whose last sum is 2^32. -/
def buildStateBig : State := { buildState with freq := [(3, 0xFFFFFFFF), (7, 1)] }

/-- MergeMakesTheNextNode: the last merge, one before it, and a sum that the setting fault does not admit. -/
theorem test_witness_MergeMakesTheNextNode :
    (buildState.phase = .hufBuild ∧ buildState.act = some [7, 3] ∧ buildState.hufNext = some 510 ∧
      cellGet buildState.freq 7 = some 1 ∧ cellGet buildState.freq 3 = some 5 ∧ freqAdd .fault 1 5 = some 6) ∧
    (buildState3.phase = .hufBuild ∧ buildState3.act = some [7, 3, 5] ∧ buildState3.hufNext = some 509 ∧
      cellGet buildState3.freq 7 = some 1 ∧ cellGet buildState3.freq 3 = some 5 ∧
      (∀ x ∈ [(5 : BitVec 9)], (cellGet buildState3.freq x.toNat).isSome = true)) ∧
    (buildStateBig.phase = .hufBuild ∧ buildStateBig.act = some [7, 3] ∧ buildStateBig.hufNext = some 510 ∧
      cellGet buildStateBig.freq 7 = some 1 ∧ cellGet buildStateBig.freq 3 = some 0xFFFFFFFF ∧
      freqAdd .fault 1 0xFFFFFFFF = none ∧ buildStateBig.chChan = some 1) := by decide

/-- V-HUF-18: under the setting fault the sum 2^32 is FrequencyOverflow in HUF_BUILD (R145). -/
theorem test_huf_merge_overflow :
    faults (stepWith .fault buildStateBig) .frequencyOverflow 1 .hufBuild = true ∧
    nextIs (stepWith .wrap32 buildStateBig) (fun t => cellGet t.freq 510 == some 0) = true := by decide

/-- BuildOrderKept, and the premises of BuildTakesOneMergePerEntry: two nodes left, in order. -/
theorem test_witness_BuildOrderKept : buildState.phase = .hufBuild ∧ buildState.BuildOrder ∧
    (∃ t, stepWith .wrap32 buildState = .next t) ∧ FreqOverflow.wrap32 ≠ .fault ∧ buildState.act = some [7, 3] ∧
    2 ≤ [(7 : BitVec 9), 3].length := by
  refine ⟨rfl, ⟨[7, 3], 510, [(1, 7), (5, 3)], rfl, rfl, rfl, ?_, by decide, by decide⟩, ⟨_, rfl⟩, by decide, rfl,
    by decide⟩
  simp [keyedBefore]

/-- SettingsAgreeBelow32Bits: frequencies 1 and 5, and the greatest sum allowed. -/
theorem test_witness_SettingsAgreeBelow32Bits :
    buildState.act = some [7, 3] ∧ buildState.hufNext = some 510 ∧
    (∀ x ∈ [(7 : BitVec 9), 3], x.toNat < (510 : BitVec 10).toNat) ∧
    keyed buildState.freq [7, 3] = .next [(1, 7), (5, 3)] ∧
    ([(1, 7), (5, (3 : BitVec 9))].map Prod.fst).sum ≤ 2 ^ 32 - 1 ∧
    keyed [(3, 0xFFFFFFFE), (7, 1)] [7, 3] = .next [(1, 7), (0xFFFFFFFE, 3)] ∧
    ([(1, 7), (0xFFFFFFFE, (3 : BitVec 9))].map Prod.fst).sum ≤ 2 ^ 32 - 1 :=
  ⟨rfl, rfl, by decide, rfl, by decide, rfl, by decide⟩

/-- A walk at node 508 with these children. -/
def walkTo (s : State) (l r : BitVec 9) : State := { s with left := [(508, l)], right := [(508, r)] }

/-- HufBit0MovesLeft and HufBit1MovesRight: the last bit of a loaded byte, and the first bit of the next byte; a leaf
(255, the greatest) and the first internal node (256) on either side; and a window with no byte left. -/
theorem test_witness_HufBits :
    (∃ s1, BitTaken ((walkState []).setBits 0x7F 7) false s1) ∧ (∃ s1, BitTaken ((walkState []).setBits 0x80 7) true s1) ∧
    (∃ s1, BitTaken (walkState [0xFE]) false s1) ∧ (∃ s1, BitTaken (walkState [0x01]) true s1) ∧
    (∀ s ∈ [(walkState []).setBits 0x7F 7, (walkState []).setBits 0x80 7, walkState [0xFE], walkState [0x01]],
      ∀ c ∈ [(255 : BitVec 9), 256],
        (walkTo s c c).hufNode = some 508 ∧ cellGet (walkTo s c c).left (508 : BitVec 9).toNat = some c ∧
        cellGet (walkTo s c c).right (508 : BitVec 9).toNat = some c ∧ (walkTo s c c).hufOutCnt = some 0 ∧
        (walkTo s c c).hufUnpacked = some 2) ∧
    ((walkState []).brPos = some 8 ∧ (walkState []).inPos = some 32 ∧ (walkState []).inLimit = some 32 ∧
      (walkState []).chChan = some 0) := by
  have h1 := BitTaken.loaded (s := (walkState []).setBits 0x7F 7) 7 0x7F (by decide) rfl rfl
  have h2 := BitTaken.loaded (s := (walkState []).setBits 0x80 7) 7 0x80 (by decide) rfl rfl
  have h3 := BitTaken.refill (s := walkState [0xFE]) 32 33 .src 0xFE rfl rfl rfl (by decide) rfl rfl
  have h4 := BitTaken.refill (s := walkState [0x01]) 32 33 .src 0x01 rfl rfl rfl (by decide) rfl rfl
  exact ⟨⟨_, h1⟩, ⟨_, h2⟩, ⟨_, h3⟩, ⟨_, h4⟩, by decide, by decide⟩

/-- V-HUF-13's end: no byte left for the next bit is TruncatedInput in HUF_DECODE (R131, R148). -/
theorem test_huf_bit_short : faults (step (walkState [])) .truncatedInput 0 .hufDecode = true := by decide

/-- HuffmanStageEnds: two of two bytes out, on either path. -/
theorem test_witness_HuffmanStageEnds : ∀ m ∈ [PipeMode.hufrle, .hufdict],
    let s : State := { walkState [0xB4] with hufOutCnt := some 2, pipeMode := some m }
    s.phase = .hufDecode ∧ s.hufOutCnt = some 2 ∧ s.hufUnpacked = some 2 ∧ s.pipeMode = some m := by decide

/-- DictHeaderSetsTheMarker: windows of 9 and of 8 bytes. -/
theorem test_witness_DictHeaderSetsTheMarker :
    (dictHeaderState 9).inLimit = some 9 ∧ 9 ≤ (9 : BitVec 33).toNat ∧
    (dictHeaderState 8).inLimit = some 8 ∧ (8 : BitVec 33).toNat ≤ 8 ∧ (dictHeaderState 8).chChan = some 0 ∧
    (dictHeaderState 9).phase = .dictHeader ∧ (dictHeaderState 9).inSpace = some .hout ∧
    portByte (dictHeaderState 9) .hout 8 = some 0xFF := by decide

/-- DictLiteralsAppendOneByte: windows of 0, 1 and 2 bytes, room for one byte of plane. -/
theorem test_witness_DictLiteralsAppendOneByte : ∀ bs ∈ [[], [(0x41 : Byte)], [0xFF, 0xFF]],
    let s := dictState 0xFF bs [] 1
    s.inPos = some 12 ∧ s.inLimit = some (BitVec.ofNat 33 (12 + bs.length)) ∧ s.dictEsc = some 0xFF ∧
      s.dictDst = some 0 ∧ s.planeSize = some 1 ∧ (0 : BitVec 32).toNat < (1 : BitVec 32).toNat ∧ s.chChan = some 0 := by
  decide

/-- DictCopyRepeatsEarlierBytes: three bytes and two in the window; two bytes produced of a plane of 8. A count of 0, a
copy that fills the plane (offset 2, count 6), an offset 0 (raw 0), an offset of 3 (one more than is there), a count of 7. -/
theorem test_witness_DictCopyRepeatsEarlierBytes :
    (let s := dictState 0xFE [0xFE, 2, 6] [1, 2] 8
     s.inPos = some 12 ∧ s.inLimit = some 15 ∧ s.dictEsc = some 0xFE ∧ s.dictDst = some 2 ∧ s.planeSize = some 8 ∧
       (∀ a, a < 2 → (s.plane.read a).isSome = true) ∧ s.chChan = some 0) ∧
    (dictState 0xFE [0xFE, 2] [1, 2] 8).inLimit = some 14 ∧
    (12 + 3 ≤ 15 ∧ 14 < 12 + 3 ∧ (0 : Byte) = 0 ∧ (6 : Byte) ≠ 0 ∧ 2 + 6 ≤ 8 ∧ 8 < 2 + 7 ∧
      2 = (if (0xFE : Byte).toNat < (2 : Byte).toNat then (2 : Byte).toNat - 1 else (2 : Byte).toNat) ∧
      0 = (if (0xFE : Byte).toNat < (0 : Byte).toNat then (0 : Byte).toNat - 1 else (0 : Byte).toNat) ∧
      3 = (if (0xFE : Byte).toNat < (3 : Byte).toNat then (3 : Byte).toNat - 1 else (3 : Byte).toNat) ∧ 2 < 3) := by
  decide

/-- DictStageEndsWhenFull: a plane of one byte, written. -/
theorem test_witness_DictStageEndsWhenFull :
    (dictState 0xFF [] [1] 1).phase = .dict ∧ (dictState 0xFF [] [1] 1).dictDst = some 1 ∧
    (dictState 0xFF [] [1] 1).planeSize = some 1 := by decide

/-- RleNopConsumesOneByte: a window of one byte. -/
theorem test_witness_RleNopConsumesOneByte :
    (rleState [0x00] 1).inPos = some 32 ∧ (rleState [0x00] 1).inLimit = some 33 ∧
    (32 : BitVec 33).toNat + 1 ≤ (33 : BitVec 33).toNat := by decide

/-- RleLitCopiesItsBytes: a literal that fills the window and the plane; a plane one byte short; a window one byte short. -/
theorem test_witness_RleLitCopiesItsBytes :
    (let s := rleState [0x02, 1, 2] 2
     s.inPos = some 32 ∧ s.inLimit = some 35 ∧ s.rleDst = some 0 ∧ s.planeSize = some 2 ∧ s.chChan = some 0) ∧
    (rleState [0x02, 1, 2] 1).planeSize = some 1 ∧ (rleState [0x02, 1] 2).inLimit = some 34 ∧
    (0 + [(1 : Byte), 2].length ≤ 2 ∧ 32 + 1 + [(1 : Byte), 2].length ≤ 35 ∧ 1 < 0 + [(1 : Byte), 2].length ∧
      34 < 32 + 1 + [(1 : Byte), 2].length) := by decide

/-- RleRunRepeatsItsByte: a run of 2 that fills the plane, a run of 0 at a full plane, a plane one byte short, and a window
without the value byte. -/
theorem test_witness_RleRunRepeatsItsByte :
    (let s := rleState [0x82, 7] 2
     s.inPos = some 32 ∧ s.inLimit = some 34 ∧ s.rleDst = some 0 ∧ s.planeSize = some 2 ∧ s.chChan = some 0) ∧
    (let s : State := { rleState [0x80, 7] 2 with rleDst := some 2 }
     s.rleDst = some 2 ∧ s.planeSize = some 2 ∧ 2 + (0 : BitVec 7).toNat ≤ 2) ∧
    (rleState [0x82, 7] 1).planeSize = some 1 ∧ (rleState [0x82] 2).inLimit = some 33 ∧
    (0 + (2 : BitVec 7).toNat ≤ 2 ∧ 32 + 2 ≤ 34 ∧ 1 < 0 + (2 : BitVec 7).toNat ∧ 33 < 32 + 2) := by decide

/-- A decode in progress meets the invariant's registers. -/
theorem imgState_imageOk : imgState.ImageOk where
  busy := rfl
  sizes := ⟨1, 1, 1, 3, 3, rfl, rfl, rfl, rfl, rfl, rfl, rfl⟩
  pack := by decide
  fmt := by decide
  jobs := ⟨jobList false 0 2 2 2, 0, 3, rfl, rfl, rfl, by decide, by decide, by decide⟩

/-- RunningNeverStops, EveryRunEnds: the start of a decode is safe. -/
theorem test_witness_RunningNeverStops : imgState.Running := imgState_imageOk

/-- The same, in the run-length stage of the first channel. -/
theorem test_witness_Running_rle : rleRunState.Running :=
  ⟨⟨rfl, imgState_imageOk.sizes, by decide, by decide, imgState_imageOk.jobs⟩,
    ⟨0, 3, .rle, rfl, rfl, by decide, rfl, jobList false 0 2 2 2, 0, ⟨0, 32, 2⟩, rfl, rfl, rfl, rfl⟩,
    ⟨.src, 32, 34, 32, rfl, rfl, rfl, rfl, by decide, by decide⟩, by decide, by decide,
    0, rfl, ⟨1, rfl, by decide⟩, by decide⟩

/-- RunLengthStageEnds: the stage at its end (2 of 2 bytes consumed), and at its start. -/
theorem test_witness_RunLengthStageEnds :
    (let s : State := { rleState [0x81, 7] 1 with inPos := some 34 }
     s.phase = .rle ∧ s.inPos = some 34 ∧ s.inBase = some 32 ∧ s.rleSrcSize = some 2 ∧
       (2 : BitVec 32).toNat ≤ (34 : BitVec 33).toNat - (32 : BitVec 33).toNat) ∧
    rleRunState.phase = .rle ∧ rleRunState.inPos = some 32 ∧ rleRunState.inBase = some 32 ∧
    rleRunState.rleSrcSize = some 2 ∧ rleRunState.Running ∧
    (32 : BitVec 33).toNat - (32 : BitVec 33).toNat < (2 : BitVec 32).toNat ∧
    ∃ t, stepWith .exact rleRunState = .next t :=
  ⟨by decide, rfl, rfl, rfl, rfl, test_witness_Running_rle, by decide, _, rfl⟩

/-- FaultEntryWipesTheDecode: a channel in progress. -/
theorem test_witness_FaultEntryWipesTheDecode : rleRunState.chChan = some 0 := by decide

/-- A 1 by 1 image of three raw channels, loaded, and a decode asked for. -/
def startState : State :=
  { State.reset.loaded
      { version := 1, pack := 1, width := 1, height := 1, depth := 24, alen := 0, rlen := 2, glen := 2, blen := 2
        fileSize := 38 }
      (List.replicate 32 0 ++ [0x81, 0xAA, 0x81, 0xBB, 0x81, 0xCC]) with
    inbox := [.decodeImage] }

/-- The same with an alpha channel of one byte and 32 bits per pixel. -/
def startStateAlpha : State :=
  { State.reset.loaded
      { version := 2, pack := 0xA1, width := 1, height := 1, depth := 32, alen := 1, rlen := 0, glen := 0, blen := 0
        fileSize := 33 }
      (List.replicate 33 0) with
    inbox := [.decodeImage] }

/-- ErrorStaysUntilTheNextStart: nothing asked for, and a start that is admitted. -/
theorem test_witness_ErrorStaysUntilTheNextStart :
    (let s := rleRunState.faultEntry .outputOverflow .rle 0
     s.phase = .error ∧ s.statusState = .error ∧ nextIs (stepWith .exact s) (fun t => t == s) = true) ∧
    (let s : State := { startState with phase := .error, statusState := .error, errCode := 4, errStage := 5 }
     s.phase = .error ∧ s.statusState = .error ∧ s.inbox.head? = some .decodeImage ∧
       nextIs (stepWith .exact s) (fun t => t.phase == .chSetup && t.errCode == 0) = true) := by decide

/-- CoreOkIsTheStartPrecondition: the registers of a loaded image. -/
theorem test_witness_CoreOkIsTheStartPrecondition :
    startState.descWidth = some 1 ∧ startState.descHeight = some 1 ∧ startState.descDepth = some 24 ∧
    startState.descAlen = some 0 ∧ startState.descRlen = some 2 ∧ startState.descGlen = some 2 ∧
    startState.descBlen = some 2 ∧ startState.descFileSize = some 38 ∧ startState.src.wf = true := by decide

/-- StartBuildsTheJobs and StartIsSafe: a start without and with an alpha channel. -/
theorem test_witness_StartBuildsTheJobs : ∀ s ∈ [startState, startStateAlpha],
    s.phase.waits = true ∧ s.statusState ≠ .busy ∧ s.inbox = .decodeImage :: [] ∧ coreOk s = true ∧
      s.descWidth = some 1 ∧ s.descHeight = some 1 ∧ s.descDepth.isSome = true ∧ s.descAlen.isSome = true ∧
      s.descRlen.isSome = true ∧ s.descGlen.isSome = true ∧ s.descBlen.isSome = true ∧ s.src.wf = true ∧
      s.descPack ≠ none := by decide

/-- BadStartIsRefused: a start after reset, when no descriptor is there, and a start of a loaded image 0 pixels wide. -/
theorem test_witness_BadStartIsRefused :
    ∀ s ∈ [({ State.reset with inbox := [.decodeImage] } : State), { startState with descWidth := some 0 }],
    s.phase.waits = true ∧ s.statusState ≠ .busy ∧ s.inbox = .decodeImage :: [] ∧ coreOk s = false := by decide

/-- HostInterface: a load asked for after reset; a decode in progress; a finished one with a byte in the pixel buffer. -/
theorem test_witness_HostInterface :
    (let s : State :=
      { State.reset with
        inbox := [.load { version := 0, pack := 0, width := 0, height := 0, depth := 0, alen := 0, rlen := 0, glen := 0,
                          blen := 0, fileSize := 1 } [7]] }
     s.phase.waits = true ∧ s.statusState ≠ .busy ∧ s.inbox ≠ []) ∧
    imgState.statusState = .busy ∧ State.reset.statusState ≠ .done ∧
    (let s : State := { lastChannelState with phase := .done, statusState := .done }
     s.statusState = .done ∧ s.pix.read 2 = some 0xCC) := by decide

/-- AcceptedFileMayStart: a file of a header alone, 1 pixel by 1, of 24 bits. -/
theorem test_witness_AcceptedFileMayStart :
    let image : List Byte := [1, 1, 0, 0, 0, 0, 24, 0, 0, 0, 1, 0, 0, 0, 1, 0] ++ List.replicate 16 0
    (∃ d, loadDescriptor image = some d ∧ 1 ≤ d.width.toNat ∧ 1 ≤ d.height.toNat) ∧ image.length < 2 ^ 32 := by
  refine ⟨⟨⟨1, 1, 1, 1, 24, 0, 0, 0, 0, 32⟩, ?_⟩, ?_⟩ <;> decide

/-- A step of `imgState`: the first channel is set up. -/
theorem test_step_imgState : step imgState = .next rleRunState := rfl

/-- CanonicalFormKept: a decode in progress. -/
theorem test_witness_CanonicalFormKept : imgState.Canonical ∧ ∃ t, step imgState = .next t :=
  ⟨by constructor <;> decide, _, test_step_imgState⟩

/-- StatusAndErrorsKept: a decode in progress, and one that ended in an error. -/
theorem test_witness_StatusAndErrorsKept :
    (imgState.StatusAgrees ∧ imgState.ErrorsLegal ∧ ∃ t, step imgState = .next t) ∧
    (let s := rleRunState.faultEntry .outputOverflow .rle 0
     s.StatusAgrees ∧ s.ErrorsLegal ∧ step s = .next s) :=
  ⟨⟨rfl, ⟨rfl, rfl, rfl⟩, _, test_step_imgState⟩, rfl, ⟨.outputOverflow, .rle, rfl, rfl, rfl⟩, rfl⟩

/-- CellsStayInBounds: the last channel done, three bytes in a pixel buffer of three, a file of 38 bytes. -/
theorem test_witness_CellsStayInBounds : lastChannelState.InBounds ∧ ∃ t, step lastChannelState = .next t := by
  refine ⟨⟨?_, ?_, ?_, ?_, ?_, ?_, ?_, ?_, ?_⟩, ⟨_, rfl⟩⟩
  · intro _ a h
    obtain ⟨c, hc, rfl⟩ := cellGet_isSome_mem h
    exact ⟨38, rfl, (by decide : ∀ c ∈ lastChannelState.src, c.1 < 38) c hc⟩
  · intro a h; cases h
  · intro a h
    refine ⟨3, rfl, ?_⟩
    rcases a with _ | _ | _ | a
    · decide
    · decide
    · decide
    · cases h
  · intro a h; cases h
  · intro u h; cases h
  · intro h; cases h
  · intro i h; cases h
  · intro i h; cases h
  · intro i h; cases h

/-- FrequenciesStay32Bits: a build whose sum needs 33 bits, under the setting wrap32. -/
theorem test_witness_FrequenciesStay32Bits : FreqOverflow.wrap32 ≠ .exact ∧ buildStateBig.FreqFits ∧
    ∃ t, stepWith .wrap32 buildStateBig = .next t := by
  refine ⟨by decide, ?_, ⟨_, rfl⟩⟩
  intro i f h
  simp only [buildStateBig, cellGet, cond_eq_ite] at h
  split at h
  · cases h; decide
  · split at h
    · cases h; decide
    · cases h

/-- UnwrittenHoldsNoValue: a channel set-up, from a state that holds an earlier Huffman stage's registers. -/
theorem test_witness_UnwrittenHoldsNoValue :
    let s : State := { imgState with descPack := some 0xA2, hufUnpacked := some 5, hufNext := some 511, act := some [510] }
    s.UnwrittenIsEmpty ∧ ∃ t, stepWith .exact s = .next t := by
  intro s
  refine ⟨⟨?_, ?_, ?_, ?_, ?_, ?_⟩, _, rfl⟩ <;> decide

/-- R43: a Huffman stage starts with its registers at no value, whatever an earlier channel left in them. -/
theorem test_huf_stage_starts_empty :
    nextIs (step { imgState with descPack := some 0xA1, hufUnpacked := some 5, hufNext := some 511, hufNode := some 510,
                                 hufOutCnt := some 5 }) (fun t =>
      t.hufUnpacked == none && t.hufNext == none && t.hufNode == none && t.hufOutCnt == none) = true := by decide

/-- R43: a dictionary stage starts with its registers at no value. -/
theorem test_dict_stage_starts_empty :
    nextIs (step { walkState [] with hufOutCnt := some 2, pipeMode := some .hufdict, dictEsc := some 7,
                                     dictDst := some 4 }) (fun t =>
      t.phase == .dictHeader && t.dictEsc == none && t.dictDst == none) = true := by decide

/-- OnlyTheirStagesWriteMemories: a decode in progress. -/
theorem test_witness_OnlyTheirStagesWriteMemories :
    imgState.phase.waits = false ∧ ∃ t, step imgState = .next t := ⟨rfl, _, test_step_imgState⟩

/-- DoneMeansWholeImage: a step to a running state, and the step that ends the decode. -/
theorem test_witness_DoneMeansWholeImage :
    (imgState.Running ∧ imgState.LanesFilled ∧ step imgState = .next rleRunState ∧ rleRunState.Running) ∧
    (lastChannelState.Running ∧ lastChannelState.LanesFilled ∧
      ∃ t, step lastChannelState = .next t ∧ t.phase = .done) := by
  refine ⟨⟨imgState_imageOk, ?_, test_step_imgState, test_witness_Running_rle⟩, ?_, ?_, _, rfl, rfl⟩
  · refine ⟨jobList false 0 2 2 2, 0, 3, 1, rfl, rfl, rfl, rfl, by decide, ?_⟩
    intro k j h
    exact absurd h (Nat.not_lt_zero k)
  · exact ⟨rfl, imgState_imageOk.sizes, by decide, by decide, jobList false 0 2 2 2, 2, 3, rfl, rfl, rfl, by decide,
      by decide, by decide⟩
  · refine ⟨jobList false 0 2 2 2, 2, 3, 1, rfl, rfl, rfl, rfl, by decide, ?_⟩
    intro k j _ h m hm
    obtain rfl : m = 0 := Nat.lt_one_iff.mp hm
    rcases k with _ | _ | _ | k
    · cases h; rfl
    · cases h; rfl
    · cases h; rfl
    · cases h

end Sys2Proof.Tests
end

/-! # The state family: frames of a step, the status and error registers, and what a stage has not written -/

namespace Sys2Proof.Machine

variable {p : FreqOverflow} {s t : State}

/-! ## Frames of the updates that carry a case split -/

/-- Taking a bit changes the input pointer and the BitReader and nothing else (40_bitreader R131). -/
theorem BitTaken.frame {bit : Bool} {s1 : State} (h : BitTaken s bit s1) :
    ∃ q b i, s1 = { s with inPos := q, brByte := some b, brPos := some i } := by
  cases h with
  | loaded q b hq => exact ⟨s.inPos, b, _, rfl⟩
  | refill p0 l sp v => exact ⟨some (p0 + 1), v, _, rfl⟩

/-- A merge that leaves more than one entry stays in the build. -/
theorem State.merged_more {n : BitVec 10} {l r : BitVec 9} {f : Nat} {act : List (BitVec 9)} (h : act.length ≠ 1) :
    s.merged n l r f act =
      { s with
        hufNext := some (n + 1), freq := cellSet s.freq n.toNat f, left := cellSet s.left n.toNat l
        right := cellSet s.right n.toNat r, act := some act } := by
  simp [State.merged, h]

/-- The last merge starts the walk at the root (41_huffman R144, 40_bitreader R132). -/
theorem State.merged_last {n : BitVec 10} {l r : BitVec 9} {f : Nat} {act : List (BitVec 9)} (h : act.length = 1) :
    s.merged n l r f act =
      { s with
        hufNext := some (n + 1), freq := cellSet s.freq n.toNat f, left := cellSet s.left n.toNat l
        right := cellSet s.right n.toNat r, act := some act, hufOutCnt := some 0, hufNode := some 510
        brByte := none, brPos := some 8, phase := .hufDecode } := by
  simp [State.merged, h, State.attachBitReader]

/-- Whether or not it is the last, a merge writes these fields of the arena. -/
@[simp] theorem State.merged_freq (n : BitVec 10) (l r : BitVec 9) (f : Nat) (act : List (BitVec 9)) :
    (s.merged n l r f act).freq = cellSet s.freq n.toNat f := by
  unfold State.merged
  split <;> rfl

@[simp] theorem State.merged_left (n : BitVec 10) (l r : BitVec 9) (f : Nat) (act : List (BitVec 9)) :
    (s.merged n l r f act).left = cellSet s.left n.toNat l := by
  unfold State.merged
  split <;> rfl

@[simp] theorem State.merged_right (n : BitVec 10) (l r : BitVec 9) (f : Nat) (act : List (BitVec 9)) :
    (s.merged n l r f act).right = cellSet s.right n.toNat r := by
  unfold State.merged
  split <;> rfl

/-! ## STATUS and the error registers -/

/-- In a phase of a decode in progress `STATUS.STATE` has to be `BUSY` (10_state R28, R33). -/
theorem statusAgrees_of_running (hw : s.phase.waits = false) : s.StatusAgrees ↔ s.statusState = .busy := by
  unfold State.StatusAgrees
  cases hph : s.phase <;> simp_all [Phase.waits]

/-- What a step does to `STATUS` and the error registers: the host's acts other than a start and the steps inside a decode
leave them alone, a start clears them, a fault reports, and the last channel ends the decode. -/
inductive StatusEffect (s t : State) : Prop
  | waits (hph : t.phase = s.phase) (hst : t.statusState = s.statusState) (hc : t.errCode = s.errCode)
      (hch : t.errChannel = s.errChannel) (hsg : t.errStage = s.errStage)
  | starts (hph : t.phase = .chSetup) (hst : t.statusState = .busy) (hc : t.errCode = 0) (hch : t.errChannel = 0)
      (hsg : t.errStage = 0)
  | faults (e : ErrKind) (st : Stage) (c : BitVec 2) (hrep : stageReports st e = true) (ht : t = s.faultEntry e st c)
  | runs (hw : s.phase.waits = false) (hph : t.phase.waits = false) (hst : t.statusState = s.statusState)
      (hc : t.errCode = s.errCode) (hch : t.errChannel = s.errChannel) (hsg : t.errStage = s.errStage)
  | ends (hw : s.phase.waits = false) (hph : t.phase = .done) (hst : t.statusState = .done) (hc : t.errCode = s.errCode)
      (hch : t.errChannel = s.errChannel) (hsg : t.errStage = s.errStage)

theorem Effect.statusEffect (h : Effect p s t) : StatusEffect s t := by
  cases h
  case wait => exact .waits rfl rfl rfl rfl rfl
  case load => exact .waits rfl rfl rfl rfl rfl
  case start => exact .starts rfl rfl rfl rfl rfl
  case fault e st c _ _ hrep _ => exact .faults e st c hrep rfl
  case imageDone hph _ _ _ _ => exact .ends (by simp [hph, Phase.waits]) rfl rfl rfl rfl rfl
  case walk hph hbit _ _ _ =>
    obtain ⟨q, b, i, rfl⟩ := hbit.frame
    exact .runs (by simp [hph, Phase.waits]) (by simp [hph, Phase.waits]) rfl rfl rfl rfl
  case emit hph hbit _ _ _ _ _ _ =>
    obtain ⟨q, b, i, rfl⟩ := hbit.frame
    exact .runs (by simp [hph, Phase.waits]) (by simp [hph, Phase.waits]) rfl rfl rfl rfl
  case merge act' _ _ _ _ hph _ _ _ _ _ _ _ _ =>
    by_cases h1 : act'.length = 1
    · rw [State.merged_last h1]; exact .runs (by simp [hph, Phase.waits]) rfl rfl rfl rfl rfl
    · rw [State.merged_more h1]
      exact .runs (by simp [hph, Phase.waits]) (by simp [hph, Phase.waits]) rfl rfl rfl rfl
  all_goals exact .runs (by simp [*, Phase.waits]) (by simp [*, Phase.waits]) rfl rfl rfl rfl

theorem StatusEffect.statusAgrees (h : StatusEffect s t) (hs : s.StatusAgrees) : t.StatusAgrees := by
  cases h with
  | waits hph hst => simpa only [State.StatusAgrees, hph, hst] using hs
  | starts hph hst => simpa only [State.StatusAgrees, hph] using hst
  | faults e st c _ ht => subst ht; rfl
  | runs hw hph hst =>
    rw [statusAgrees_of_running hph, hst]
    exact (statusAgrees_of_running hw).mp hs
  | ends _ hph hst => simpa only [State.StatusAgrees, hph] using hst

theorem StatusEffect.errorsLegal (h : StatusEffect s t) (hs : s.StatusAgrees) (he : s.ErrorsLegal) : t.ErrorsLegal := by
  cases h with
  | waits _ hst hc hch hsg => simpa only [State.ErrorsLegal, hst, hc, hch, hsg] using he
  | starts _ hst hc hch hsg => simp [State.ErrorsLegal, hst, hc, hch, hsg]
  | faults e st c hrep ht =>
    subst ht
    simpa [State.ErrorsLegal] using ⟨e, st, hrep, rfl, rfl⟩
  | runs _ _ hst hc hch hsg => simpa only [State.ErrorsLegal, hst, hc, hch, hsg] using he
  | ends hw _ hst hc hch hsg =>
    have hbusy := (statusAgrees_of_running hw).mp hs
    simpa [State.ErrorsLegal, hst, hc, hch, hsg, hbusy] using he

/-- Settles O46: `StatusEffect` lists what a step does to these registers. -/
theorem statusAndErrorsKept : Obligations.StatusAndErrorsKept := by
  intro s t hs he h
  have heff := (stepWith_effect h).statusEffect
  exact ⟨heff.statusAgrees hs, heff.errorsLegal hs he⟩

end Sys2Proof.Machine

namespace Sys2Proof.Machine

variable {p : FreqOverflow} {s t : State}

/-! ## What no step of a decode changes, and who writes the memories (10_state R45, 20_memory R60) -/

/-- `SRC`, the descriptor, the derived registers, the job list and the host's pending acts: what no step of a decode in
progress writes. -/
def State.image (s : State) :=
  (s.src, s.descVersion, s.descPack, s.descWidth, s.descHeight, s.descDepth, s.descAlen, s.descRlen, s.descGlen,
    s.descBlen, s.descFileSize, s.jobs, s.hasAlpha, s.bpp, s.outFormat, s.planeSize, s.pixSize, s.inbox)

@[simp] theorem State.merged_image (n : BitVec 10) (l r : BitVec 9) (f : Nat) (act : List (BitVec 9)) :
    (s.merged n l r f act).image = s.image := by
  by_cases h1 : act.length = 1
  · simp only [State.merged_last h1, State.image]
  · simp only [State.merged_more h1, State.image]

/-- A step of a decode in progress keeps the image's registers. -/
theorem Effect.image (h : Effect p s t) (hw : s.phase.waits = false) : t.image = s.image := by
  cases h
  case load hw' _ _ => rw [hw] at hw'; cases hw'
  case start hw' _ _ _ _ _ _ _ _ _ _ => rw [hw] at hw'; cases hw'
  case merge => exact State.merged_image ..
  case walk hbit _ _ _ => obtain ⟨q, b, i, rfl⟩ := hbit.frame; rfl
  case emit hbit _ _ _ _ _ _ => obtain ⟨q, b, i, rfl⟩ := hbit.frame; rfl
  all_goals rfl

/-- The memories, the arena and the list of active nodes are written by their own phases only, a fault apart. -/
structure OwnWrites (s t : State) : Prop where
  pix   : s.phase ≠ .scatter → t.pix = s.pix
  plane : s.phase ≠ .dict → s.phase ≠ .rle → s.phase ≠ .chSetup → t.plane = s.plane
  hout  : s.phase ≠ .hufDecode → s.phase ≠ .chSetup → t.hout = s.hout
  arena : s.phase ≠ .chSetup → s.phase ≠ .hufHeader → s.phase ≠ .hufBuild →
    t.freq = s.freq ∧ t.left = s.left ∧ t.right = s.right ∧ t.act = s.act

theorem Effect.ownWrites (h : Effect p s t) (hw : s.phase.waits = false) : t.phase = .error ∨ OwnWrites s t := by
  cases h
  case fault => exact .inl rfl
  case wait hw' _ => rw [hw] at hw'; cases hw'
  case load hw' _ _ => rw [hw] at hw'; cases hw'
  case start hw' _ _ _ _ _ _ _ _ _ _ => rw [hw] at hw'; cases hw'
  case merge act' _ _ _ _ hph _ _ _ _ _ _ _ _ =>
    by_cases h1 : act'.length = 1
    · rw [State.merged_last h1]; exact .inr (by constructor <;> simp [hph])
    · rw [State.merged_more h1]; exact .inr (by constructor <;> simp [hph])
  case walk hph hbit _ _ _ =>
    obtain ⟨q, b, i, rfl⟩ := hbit.frame
    exact .inr (by constructor <;> simp)
  case emit hph hbit _ _ _ _ _ _ =>
    obtain ⟨q, b, i, rfl⟩ := hbit.frame
    exact .inr (by constructor <;> simp [hph])
  all_goals exact .inr (by constructor <;> simp [*])

/-- Settles O49, by `Effect.image` and `Effect.ownWrites`. -/
theorem onlyTheirStagesWriteMemories : Obligations.OnlyTheirStagesWriteMemories := by
  intro s t hw h
  have heff := stepWith_effect h
  refine ⟨by simpa only [State.image, Prod.mk.injEq] using heff.image hw, (heff.ownWrites hw).imp_right ?_⟩
  rintro ⟨hpix, hplane, hhout, harena⟩
  exact ⟨hpix, hplane, hhout, harena⟩

/-! ## FREQ within 32 bits (10_state R36, 41_huffman R145) -/

/-- The ways a step writes `FREQ`: not at all, all of it to no value, the leaves, or one new node. -/
inductive FreqEffect (p : FreqOverflow) (s t : State) : Prop
  | kept (h : t.freq = s.freq)
  | wiped (h : t.freq = [])
  | leaves (fs : List (BitVec 32)) (h : t.freq = writeFreqs s.freq 0 fs)
  | node (n fl fr f : Nat) (hf : freqAdd p fl fr = some f) (h : t.freq = cellSet s.freq n f)

theorem Effect.freqEffect (h : Effect p s t) : FreqEffect p s t := by
  cases h
  case start => exact .wiped rfl
  case fault => exact .wiped rfl
  case pipeHuf => exact .wiped rfl
  case header fs _ _ _ _ _ _ _ _ _ _ => exact .leaves fs rfl
  case merge n fl fr f _ _ _ _ _ _ _ hf _ => exact .node n.toNat fl fr f hf (State.merged_freq ..)
  case walk hbit _ _ _ => obtain ⟨q, b, i, rfl⟩ := hbit.frame; exact .kept rfl
  case emit hbit _ _ _ _ _ _ => obtain ⟨q, b, i, rfl⟩ := hbit.frame; exact .kept rfl
  all_goals exact .kept rfl

/-- A sum that a setting other than `exact` admits fits 32 bits. -/
theorem freqAdd_lt {a b f : Nat} (hp : p ≠ .exact) (h : freqAdd p a b = some f) : f < 2 ^ 32 := by
  cases p with
  | exact => exact absurd rfl hp
  | wrap32 =>
    obtain rfl := Option.some.inj h
    exact Nat.mod_lt _ (by decide)
  | fault =>
    simp only [freqAdd] at h
    split at h
    · cases h
    · obtain rfl := Option.some.inj h
      omega

/-- Settles O48, by the ways a step writes `FREQ`. -/
theorem frequenciesStay32Bits : Obligations.FrequenciesStay32Bits := by
  intro p s t hp hs h i f hf
  cases (stepWith_effect h).freqEffect with
  | kept ht => exact hs i f (ht ▸ hf)
  | wiped ht => rw [ht] at hf; cases hf
  | leaves fs ht =>
    rw [ht, cellGet_writeFreqs] at hf
    split at hf
    · obtain ⟨w, -, rfl⟩ := Option.map_eq_some_iff.mp hf
      exact w.isLt
    · exact hs i f hf
  | node n fl fr g hg ht =>
    rw [ht, cellGet_cellSet] at hf
    split at hf
    · obtain rfl := Option.some.inj hf
      exact freqAdd_lt hp hg
    · exact hs i f hf

/-! ## Cells that nothing has written since their stage began (10_state R43) -/

/-- A state in a phase outside the Huffman stage and the dictionary header, whose BitReader and scatter registers hold no
value, has nothing else to keep empty. -/
theorem unwrittenIsEmpty_of_outside (hph : t.phase ≠ .hufHeader ∧ t.phase ≠ .hufBuild ∧ t.phase ≠ .hufDecode ∧
    t.phase ≠ .dictHeader) (hb : t.brByte = none ∧ t.brPos = none)
    (hs : t.scatY = none ∧ t.scatX = none ∧ t.scatDst = none) : t.UnwrittenIsEmpty := by
  obtain ⟨h1, h2, h3, h4⟩ := hph
  constructor <;> simp [*]

theorem Effect.unwrittenIsEmpty (h : Effect p s t) (hs : s.UnwrittenIsEmpty) : t.UnwrittenIsEmpty := by
  obtain ⟨hheader, hbuild, hdict, hplane, hbits, hscat⟩ := hs
  cases h
  case wait => exact ⟨hheader, hbuild, hdict, hplane, hbits, hscat⟩
  case load => exact ⟨hheader, hbuild, hdict, hplane, hbits, hscat⟩
  case start hw _ _ _ _ _ _ _ _ _ _ =>
    exact unwrittenIsEmpty_of_outside (by simp [State.started]) (hbits (by intro h; rw [h] at hw; cases hw)) hscat
  case pipeHuf hph _ _ _ _ _ =>
    have hb := hbits (by simp [hph])
    constructor <;> simp [*]
  case header hph _ _ _ _ _ _ =>
    have hb := hbits (by simp [hph])
    constructor <;> simp_all
  case merge act' _ _ _ _ hph _ _ _ _ _ _ _ _ =>
    have hb := hbits (by simp [hph])
    by_cases h1 : act'.length = 1
    · rw [State.merged_last h1]; constructor <;> simp_all
    · rw [State.merged_more h1]; constructor <;> simp_all
  case walk hph hbit _ _ _ =>
    obtain ⟨q, b, i, rfl⟩ := hbit.frame
    constructor <;> simp_all
  case emit hph hbit _ _ _ _ _ _ =>
    obtain ⟨q, b, i, rfl⟩ := hbit.frame
    constructor <;> simp_all
  case hufEndDict hph _ _ _ => constructor <;> simp_all
  case hufEndRle hph _ _ _ _ => exact unwrittenIsEmpty_of_outside (by simp) (by simp) hscat
  case fault => exact unwrittenIsEmpty_of_outside (by simp) (by simp) (by simp)
  case scatter hph _ _ _ _ _ _ => exact unwrittenIsEmpty_of_outside (by simp) (hbits (by simp [hph])) (by simp)
  all_goals
    exact unwrittenIsEmpty_of_outside (by simp [*]) (hbits (by simp [*])) hscat

/-- Settles O56: each effect leaves empty what its next phase asks to be empty. -/
theorem unwrittenHoldsNoValue : Obligations.UnwrittenHoldsNoValue :=
  fun _ _ _ hs h => (stepWith_effect h).unwrittenIsEmpty hs

end Sys2Proof.Machine

namespace Sys2Proof.Machine

variable {p : FreqOverflow} {s t : State}

/-! ## Reset, the status word and the step of a waiting phase -/

/-- Settles O38: every part is what `State.reset` writes. -/
theorem resetHoldsNoValues : Obligations.ResetHoldsNoValues := by
  unfold Obligations.ResetHoldsNoValues
  exact ⟨rfl, rfl, rfl, rfl, rfl, rfl, rfl, rfl, rfl, rfl, rfl, rfl, fun _ => ⟨rfl, rfl, rfl⟩,
    fun _ => ⟨rfl, rfl, rfl, rfl⟩⟩

theorem reset_canonical : State.reset.Canonical := by constructor <;> rfl

theorem reset_inBounds : State.reset.InBounds := by constructor <;> simp [State.reset]

theorem reset_unwrittenIsEmpty : State.reset.UnwrittenIsEmpty := by constructor <;> simp [State.reset]

/-- Settles O44, one invariant at a time. -/
theorem invariantsAtReset : Obligations.InvariantsAtReset := by
  refine ⟨reset_canonical, rfl, ⟨rfl, rfl, rfl⟩, reset_inBounds, ?_, reset_unwrittenIsEmpty⟩
  intro i f h
  cases h

/-- Settles O54, over the four states and the two formats. -/
theorem statusWordLayout : Obligations.StatusWordLayout := by
  intro s
  unfold statusWord
  cases s.statusState <;> cases s.statusFormat <;> rfl

/-- In a phase that takes no step of its own a step is the host's (10_state R33). -/
theorem stepWith_of_waits (hw : s.phase.waits = true) : stepWith p s = waitForHost s := by
  unfold stepWith
  cases hph : s.phase <;> simp_all [Phase.waits]

/-- A pending `CMD.DECODE_IMAGE` that may be issued is the start of a decode (44_pipeline R211). -/
theorem stepWith_of_decodeImage {rest : List HostAct} (hw : s.phase.waits = true) (hb : s.statusState ≠ .busy)
    (hi : s.inbox = .decodeImage :: rest) : stepWith p s = startDecode { s with inbox := rest } := by
  simp [stepWith_of_waits hw, waitForHost, hi, hostAct, hb]

/-- Settles O41: the step is the start, and the start asks for `CORE_OK`. -/
theorem badStartIsRefused : Obligations.BadStartIsRefused := by
  intro s rest hw hb hi hok
  have hok' : coreOk { s with inbox := rest } = false := hok
  rw [step, stepWith_of_decodeImage hw hb hi, startDecode, hok']
  rfl

/-! ## A token phase runs the token its bytes decode to -/

theorem runToken_of_decode {c : Ctx} {i : Instr} {rest : List Byte} (h : decode c (tokenBytes c s) = .token i rest) :
    runToken c s = exec i s := by
  simp [runToken, h]

theorem stepWith_hufHeader (hph : s.phase = .hufHeader) : stepWith p s = runToken .hufHeader s := by
  simp [stepWith, hph]

theorem stepWith_dictHeader (hph : s.phase = .dictHeader) : stepWith p s = runToken .dictHeader s := by
  simp [stepWith, hph]

/-- Behind the guard of `HUF_DECODE` a step takes a code bit (41_huffman R148, R149). -/
theorem stepWith_hufDecode {cnt u : BitVec 32} {q : Fin 9} (hph : s.phase = .hufDecode) (hcnt : s.hufOutCnt = some cnt)
    (hu : s.hufUnpacked = some u) (hne : cnt ≠ u) (hq : s.brPos = some q) :
    stepWith p s = runToken (bitCtx q) s := by
  simp [stepWith, hph, hufDecodeStep, hcnt, hu, hne, hq]

/-- Behind the guard of `DICT` a step runs a dictionary token (42_dictionary R172). -/
theorem stepWith_dict {d n : BitVec 32} {e : BitVec 8} (hph : s.phase = .dict) (hd : s.dictDst = some d)
    (hn : s.planeSize = some n) (hne : d ≠ n) (he : s.dictEsc = some e) :
    stepWith p s = runToken (.dict e) s := by
  simp [stepWith, hph, dictStep, hd, hn, hne, he]

/-- Behind the guard of `RLE` a step runs a run-length token (43_runlength R192). -/
theorem stepWith_rle {pos b : BitVec 33} {n : BitVec 32} (hph : s.phase = .rle) (hp : s.inPos = some pos)
    (hb : s.inBase = some b) (hn : s.rleSrcSize = some n) (hlt : pos.toNat - b.toNat < n.toNat) :
    stepWith p s = runToken .rle s := by
  simp [stepWith, hph, rleStep, hp, hb, hn, hlt]

/-- `CH_SETUP` sets the channel up and runs the pack-type token there (44_pipeline R213). -/
theorem stepWith_chSetup {js : List Job} {idx : BitVec 3} {j : Job} (hph : s.phase = .chSetup)
    (hjs : s.jobs = some js) (hi : s.jobIdx = some idx) (hj : js[idx.toNat]? = some j) :
    stepWith p s = runToken .pack (s.channelFor j) := by
  simp [stepWith, hph, chSetupStep, channelSetup, hjs, hi, hj]

/-- Settles O7: each phase's guard, then `runToken_of_decode`. -/
theorem stepRunsDecodedToken : Obligations.StepRunsDecodedToken := by
  intro s i rest
  refine ⟨fun hph hdec => ?_, fun hph hdec => ?_, fun cnt u q hph hcnt hu hne hq hdec => ?_,
    fun d n e hph hd hn hne he hdec => ?_, fun pos b n hph hp hb hn hlt hdec => ?_,
    fun js idx j k hph hjs hi hj hk hdec => ?_⟩
  · exact (stepWith_hufHeader hph).trans (runToken_of_decode hdec)
  · exact (stepWith_dictHeader hph).trans (runToken_of_decode hdec)
  · exact (stepWith_hufDecode hph hcnt hu hne hq).trans (runToken_of_decode hdec)
  · exact (stepWith_dict hph hd hn hne he).trans (runToken_of_decode hdec)
  · exact (stepWith_rle hph hp hb hn hlt).trans (runToken_of_decode hdec)
  · refine (stepWith_chSetup hph hjs hi hj).trans (runToken_of_decode (rest := rest) ?_)
    simpa [tokenBytes, hk] using hdec

end Sys2Proof.Machine

namespace Sys2Proof.Machine

variable {p : FreqOverflow} {s t : State}

/-! ## CORE_OK (10_state R26) -/

/-- The addresses of canonical cells rise strictly. -/
theorem cellsFrom_addresses {α : Type} {m : List (Nat × α)} {lo : Nat} (h : cellsFrom lo m = true) :
    (∀ a ∈ m.map Prod.fst, lo ≤ a) ∧ (m.map Prod.fst).Pairwise (· < ·) := by
  induction m generalizing lo with
  | nil => simp
  | cons c m ih =>
    simp only [cellsFrom, Bool.and_eq_true, decide_eq_true_eq] at h
    obtain ⟨hlow, hrise⟩ := ih h.2
    simp only [List.map_cons, List.mem_cons, List.pairwise_cons]
    refine ⟨?_, hlow, hrise⟩
    rintro a (rfl | ha)
    · exact h.1
    · exact le_trans (by omega) (hlow a ha)

/-- A cell holds a value exactly when its address is listed. -/
theorem cellGet_isSome_iff {α : Type} {m : List (Nat × α)} {a : Nat} :
    (cellGet m a).isSome = true ↔ a ∈ m.map Prod.fst := by
  induction m with
  | nil => simp
  | cons c m ih =>
    rw [cellGet_cons, List.map_cons, List.mem_cons, ← ih]
    by_cases h : c.1 = a
    · simp [h]
    · simp [h, Ne.symm h]

/-- `SRC` holds an image of `n` bytes exactly when the addresses below `n` are those that hold a value: a canonical list of
`n` addresses below `n` is the list of all of them. -/
theorem holdsImage_iff {m : Memory} {n : Nat} (hwf : m.wf = true) :
    m.holdsImage n = true ↔ ∀ a, (m.read a).isSome = true ↔ a < n := by
  have hnodup : (m.map Prod.fst).Nodup := (cellsFrom_addresses hwf).2.imp Nat.ne_of_lt
  have hread : ∀ a, (m.read a).isSome = true ↔ a ∈ m.map Prod.fst := fun a => cellGet_isSome_iff
  simp only [hread, Memory.holdsImage, Bool.and_eq_true, beq_iff_eq, List.all_eq_true, decide_eq_true_eq]
  constructor
  · rintro ⟨hlen, hlt⟩
    have hsub : m.map Prod.fst ⊆ List.range n := by
      intro a ha
      obtain ⟨c, hc, rfl⟩ := List.mem_map.mp ha
      exact List.mem_range.mpr (hlt c hc)
    have hperm : (m.map Prod.fst).Perm (List.range n) :=
      (List.subperm_of_subset hnodup hsub).perm_of_length_le (by simp [hlen])
    intro a
    rw [hperm.mem_iff, List.mem_range]
  · intro h
    have hperm : (m.map Prod.fst).Perm (List.range n) :=
      (List.perm_ext_iff_of_nodup hnodup List.nodup_range).mpr fun a => by rw [h, List.mem_range]
    exact ⟨by simpa using hperm.length_eq, fun c hc => (h c.1).mp (List.mem_map_of_mem hc)⟩

/-- What `CORE_OK` says when every descriptor register it reads holds a value. -/
theorem coreOk_iff {w h d : BitVec 16} {a r g b f : BitVec 32} (hw : s.descWidth = some w) (hh : s.descHeight = some h)
    (hd : s.descDepth = some d) (ha : s.descAlen = some a) (hr : s.descRlen = some r) (hg : s.descGlen = some g)
    (hb : s.descBlen = some b) (hf : s.descFileSize = some f) (hwf : s.src.wf = true) :
    coreOk s = true ↔ 1 ≤ w.toNat ∧ 1 ≤ h.toNat ∧ (d = 24 ∨ d = 32) ∧
      32 + a.toNat + r.toNat + g.toNat + b.toNat = f.toNat ∧ ∀ i, (s.src.read i).isSome = true ↔ i < f.toNat := by
  simp only [coreOk, hw, hh, hd, ha, hr, hg, hb, hf, Bool.and_eq_true, Bool.or_eq_true, beq_iff_eq, decide_eq_true_eq,
    holdsImage_iff hwf, and_assoc]

/-- Settles O39, by `coreOk_iff`. -/
theorem coreOkIsTheStartPrecondition : Obligations.CoreOkIsTheStartPrecondition :=
  fun _ _ _ _ _ _ _ _ _ hw hh hd ha hr hg hb hf hwf => coreOk_iff hw hh hd ha hr hg hb hf hwf

/-- Under `CORE_OK` every register it reads holds a value. -/
theorem coreOk_registers (h : coreOk s = true) : ∃ w h d a r g b f, s.descWidth = some w ∧ s.descHeight = some h ∧
    s.descDepth = some d ∧ s.descAlen = some a ∧ s.descRlen = some r ∧ s.descGlen = some g ∧ s.descBlen = some b ∧
    s.descFileSize = some f := by
  unfold coreOk at h
  split at h
  · exact ⟨_, _, _, _, _, _, _, _, by assumption, by assumption, by assumption, by assumption, by assumption,
      by assumption, by assumption, by assumption⟩
  · cases h

/-! ## The start of a decode (44_pipeline R211, R212) -/

/-- The jobs of a start lie one after the other in the file, and their channels are the bytes of a pixel. -/
theorem mem_jobList {alpha : Bool} {a r g b : BitVec 32} {j : Job} (hj : j ∈ jobList alpha a r g b)
    (hsize : 32 + a.toNat + r.toNat + g.toNat + b.toNat < 2 ^ 32) :
    j.chan.toNat < (if alpha then 4 else 3) ∧ 32 ≤ j.fileOff.toNat ∧
      j.fileOff.toNat + j.len.toNat ≤ 32 + a.toNat + r.toNat + g.toNat + b.toNat := by
  have hoff : ∀ k, k < 2 ^ 32 → (BitVec.ofNat 33 k).toNat = k := fun k hk => by
    rw [BitVec.toNat_ofNat]; omega
  simp only [jobList, List.mem_append, List.mem_cons, List.not_mem_nil, or_false] at hj
  rcases hj with hj | rfl | rfl | rfl
  · cases alpha with
    | false => simp at hj
    | true =>
      obtain rfl := List.mem_singleton.mp hj
      exact ⟨by simp, by simp [offA], by simp [offA]; omega⟩
  · rw [hoff (offR a) (by simp only [offR]; omega)]
    exact ⟨by cases alpha <;> simp, by simp [offR], by simp only [offR]; omega⟩
  · rw [hoff (offG a r) (by simp only [offG, offR]; omega)]
    exact ⟨by cases alpha <;> simp, by simp only [offG, offR]; omega, by simp only [offG, offR]; omega⟩
  · rw [hoff (offB a r g) (by simp only [offB, offG, offR]; omega)]
    exact ⟨by cases alpha <;> simp, by simp only [offB, offG, offR]; omega, by simp only [offB, offG, offR]; omega⟩

theorem jobList_length (alpha : Bool) (a r g b : BitVec 32) :
    (jobList alpha a r g b).length = if alpha then 4 else 3 := by
  cases alpha <;> rfl

/-- Every byte of a pixel is the destination of a job. -/
theorem jobList_covers {alpha : Bool} {a r g b : BitVec 32} {c : Nat} (hc : c < if alpha then 4 else 3) :
    ∃ j ∈ jobList alpha a r g b, j.chan.toNat = c := by
  have hrgb : c = 0 ∨ c = 1 ∨ c = 2 ∨ (c = 3 ∧ alpha = true) := by
    cases alpha <;> simp at hc ⊢ <;> omega
  rcases hrgb with rfl | rfl | rfl | ⟨rfl, rfl⟩ <;> simp [jobList, or_and_right, exists_or]

/-- The size registers of a start are exact (10_state R27). -/
theorem startSizes_exact (w h : BitVec 16) (b : BitVec 3) (hb : b.toNat ≤ 4) :
    (BitVec.ofNat 32 (w.toNat * h.toNat)).toNat = w.toNat * h.toNat ∧
      (BitVec.ofNat 34 (w.toNat * h.toNat * b.toNat)).toNat = w.toNat * h.toNat * b.toNat := by
  have hsize : w.toNat * h.toNat < 2 ^ 16 * 2 ^ 16 := Nat.mul_lt_mul'' w.isLt h.isLt
  have hpix : w.toNat * h.toNat * b.toNat ≤ w.toNat * h.toNat * 4 := Nat.mul_le_mul_left _ hb
  rw [BitVec.toNat_ofNat, BitVec.toNat_ofNat]
  exact ⟨Nat.mod_eq_of_lt (by omega), Nat.mod_eq_of_lt (by omega)⟩

/-- A start whose `SRC` holds the file has the registers of a decode in progress. -/
theorem started_imageOk {w h d : BitVec 16} {a r g b f : BitVec 32} (hw : s.descWidth = some w)
    (hh : s.descHeight = some h) (hpack : s.descPack ≠ none)
    (hlens : 32 + a.toNat + r.toNat + g.toNat + b.toNat = f.toNat)
    (hsrc : ∀ i, i < f.toNat → (s.src.read i).isSome = true) : (s.started w h d a r g b).ImageOk := by
  have hf := f.isLt
  generalize halpha : (d == 32 && decide (0 < a.toNat)) = alpha
  have hbpp : (if alpha then 4 else 3 : BitVec 3).toNat = if alpha then 4 else 3 := by cases alpha <;> rfl
  have hbpp4 : (if alpha then 4 else 3 : BitVec 3).toNat ≤ 4 := by cases alpha <;> decide
  obtain ⟨hplane, hpix⟩ := startSizes_exact w h _ hbpp4
  constructor
  case busy => rfl
  case sizes =>
    exact ⟨w, h, _, _, _, hw, hh, rfl, rfl, rfl, hplane, by simpa only [State.started, halpha, hplane] using hpix⟩
  case pack => exact hpack
  case fmt => simp [State.started]
  case jobs =>
    refine ⟨_, _, _, rfl, rfl, rfl, ?_, ?_, ?_⟩
    · simp only [jobList_length]; split <;> decide
    · simp only [jobList_length]; split <;> decide
    · intro j hj
      obtain ⟨hchan, hlo, hhi⟩ := mem_jobList hj (by omega)
      rw [halpha] at hchan ⊢
      exact ⟨by rwa [hbpp], by omega, fun i _ hi => hsrc i (by omega)⟩

/-- No channel is done at the start, and the jobs cover a pixel. -/
theorem started_lanesFilled (w h d : BitVec 16) (a r g b : BitVec 32) : (s.started w h d a r g b).LanesFilled := by
  refine ⟨_, _, _, _, rfl, rfl, rfl, rfl, fun c hc => jobList_covers ?_, fun k j hk => ?_⟩
  · refine lt_of_lt_of_eq hc ?_
    split <;> rfl
  · simp [State.started] at hk

/-- Settles O50: `started_imageOk`, with `CORE_OK` giving the values of the registers and the bytes of `SRC`. -/
theorem startIsSafe : Obligations.StartIsSafe := by
  intro s rest hwait hb hi hok hwf hpack
  obtain ⟨w, h, d, a, r, g, b, f, hw, hh, hd, ha, hr, hg, hbl, hf⟩ := coreOk_registers hok
  obtain ⟨-, -, -, hlens, hsrc⟩ := (coreOk_iff hw hh hd ha hr hg hbl hf hwf).mp hok
  have hok' : coreOk { s with inbox := rest } = true := hok
  have hstep : step s = .next ({ s with inbox := rest }.started w h d a r g b) := by
    rw [step, stepWith_of_decodeImage hwait hb hi, startDecode, if_pos hok']
    simp [hw, hh, hd, ha, hr, hg, hbl]
  exact ⟨_, hstep, started_imageOk hw hh hpack hlens fun i => (hsrc i).mpr, started_lanesFilled ..⟩

end Sys2Proof.Machine

namespace Sys2Proof.Machine

variable {p : FreqOverflow} {s t : State}

/-! ## A decode in progress: the parts of `State.Running` under a step -/

theorem State.Running.waits (h : s.Running) : s.phase.waits = false := by
  unfold State.Running at h
  cases hph : s.phase <;> simp_all [Phase.waits]

/-- The image's registers stay as they have to be while the job index stays. -/
theorem State.ImageOk.of_image (h : s.ImageOk) (he : t.image = s.image) (hst : t.statusState = s.statusState)
    (hidx : t.jobIdx = s.jobIdx) : t.ImageOk := by
  simp only [State.image, Prod.mk.injEq] at he
  obtain ⟨hsrc, -, hpack, hw, hh, -, -, -, -, -, -, hjs, -, hbpp, hfmt, hplane, hpix, -⟩ := he
  constructor
  case busy => rw [hst]; exact h.busy
  case sizes => rw [hw, hh, hplane, hbpp, hpix]; exact h.sizes
  case pack => rw [hpack]; exact h.pack
  case fmt => rw [hfmt]; exact h.fmt
  case jobs => rw [hjs, hidx, hbpp, hsrc]; exact h.jobs

theorem State.ChannelOk.of_image (h : s.ChannelOk) (he : t.image = s.image) (hidx : t.jobIdx = s.jobIdx)
    (hc : t.chChan = s.chChan) (hm : t.pipeMode = s.pipeMode) : t.ChannelOk := by
  simp only [State.image, Prod.mk.injEq] at he
  obtain ⟨-, -, -, -, -, -, -, -, -, -, -, hjs, -, hbpp, -⟩ := he
  unfold State.ChannelOk
  rw [hc, hbpp, hm, hjs, hidx]
  exact h

/-- A sum that stays below a value of the same width is exact. -/
theorem toNat_add_ofNat {w k : Nat} {d n : BitVec w} (h : d.toNat + k ≤ n.toNat) :
    (d + BitVec.ofNat w k).toNat = d.toNat + k := by
  have := n.isLt
  rw [BitVec.toNat_add, BitVec.toNat_ofNat, Nat.mod_eq_of_lt (a := k) (by omega), Nat.mod_eq_of_lt (by omega)]

/-! ### The input port -/

/-- Moving the port forwards keeps every byte of its window at a value. -/
theorem State.PortOk.advance {sp : Space} {p0 q : BitVec 33} (h : s.PortOk sp) (hp : s.inPos = some p0)
    (hq : p0.toNat ≤ q.toNat) : (s.setInPos q).PortOk sp := by
  obtain ⟨b, l, p1, hsp, hb, hl, hp1, hle, hbytes⟩ := h
  obtain rfl := Option.some.inj (hp.symm.trans hp1)
  refine ⟨b, l, q, hsp, hb, hl, rfl, hle.trans hq, fun a h1 h2 => ?_⟩
  rw [portByte_setInPos]
  exact hbytes a h1 h2

theorem BitTaken.portOk {bit : Bool} {s1 : State} {sp : Space} (h : BitTaken s bit s1) (hs : s.PortOk sp) :
    s1.PortOk sp := by
  cases h with
  | loaded => exact hs
  | refill p0 l sp' v _ hp _ hlt =>
    have hsum : (p0 + 1).toNat = p0.toNat + 1 := toNat_add_ofNat (k := 1) hlt
    exact hs.advance hp (by omega)

/-! ### Channel set-up -/

/-- The current job's window holds values, so the port is ready (44_pipeline R213). -/
theorem State.ImageOk.channelFor_portOk {js : List Job} {i : BitVec 3} {j : Job} (h : s.ImageOk)
    (hjs : s.jobs = some js) (hj : js[i.toNat]? = some j) : (s.channelFor j).PortOk .src := by
  obtain ⟨js', -, b, hjs', -, -, -, -, hall⟩ := h.jobs
  obtain rfl := Option.some.inj (hjs.symm.trans hjs')
  obtain ⟨-, hfit, hbytes⟩ := hall j (List.mem_of_getElem? hj)
  have hlen := j.len.isLt
  have hlimit : (j.fileOff + j.len.setWidth 33).toNat = j.fileOff.toNat + j.len.toNat := by
    rw [BitVec.toNat_add, BitVec.toNat_setWidth_of_le (by decide), Nat.mod_eq_of_lt hfit]
  exact ⟨_, _, _, rfl, rfl, rfl, rfl, le_refl _, fun a h1 h2 => hbytes a h1 (by omega)⟩

/-- The channel of the current job is in progress once its registers and its path are written. -/
theorem State.ImageOk.channelOk {js : List Job} {i : BitVec 3} {j : Job} {m : PipeMode} (h : s.ImageOk)
    (hjs : s.jobs = some js) (hi : s.jobIdx = some i) (hj : js[i.toNat]? = some j) (he : t.image = s.image)
    (hidx : t.jobIdx = s.jobIdx) (hc : t.chChan = some j.chan) (hm : t.pipeMode = some m) : t.ChannelOk := by
  obtain ⟨js', -, b, hjs', -, hb, -, -, hall⟩ := h.jobs
  obtain rfl := Option.some.inj (hjs.symm.trans hjs')
  simp only [State.image, Prod.mk.injEq] at he
  obtain ⟨-, -, -, -, -, -, -, -, -, -, -, hjs'', -, hbpp, -⟩ := he
  exact ⟨j.chan, b, m, hc, hbpp.trans hb, (hall j (List.mem_of_getElem? hj)).1, hm, js, i, j, hjs''.trans hjs,
    hidx.trans hi, hj, rfl⟩

/-! ### The plane -/

/-- Nothing of the plane is asked to hold a value at the start of a stage. -/
theorem State.ImageOk.planeFilled_zero (h : s.ImageOk) : s.PlaneFilled 0 := by
  obtain ⟨-, -, n, -, -, -, -, hn, -⟩ := h.sizes
  exact ⟨⟨n, hn, Nat.zero_le _⟩, fun a ha => absurd ha (Nat.not_lt_zero a)⟩

/-- Writing bytes where the filled part of the plane ends extends it. -/
theorem State.PlaneFilled.writeBytes {d : Nat} {vs : List (BitVec 8)} {n : BitVec 32} (h : s.PlaneFilled d)
    (hn : s.planeSize = some n) (hfit : d + vs.length ≤ n.toNat) (hsize : t.planeSize = s.planeSize)
    (ht : t.plane = s.plane.writeBytes d vs) : t.PlaneFilled (d + vs.length) := by
  refine ⟨⟨n, hsize.trans hn, hfit⟩, fun a ha => ?_⟩
  rw [ht, Memory.read_writeBytes]
  split
  · rw [List.getElem?_eq_getElem (by omega)]; rfl
  · exact h.2 a (by omega)

/-- After a copy loop a byte holds a value if it did before or if the loop wrote it. -/
theorem copyLoop_filled {off count dst a : Nat} {m m' : Memory} (h : copyLoop off count dst m = .next m')
    (ha : (m.read a).isSome = true ∨ (dst ≤ a ∧ a < dst + count)) : (m'.read a).isSome = true := by
  induction count generalizing dst m with
  | zero =>
    obtain rfl := Host.Outcome.next.inj h
    exact ha.resolve_right (by omega)
  | succ count ih =>
    obtain ⟨v, -, h⟩ := withVal_next.mp h
    refine ih h ?_
    rw [Memory.read_write]
    by_cases had : dst = a
    · simp [had]
    · rw [if_neg had]
      exact ha.imp_right fun hr => ⟨by omega, by omega⟩

/-! ### The build of the tree -/

/-- The nodes made so far have children below them (41_huffman R144, R146). -/
def State.TreeBelow (s : State) (n : Nat) : Prop :=
  ∀ i, 256 ≤ i → i < n →
    (∃ x, cellGet s.left i = some x ∧ x.toNat < i) ∧ ∃ y, cellGet s.right i = some y ∧ y.toNat < i

/-- A new node on top of the others. -/
theorem State.TreeBelow.node {n : Nat} {l r : BitVec 9} (h : s.TreeBelow n) (hl : l.toNat < n) (hr : r.toNat < n)
    (htl : t.left = cellSet s.left n l) (htr : t.right = cellSet s.right n r) : t.TreeBelow (n + 1) := by
  intro i hlo hhi
  rw [htl, htr, cellGet_cellSet, cellGet_cellSet]
  by_cases hn : n = i
  · subst hn
    rw [if_pos rfl, if_pos rfl]
    exact ⟨⟨l, rfl, hl⟩, r, rfl, hr⟩
  · rw [if_neg hn, if_neg hn]
    exact h i hlo (by omega)

/-- A child of a node of the tree lies below it. -/
theorem State.TreeBelow.child_lt {n i : Nat} {c : BitVec 9} (h : s.TreeBelow n) (hlo : 256 ≤ i) (hhi : i < n)
    (hc : cellGet s.left i = some c ∨ cellGet s.right i = some c) : c.toNat < i := by
  obtain ⟨⟨x, hx, hxi⟩, y, hy, hyi⟩ := h i hlo hhi
  rcases hc with hc | hc
  · obtain rfl := Option.some.inj (hx.symm.trans hc); exact hxi
  · obtain rfl := Option.some.inj (hy.symm.trans hc); exact hyi

/-- The entries after a stable insertion are the old ones and the new one. -/
theorem insertStable_entries {freq : List (Nat × Nat)} {n : BitVec 9} {act act' : List (BitVec 9)}
    (h : insertStable freq n act = .next act') : act'.length = act.length + 1 ∧ ∀ x ∈ act', x = n ∨ x ∈ act := by
  obtain ⟨f, l, -, hl, rfl⟩ := insertStable_next.mp h
  obtain ⟨rfl, -⟩ := keyed_next hl
  refine ⟨by simp, fun x hx => ?_⟩
  obtain ⟨y, hy, rfl⟩ := List.mem_map.mp hx
  exact (mem_insertKeyed.mp hy).imp (fun h => by rw [h]) fun h => List.mem_map_of_mem h

/-- The header leaves a list of the 256 leaves, each with its frequency (41_huffman R141). -/
theorem header_buildOk {fs : List (BitVec 32)} {freq : List (Nat × Nat)} (hfs : fs.length = 256)
    (hact : t.act = some (seedActive fs)) (hnext : t.hufNext = some 256) (hfreq : t.freq = writeFreqs freq 0 fs) :
    t.BuildOk := by
  refine ⟨seedActive fs, 256, hact, hnext, by simp [hfs], by decide, by simp [hfs], fun x hx => ?_,
    fun i hlo hhi => absurd hhi (Nat.not_lt.mpr hlo)⟩
  obtain ⟨y, hy, rfl⟩ := List.mem_map.mp hx
  obtain ⟨j, hj, rfl⟩ : ∃ j, ∃ h : j < fs.length, y = (fs[j].toNat, BitVec.ofNat 9 (0 + j)) := by
    simpa using mem_seedKeyed.mp hy
  have hleaf : (BitVec.ofNat 9 (0 + j)).toNat = j := by rw [BitVec.toNat_ofNat]; omega
  refine ⟨by rw [hleaf]; exact lt_of_lt_of_eq hj hfs, ?_⟩
  rw [hleaf, hfreq, cellGet_writeFreqs, if_pos (by omega), List.getElem?_eq_getElem (by omega)]
  rfl

/-- The state after a merge of the two front entries of a build: one entry fewer, one node more, every entry with a
frequency. -/
theorem State.BuildOk.merge {l r : BitVec 9} {rest act' : List (BitVec 9)} {n : BitVec 10} {f : Nat} (h : s.BuildOk)
    (hact : s.act = some (l :: r :: rest)) (hn : s.hufNext = some n)
    (hins : insertStable (cellSet s.freq n.toNat f) (n.setWidth 9) rest = .next act') :
    256 ≤ n.toNat ∧ n.toNat + 1 + act'.length = 512 ∧ act'.length = rest.length + 1 ∧ l.toNat < n.toNat ∧
      r.toNat < n.toNat ∧ s.TreeBelow n.toNat ∧
      ∀ x ∈ act', x.toNat < n.toNat + 1 ∧ (cellGet (cellSet s.freq n.toNat f) x.toNat).isSome = true := by
  obtain ⟨act, n', hact', hn', -, hlo, hcount, hall, htree⟩ := h
  obtain rfl := Option.some.inj (hact.symm.trans hact')
  obtain rfl := Option.some.inj (hn.symm.trans hn')
  obtain ⟨hlen, hmem⟩ := insertStable_entries hins
  simp only [List.length_cons] at hcount
  refine ⟨hlo, by omega, hlen, (hall l (by simp)).1, (hall r (by simp)).1, htree, fun x hx => ?_⟩
  rw [cellGet_cellSet]
  rcases hmem x hx with rfl | hx
  · have hnode : (n.setWidth 9).toNat = n.toNat := by rw [BitVec.toNat_setWidth]; omega
    rw [hnode, if_pos rfl]
    exact ⟨Nat.lt_succ_self _, rfl⟩
  · obtain ⟨hlt, hfreq⟩ := hall x (by simp [hx])
    rw [if_neg (by omega)]
    exact ⟨by omega, hfreq⟩

/-! ### The walk -/

/-- A code bit that ends at an internal node (41_huffman R148). -/
theorem State.WalkOk.move {bit : Bool} {s1 : State} {node child : BitVec 9} (h : s.WalkOk) (hbit : BitTaken s bit s1)
    (hnode : s.hufNode = some node)
    (hchild : cellGet s.left node.toNat = some child ∨ cellGet s.right node.toNat = some child)
    (hin : 256 ≤ child.toNat) : State.WalkOk { s1 with hufNode := some child } := by
  obtain ⟨⟨node', hnode', hlo, hhi⟩, htree, -, hout⟩ := h
  obtain rfl := Option.some.inj (hnode.symm.trans hnode')
  have hlt := State.TreeBelow.child_lt (n := 511) (fun i h1 h2 => htree i h1 (by omega)) hlo (by omega) hchild
  obtain ⟨q, b, i, rfl⟩ := hbit.frame
  exact ⟨⟨child, rfl, hin, by omega⟩, htree, ⟨i, rfl, by simp⟩, hout⟩

/-- A code bit that ends at a leaf: one more byte of output (41_huffman R150). -/
theorem State.WalkOk.emit {bit : Bool} {s1 : State} {child : BitVec 9} {cnt u : BitVec 32} (h : s.WalkOk)
    (hbit : BitTaken s bit s1) (hcnt : s.hufOutCnt = some cnt) (hu : s.hufUnpacked = some u)
    (hlt : cnt.toNat < u.toNat) :
    State.WalkOk
      { s1 with
        hout := s.hout.write cnt.toNat (child.setWidth 8), hufOutCnt := some (cnt + 1), hufNode := some 510 } := by
  obtain ⟨-, htree, -, cnt', u', hcnt', hu', -, hfilled⟩ := h
  obtain rfl := Option.some.inj (hcnt.symm.trans hcnt')
  obtain rfl := Option.some.inj (hu.symm.trans hu')
  have hsum : (cnt + 1).toNat = cnt.toNat + 1 := toNat_add_ofNat (k := 1) hlt
  obtain ⟨q, b, i, rfl⟩ := hbit.frame
  refine ⟨⟨510, rfl, by decide, by decide⟩, htree, ⟨i, rfl, by simp⟩, cnt + 1, u, rfl, hu, by omega, fun a ha => ?_⟩
  rw [Memory.read_write]
  split
  · rfl
  · exact hfilled a (by omega)

/-- The end of the walk puts the port onto an output that holds values throughout (41_huffman R151). -/
theorem State.WalkOk.portOk_hout {u : BitVec 32} (h : s.WalkOk) (hcnt : s.hufOutCnt = some u) :
    (s.detachBitReader.openPort .hout 0 (u.setWidth 33)).PortOk .hout := by
  obtain ⟨-, -, -, cnt, u', hcnt', -, -, hfilled⟩ := h
  obtain rfl := Option.some.inj (hcnt.symm.trans hcnt')
  refine ⟨_, _, _, rfl, rfl, rfl, rfl, le_refl _, fun a _ ha => hfilled a ?_⟩
  rwa [BitVec.toNat_setWidth_of_le (by decide)] at ha

end Sys2Proof.Machine

namespace Sys2Proof.Machine

variable {p : FreqOverflow} {s t : State}

/-! ## A step of a safe running state that answers is safe again or ends the decode -/

/-- In the build or at its end: the state after a merge. -/
theorem running_merged {l r : BitVec 9} {rest act' : List (BitVec 9)} {n : BitVec 10} {f : Nat} (himage : s.ImageOk)
    (hchan : s.ChannelOk) (hport : s.PortOk .src) (hbuild : s.BuildOk) (hu : s.hufUnpacked ≠ none)
    (hph : s.phase = .hufBuild) (hact : s.act = some (l :: r :: rest)) (hn : s.hufNext = some n)
    (hins : insertStable (cellSet s.freq n.toNat f) (n.setWidth 9) rest = .next act') :
    (s.merged n l r f act').Running := by
  obtain ⟨hlo, hcount, hlen, hl, hr, htree, hall⟩ := hbuild.merge hact hn hins
  have hnext : (n + 1).toNat = n.toNat + 1 :=
    toNat_add_ofNat (k := 1) (n := 511) (by show n.toNat + 1 ≤ 511; omega)
  have htree' : (s.merged n l r f act').TreeBelow (n.toNat + 1) := htree.node hl hr (by simp) (by simp)
  by_cases h1 : act'.length = 1
  · rw [State.merged_last h1] at htree' ⊢
    obtain ⟨u, hu⟩ := Option.ne_none_iff_exists'.mp hu
    exact ⟨himage.of_image rfl rfl rfl, hchan, hport, ⟨510, rfl, by decide, by decide⟩,
      fun i h2 h3 => htree' i h2 (by omega), ⟨8, rfl, by simp⟩, 0, u, rfl, hu, Nat.zero_le _,
      fun a ha => absurd ha (Nat.not_lt_zero a)⟩
  · rw [State.merged_more h1] at htree' ⊢
    simp only [State.Running, hph]
    exact ⟨himage.of_image rfl rfl rfl, hchan, hport,
      ⟨act', n + 1, rfl, rfl, by omega, by omega, by omega, by rwa [hnext], by rwa [hnext]⟩, hu⟩

theorem Effect.running (h : Effect p s t) (hs : s.Running) : t.Running ∨ t.Ended := by
  have hw := hs.waits
  have himg := h.image hw
  cases h with
  | wait hw' => rw [hw] at hw'; cases hw'
  | load _ _ _ hw' => rw [hw] at hw'; cases hw'
  | start _ _ _ _ _ _ _ _ hw' => rw [hw] at hw'; cases hw'
  | fault => exact .inr (.inr ⟨rfl, rfl⟩)
  | imageDone => exact .inr (.inl ⟨rfl, rfl⟩)
  | pipeRle js i j hph hjs hi hj =>
    simp only [State.Running, hph] at hs
    have himage := hs.of_image himg rfl rfl
    exact .inl ⟨himage, hs.channelOk hjs hi hj himg rfl rfl rfl, ⟨.src, hs.channelFor_portOk hjs hj⟩, by simp,
      by simp, 0, rfl, himage.planeFilled_zero⟩
  | pipeHuf js i j k hph hjs hi hj =>
    simp only [State.Running, hph] at hs
    exact .inl ⟨hs.of_image himg rfl rfl, hs.channelOk hjs hi hj himg rfl rfl rfl, hs.channelFor_portOk hjs hj⟩
  | header u fs p0 l q hph hp hl hroom hq hfs =>
    simp only [State.Running, hph] at hs
    obtain ⟨himage, hchan, hport⟩ := hs
    exact .inl ⟨himage.of_image himg rfl rfl, hchan, hport.advance hp (by omega), header_buildOk hfs rfl rfl rfl,
      by simp⟩
  | merge l r rest act' n fl fr f hph hact hn _ _ _ _ _ hins =>
    simp only [State.Running, hph] at hs
    obtain ⟨himage, hchan, hport, hbuild, hu⟩ := hs
    exact .inl (running_merged himage hchan hport hbuild hu hph hact hn hins)
  | walk bit s1 node child hph hbit hnode hchild hin =>
    simp only [State.Running, hph] at hs
    obtain ⟨himage, hchan, hport, hwalk⟩ := hs
    have hport' := hbit.portOk hport
    have hwalk' := hwalk.move hbit hnode hchild hin
    obtain ⟨q, b, i, rfl⟩ := hbit.frame
    left
    simp only [State.Running, hph]
    exact ⟨himage.of_image himg rfl rfl, hchan, hport', hwalk'⟩
  | emit bit s1 node child cnt u hph hbit hnode hchild hleaf hcnt hu hlt =>
    simp only [State.Running, hph] at hs
    obtain ⟨himage, hchan, hport, hwalk⟩ := hs
    have hport' := hbit.portOk hport
    have hwalk' := hwalk.emit (child := child) hbit hcnt hu hlt
    obtain ⟨q, b, i, rfl⟩ := hbit.frame
    left
    simp only [State.Running, hph]
    exact ⟨himage.of_image himg rfl rfl, hchan, hport', hwalk'⟩
  | hufEndDict u hph hu hcnt hm =>
    simp only [State.Running, hph] at hs
    obtain ⟨himage, hchan, hport, hwalk⟩ := hs
    exact .inl ⟨himage.of_image himg rfl rfl, hchan, hwalk.portOk_hout hcnt, rfl, rfl, hm⟩
  | hufEndRle u m hph hu hcnt hm hmode =>
    simp only [State.Running, hph] at hs
    obtain ⟨himage, hchan, hport, hwalk⟩ := hs
    have himage' := himage.of_image himg rfl rfl
    exact .inl ⟨himage', hchan, ⟨.hout, hwalk.portOk_hout hcnt⟩, by simp, by simpa [hm] using hmode, 0, rfl,
      himage'.planeFilled_zero⟩
  | dictHeader e l hph hl hroom =>
    simp only [State.Running, hph] at hs
    obtain ⟨himage, hchan, hport, -, hpos, hm⟩ := hs
    have himage' := himage.of_image himg rfl rfl
    exact .inl ⟨himage', hchan, hport.advance hpos (Nat.zero_le _), by simp, hm, 0, rfl, himage'.planeFilled_zero⟩
  | dictAppend b len p0 l d n hph hp hl hroom hlen hd hn hlt =>
    simp only [State.Running, hph] at hs
    obtain ⟨himage, hchan, hport, he, hm, d', hd', hfilled⟩ := hs
    obtain rfl := Option.some.inj (hd.symm.trans hd')
    have hpos := toNat_add_ofNat hroom
    have hsum : (d + 1).toNat = d.toNat + 1 := toNat_add_ofNat (k := 1) hlt
    left
    simp only [State.Running, State.setInPos_phase, hph]
    refine ⟨himage.of_image himg rfl rfl, hchan, hport.advance hp (by omega), he, hm, d + 1, rfl, ?_⟩
    rw [hsum]
    exact hfilled.writeBytes (vs := [b]) hn hlt rfl rfl
  | dictSkip p0 l hph hp hl hroom =>
    simp only [State.Running, hph] at hs
    obtain ⟨himage, hchan, hport, hrest⟩ := hs
    have hpos : (p0 + 3).toNat = p0.toNat + 3 := toNat_add_ofNat (k := 3) hroom
    left
    simp only [State.Running, State.setInPos_phase, hph]
    exact ⟨himage.of_image himg rfl rfl, hchan, hport.advance hp (by omega), hrest⟩
  | dictCopy p0 l o count e d n plane hph hp hl hroom _ hd hn _ _ _ hfit hcopy =>
    simp only [State.Running, hph] at hs
    obtain ⟨himage, hchan, hport, he, hm, d', hd', hfilled⟩ := hs
    obtain rfl := Option.some.inj (hd.symm.trans hd')
    have hpos : (p0 + 3).toNat = p0.toNat + 3 := toNat_add_ofNat (k := 3) hroom
    left
    simp only [State.Running, State.setInPos_phase, hph]
    refine ⟨himage.of_image himg rfl rfl, hchan, hport.advance hp (by omega), he, hm, _, rfl, ?_⟩
    rw [toNat_add_ofNat hfit]
    exact ⟨⟨n, hn, hfit⟩, fun a ha => copyLoop_filled hcopy ((Nat.lt_or_ge a d.toNat).imp (hfilled.2 a) (⟨·, ha⟩))⟩
  | dictEnd n hph hd hn =>
    simp only [State.Running, hph] at hs
    obtain ⟨himage, hchan, hport, -, hm, d', hd', hfilled⟩ := hs
    exact .inl ⟨himage.of_image himg rfl rfl, hchan, d', by simpa [hm] using hd', hfilled⟩
  | rleWrite vs len p0 l q d n hph hp hl hroom hq hd hn hfit =>
    simp only [State.Running, hph] at hs
    obtain ⟨himage, hchan, ⟨sp, hport⟩, hsize, hm, d', hd', hfilled⟩ := hs
    obtain rfl := Option.some.inj (hd.symm.trans hd')
    left
    simp only [State.Running, State.setInPos_phase, hph]
    refine ⟨himage.of_image himg rfl rfl, hchan, ⟨sp, hport.advance hp (by omega)⟩, hsize, hm, _, rfl, ?_⟩
    rw [toNat_add_ofNat hfit]
    exact hfilled.writeBytes hn hfit rfl rfl
  | rleNop p0 l hph hp hl hroom =>
    simp only [State.Running, hph] at hs
    obtain ⟨himage, hchan, ⟨sp, hport⟩, hrest⟩ := hs
    have hpos : (p0 + 1).toNat = p0.toNat + 1 := toNat_add_ofNat (k := 1) hroom
    left
    simp only [State.Running, State.setInPos_phase, hph]
    exact ⟨himage.of_image himg rfl rfl, hchan, ⟨sp, hport.advance hp (by omega)⟩, hrest⟩
  | rleEnd p0 b n hph =>
    simp only [State.Running, hph] at hs
    obtain ⟨himage, hchan, -, -, hm, d', hd', hfilled⟩ := hs
    exact .inl ⟨himage.of_image himg rfl rfl, hchan, d', by simpa [hm] using hd', hfilled⟩
  | fillOk m n hph hm hn hd =>
    simp only [State.Running, hph] at hs
    obtain ⟨himage, hchan, d', hd', hfilled⟩ := hs
    have heq : d' = n := by
      simp only [hm, Option.some.injEq] at hd'
      exact Option.some.inj (hd'.symm.trans hd)
    exact .inl ⟨himage.of_image himg rfl rfl, hchan, n, hn, heq ▸ hfilled⟩
  | scatter c b w h n pix hph =>
    simp only [State.Running, hph] at hs
    obtain ⟨himage, -⟩ := hs
    exact .inl (himage.of_image himg rfl rfl)
  | nextChannel js i hph hjs hi hmore =>
    simp only [State.Running, hph] at hs
    obtain ⟨js', i', b, hjs', hi', hb, hlt, hle, hall⟩ := hs.jobs
    obtain rfl := Option.some.inj (hjs.symm.trans hjs')
    obtain rfl := Option.some.inj (hi.symm.trans hi')
    have hnext : (i + 1).toNat = i.toNat + 1 :=
      toNat_add_ofNat (k := 1) (n := 7) (by show i.toNat + 1 ≤ 7; omega)
    exact .inl ⟨hs.busy, hs.sizes, hs.pack, hs.fmt, js, i + 1, b, hjs, rfl, hb, by omega, hle, hall⟩

end Sys2Proof.Machine

namespace Sys2Proof.Machine

variable {p : FreqOverflow} {s : State}

/-! ## A safe running state's step answers: the decoder and the token's bytes -/

theorem takeU32_of_length {bs : List Byte} (h : 4 ≤ bs.length) :
    ∃ w r, takeU32 bs = some (w, r) ∧ bs.length = r.length + 4 := by
  match bs, h with
  | b0 :: b1 :: b2 :: b3 :: r, _ => exact ⟨_, r, rfl, rfl⟩

theorem takeU32s_of_length {n : Nat} {bs : List Byte} (h : 4 * n ≤ bs.length) :
    ∃ ws r, takeU32s n bs = some (ws, r) := by
  induction n generalizing bs with
  | zero => exact ⟨[], bs, rfl⟩
  | succ n ih =>
    obtain ⟨w, r, hw, hlen⟩ := takeU32_of_length (bs := bs) (by omega)
    obtain ⟨ws, r', hws⟩ := ih (bs := r) (by omega)
    exact ⟨w :: ws, r', by simp [takeU32s, hw, hws]⟩

theorem decodePack_total {bs : List Byte} (h : 1 ≤ bs.length) : ∃ i r, decodePack bs = .token i r := by
  match bs, h with
  | k :: r, _ =>
    simp only [decodePack]
    split
    · exact ⟨_, _, rfl⟩
    · split <;> exact ⟨_, _, rfl⟩

theorem decodeHufHeader_total {bs : List Byte} (h : 1032 ≤ bs.length) : ∃ i r, decodeHufHeader bs = .token i r := by
  obtain ⟨u, r1, hu, h1⟩ := takeU32_of_length (bs := bs) (by omega)
  obtain ⟨pk, r2, hpk, h2⟩ := takeU32_of_length (bs := r1) (by omega)
  obtain ⟨fs, r3, hfs⟩ := takeU32s_of_length (n := 256) (bs := r2) (by omega)
  exact ⟨.hufHeader u pk fs, r3, by simp only [decodeHufHeader, hu, hpk, hfs]⟩

theorem decodeDict_total {e : Byte} {bs : List Byte} (h : 3 ≤ bs.length) : ∃ i r, decodeDict e bs = .token i r := by
  match bs, h with
  | t0 :: t1 :: t2 :: r, _ =>
    simp only [decodeDict]
    split
    · exact ⟨_, _, rfl⟩
    · split <;> exact ⟨_, _, rfl⟩

theorem decodeRle_total {bs : List Byte} (h : 128 ≤ bs.length) : ∃ i r, decodeRle bs = .token i r := by
  match bs, h with
  | k :: v :: r, h =>
    simp only [decodeRle]
    split
    · exact ⟨_, _, rfl⟩
    · rename_i hk
      split
      · exact ⟨_, _, rfl⟩
      · have hmsb : k.toNat < 128 := by
          have hbit : k.msb = false := by simpa [BitVec.msb_eq_getLsbD_last] using hk
          have := BitVec.msb_eq_false_iff_two_mul_lt.mp hbit
          omega
        rw [if_pos (by simp only [List.length_cons] at h ⊢; omega)]
        exact ⟨_, _, rfl⟩

/-- Every byte string as long as the longest token of its format starts with a token (30_encoding R104). -/
theorem decode_total {c : Ctx} {bs : List Byte} (h : c.longest ≤ bs.length) : ∃ i r, decode c bs = .token i r := by
  cases c with
  | pack => exact decodePack_total h
  | hufHeader => exact decodeHufHeader_total h
  | hufBit pos =>
    match bs, h with
    | b :: r, _ => exact ⟨_, _, rfl⟩
  | dictHeader =>
    match bs, h with
    | _ :: _ :: _ :: _ :: _ :: _ :: _ :: _ :: e :: _ :: _ :: _ :: r, _ => exact ⟨_, _, rfl⟩
  | dict e => exact decodeDict_total h
  | rle => exact decodeRle_total h

/-- The decoder is given as many bytes as it asks for when the window holds values. -/
theorem peekBytes_length {sp : Space} {limit : Nat} (n a : Nat)
    (h : ∀ b, a ≤ b → b < limit → (portByte s sp b).isSome = true) : (peekBytes s sp limit n a).length = n := by
  induction n generalizing a with
  | zero => rfl
  | succ n ih =>
    have htail := ih (a + 1) fun b hb => h b (by omega)
    unfold peekBytes
    split
    · obtain ⟨v, hv⟩ := Option.isSome_iff_exists.mp (h a (le_refl a) (by assumption))
      simp [hv, htail]
    · simp [htail]

theorem State.PortOk.portBytesHere_length {sp : Space} (h : s.PortOk sp) (n : Nat) :
    (portBytesHere s n).length = n := by
  obtain ⟨b, l, p0, hsp, -, hl, hp, hle, hbytes⟩ := h
  simp only [portBytesHere, portBytes, hp, hsp, hl]
  exact peekBytes_length n _ fun a ha => hbytes a (by omega)

/-- A token phase answers when its bytes are there and every token of its format does. -/
theorem runToken_answers {c : Ctx} (hlen : c.longest ≤ (tokenBytes c s).length)
    (h : ∀ i r, decode c (tokenBytes c s) = .token i r → ∃ t, exec i s = .next t) : ∃ t, runToken c s = .next t := by
  obtain ⟨i, r, hdec⟩ := decode_total hlen
  rw [runToken_of_decode hdec]
  exact h i r hdec

/-! ## The shared operations answer -/

theorem raise_answers {e : ErrKind} {st : Stage} (hc : s.chChan ≠ none) : ∃ t, raise e st s = .next t := by
  obtain ⟨c, hc⟩ := Option.ne_none_iff_exists'.mp hc
  exact ⟨_, raise_eq hc⟩

/-- Consuming bytes goes on or raises. -/
theorem takeBytes_answers {n : Nat} {e : ErrKind} {st : Stage} {k : State → Out} (hp : s.inPos ≠ none)
    (hl : s.inLimit ≠ none) (hc : s.chChan ≠ none) (hk : ∀ q, ∃ t, k (s.setInPos q) = .next t) :
    ∃ t, takeBytes n e st s k = .next t := by
  obtain ⟨p0, hp⟩ := Option.ne_none_iff_exists'.mp hp
  obtain ⟨l, hl⟩ := Option.ne_none_iff_exists'.mp hl
  by_cases hroom : p0.toNat + n ≤ l.toNat
  · rw [takeBytes_room hp hl hroom]; exact hk _
  · rw [takeBytes_short hp hl (by omega)]; exact raise_answers hc

/-- Taking a bit goes on or raises. -/
theorem nextBit_answers {q : Fin 9} {sp : Space} {k : Bool → State → Out} (hq : s.brPos = some q)
    (hb : q.val < 8 → s.brByte ≠ none) (hport : s.PortOk sp) (hc : s.chChan ≠ none)
    (hk : ∀ bit s1, BitTaken s bit s1 → ∃ t, k bit s1 = .next t) : ∃ t, nextBit s k = .next t := by
  by_cases h8 : q.val < 8
  · obtain ⟨b, hb⟩ := Option.ne_none_iff_exists'.mp (hb h8)
    rw [nextBit_loaded hq h8 hb]
    exact hk _ _ (.loaded q b h8 hq hb)
  · obtain rfl : q = 8 := by ext; show q.val = 8; omega
    obtain ⟨b, l, p0, hsp, -, hl, hp, hle, hbytes⟩ := hport
    by_cases hroom : p0.toNat < l.toNat
    · obtain ⟨v, hv⟩ := Option.isSome_iff_exists.mp (hbytes _ hle hroom)
      rw [nextBit_refill hq hp hl hroom hsp hv]
      exact hk _ _ (.refill p0 l sp v hq hp hl hroom hsp hv)
    · rw [nextBit_short hq hp hl (by omega)]
      exact raise_answers hc

/-! ## The tokens answer -/

theorem execHufHeader_answers {u pk : BitVec 32} {fs : List (BitVec 32)} (hp : s.inPos ≠ none)
    (hl : s.inLimit ≠ none) (hc : s.chChan ≠ none) : ∃ t, execHufHeader u pk fs s = .next t := by
  unfold execHufHeader hufHeader
  refine takeBytes_answers hp hl hc fun q1 => ?_
  split
  · exact raise_answers hc
  · refine takeBytes_answers (by simp) hl hc fun q2 => ?_
    exact takeBytes_answers (by simp) hl hc fun q3 => ⟨_, rfl⟩

theorem execDictHeader_answers {e : BitVec 8} (hl : s.inLimit ≠ none) (hc : s.chChan ≠ none) :
    ∃ t, execDictHeader e s = .next t :=
  takeBytes_answers (by simp) hl hc fun _ => ⟨_, rfl⟩

theorem dictAppend_answers {b : BitVec 8} {d n : BitVec 32} (hd : s.dictDst = some d) (hn : s.planeSize = some n)
    (hlt : d.toNat < n.toNat) : ∃ t, dictAppend b s = .next t := by
  simp only [dictAppend, hd, withReg_some]
  rw [writePlane_room hn (by simpa using hlt)]
  exact ⟨_, rfl⟩

/-- The copy loop reads bytes before the place it writes to, so it never stops. -/
theorem copyLoop_answers {off count dst : Nat} {m : Memory} (hpos : 0 < off) (hle : off ≤ dst)
    (hfilled : ∀ a, a < dst → (m.read a).isSome = true) : ∃ m', copyLoop off count dst m = .next m' := by
  induction count generalizing dst m with
  | zero => exact ⟨m, rfl⟩
  | succ count ih =>
    obtain ⟨v, hv⟩ := Option.isSome_iff_exists.mp (hfilled (dst - off) (by omega))
    simp only [copyLoop, hv, withVal_some]
    refine ih (by omega) fun a ha => ?_
    rw [Memory.read_write]
    split
    · rfl
    · exact hfilled a (by omega)

theorem execDictCopy_answers {o count e : BitVec 8} {d : BitVec 32} (hp : s.inPos ≠ none) (hl : s.inLimit ≠ none)
    (hc : s.chChan ≠ none) (he : s.dictEsc = some e) (hd : s.dictDst = some d) (hfilled : s.PlaneFilled d.toNat) :
    ∃ t, execDictCopy o count s = .next t := by
  obtain ⟨⟨n, hn, -⟩, hbytes⟩ := hfilled
  refine takeBytes_answers hp hl hc fun q => ?_
  split
  · exact ⟨_, rfl⟩
  · simp only [State.setInPos_dictEsc, State.setInPos_dictDst, State.setInPos_planeSize, he, hd, hn, withReg_some]
    split
    · exact raise_answers hc
    · rename_i hback
      split
      · exact raise_answers hc
      · have hpos : 0 < (copyOffset o e).toNat :=
          Nat.pos_of_ne_zero fun h => hback (.inl (BitVec.eq_of_toNat_eq h))
        obtain ⟨m, hm⟩ := copyLoop_answers (count := count.toNat) hpos (by omega) hbytes
        simp only [State.setInPos_plane, hm, andThen_ofNext]
        exact ⟨_, rfl⟩

theorem rleWrite_answers {vs : List (BitVec 8)} {len : Nat} {d n : BitVec 32} (hp : s.inPos ≠ none)
    (hl : s.inLimit ≠ none) (hc : s.chChan ≠ none) (hd : s.rleDst = some d) (hn : s.planeSize = some n) :
    ∃ t, rleWrite vs len s = .next t := by
  refine takeBytes_answers hp hl hc fun q => ?_
  simp only [State.setInPos_rleDst, State.setInPos_planeSize, hd, hn, withReg_some]
  split
  · exact raise_answers hc
  · exact takeBytes_answers (by simp) hl hc fun q => ⟨_, rfl⟩

theorem execRleNop_answers (hp : s.inPos ≠ none) (hl : s.inLimit ≠ none) (hc : s.chChan ≠ none) :
    ∃ t, execRleNop s = .next t :=
  takeBytes_answers hp hl hc fun _ => ⟨_, rfl⟩

theorem hufMove_answers {child : BitVec 9} {cnt u : BitVec 32} (hcnt : s.hufOutCnt = some cnt)
    (hu : s.hufUnpacked = some u) (hlt : cnt < u) : ∃ t, hufMove child s = .next t := by
  unfold hufMove
  split
  · simp only [hufEmit, hcnt, hu, withReg_some, if_pos hlt]
    exact ⟨_, rfl⟩
  · exact ⟨_, rfl⟩

/-- A code bit of either value answers while the output is not complete. -/
theorem execHufBit_answers {i : Instr} {cnt u : BitVec 32} (hi : i = .hufBit0 ∨ i = .hufBit1) (hwalk : s.WalkOk)
    (hport : s.PortOk .src) (hc : s.chChan ≠ none) (hcnt : s.hufOutCnt = some cnt) (hu : s.hufUnpacked = some u)
    (hlt : cnt < u) : ∃ t, exec i s = .next t := by
  obtain ⟨⟨node, hnode, hlo, hhi⟩, htree, ⟨q, hq, hb⟩, -⟩ := hwalk
  obtain ⟨⟨x, hx, -⟩, y, hy, -⟩ := htree _ hlo hhi
  rcases hi with rfl | rfl
  · simp only [exec, execHufBit0]
    refine nextBit_answers hq hb hport hc fun bit s1 hbit => ?_
    obtain ⟨q, b, i, rfl⟩ := hbit.frame
    simp only [hnode, hx, withReg_some, withVal_some]
    exact hufMove_answers hcnt hu hlt
  · simp only [exec, execHufBit1]
    refine nextBit_answers hq hb hport hc fun bit s1 hbit => ?_
    obtain ⟨q, b, i, rfl⟩ := hbit.frame
    simp only [hnode, hy, withReg_some, withVal_some]
    exact hufMove_answers hcnt hu hlt

end Sys2Proof.Machine

namespace Sys2Proof.Machine

variable {p : FreqOverflow} {s : State}

/-! ## The internal steps answer -/

theorem scatterOrder_length (w h : Nat) : (scatterOrder w h).length = w * h := by
  simp [scatterOrder, List.length_flatMap, Nat.mul_comm]

theorem mem_scatterOrder {w h a : Nat} (ha : a ∈ scatterOrder w h) : a < w * h := by
  simp only [scatterOrder, List.mem_flatMap, List.mem_reverse, List.mem_range, List.mem_map] at ha
  obtain ⟨y, hy, x, hx, rfl⟩ := ha
  calc y * w + x < (y + 1) * w := by rw [Nat.succ_mul]; omega
    _ ≤ h * w := Nat.mul_le_mul_right w hy
    _ = w * h := Nat.mul_comm h w

/-- The scatter's loop reads filled bytes of the plane and writes inside the pixel buffer. -/
theorem scatterLoop_answers {plane pix : Memory} {bpp size dst : Nat} {as : List Nat}
    (hread : ∀ a ∈ as, (plane.read a).isSome = true) (hroom : ∀ k, k < as.length → dst + k * bpp < size) :
    ∃ pix', scatterLoop plane bpp size as dst pix = .next pix' := by
  induction as generalizing dst pix with
  | nil => exact ⟨pix, rfl⟩
  | cons a as ih =>
    obtain ⟨v, hv⟩ := Option.isSome_iff_exists.mp (hread a List.mem_cons_self)
    have hdst : dst < size := by simpa using hroom 0 (by simp)
    simp only [scatterLoop, hv, withVal_some, scatterWrite, if_pos hdst, andThen_ofNext]
    refine ih (fun b hb => hread b (List.mem_cons_of_mem a hb)) fun k hk => ?_
    have := hroom (k + 1) (by simpa using hk)
    rw [Nat.succ_mul] at this
    omega

/-- The last byte of a lane lies inside the pixel buffer. -/
theorem lane_lt {k n c b : Nat} (hk : k < n) (hc : c < b) : c + k * b < n * b :=
  calc c + k * b < (k + 1) * b := by rw [Nat.succ_mul]; omega
    _ ≤ n * b := Nat.mul_le_mul_right b hk

theorem pipeScatter_answers {n : BitVec 32} (himage : s.ImageOk) (hchan : s.ChannelOk) (hn : s.planeSize = some n)
    (hfilled : s.PlaneFilled n.toNat) : ∃ t, pipeScatter s = .next t := by
  obtain ⟨w, h, n', b, q, hw, hh, hn', hb, hq, hsize, hpix⟩ := himage.sizes
  obtain ⟨c, b', -, hc, hb', hlt, -⟩ := hchan
  obtain rfl := Option.some.inj (hn.symm.trans hn')
  obtain rfl := Option.some.inj (hb.symm.trans hb')
  obtain ⟨pix, hloop⟩ := scatterLoop_answers (plane := s.plane) (pix := s.pix) (bpp := b.toNat) (size := q.toNat)
    (dst := c.toNat) (as := scatterOrder w.toNat h.toNat)
    (fun a ha => hfilled.2 a (by rw [hsize]; exact mem_scatterOrder ha))
    (fun k hk => by rw [scatterOrder_length, ← hsize] at hk; rw [hpix]; exact lane_lt hk hlt)
  simp only [pipeScatter, hc, hb, hw, hh, hq, withReg_some, hloop, andThen_ofNext]
  exact ⟨_, rfl⟩

theorem fillCheck_answers {m : PipeMode} {n d : BitVec 32} (hc : s.chChan ≠ none) (hm : s.pipeMode = some m)
    (hn : s.planeSize = some n) (hd : (if m = .hufdict then s.dictDst else s.rleDst) = some d) :
    ∃ t, fillCheck s = .next t := by
  simp only [fillCheck, hm, hn, hd, withReg_some]
  split
  · exact ⟨_, rfl⟩
  · exact raise_answers hc

theorem channelNext_answers (himage : s.ImageOk) : ∃ t, channelNext s = .next t := by
  obtain ⟨js, i, b, hjs, hi, -⟩ := himage.jobs
  obtain ⟨f, hf⟩ := Option.ne_none_iff_exists'.mp himage.fmt
  simp only [channelNext, hjs, hi, hf, withReg_some]
  split <;> exact ⟨_, rfl⟩

theorem hufEnd_answers {u : BitVec 32} {m : PipeMode} (hu : s.hufUnpacked = some u) (hm : s.pipeMode = some m) :
    ∃ t, hufEnd s = .next t := by
  simp only [hufEnd, hu, hm, withReg_some]
  cases m <;> exact ⟨_, rfl⟩

/-- A merge makes its node or raises: the entries of the list have frequencies (41_huffman R144, R145). -/
theorem hufMerge_answers (hbuild : s.BuildOk) (hc : s.chChan ≠ none) : ∃ t, hufMerge p s = .next t := by
  obtain ⟨act, n, hact, hn, htwo, hlo, hcount, hall, -⟩ := hbuild
  match act, htwo with
  | l :: r :: rest, _ =>
    simp only [List.length_cons] at hcount
    obtain ⟨fl, hfl⟩ := Option.isSome_iff_exists.mp (hall l (by simp)).2
    obtain ⟨fr, hfr⟩ := Option.isSome_iff_exists.mp (hall r (by simp)).2
    have hrange : 256 ≤ n.toNat ∧ n.toNat ≤ 510 := ⟨hlo, by omega⟩
    simp only [hufMerge, hact, hn, withReg_some, if_pos hrange, hfl, hfr, withVal_some]
    cases hf : freqAdd p fl fr with
    | none => exact raise_answers hc
    | some f =>
      have hnode : (n.setWidth 9).toNat = n.toNat := by rw [BitVec.toNat_setWidth]; omega
      obtain ⟨keys, hkeys⟩ := keyed_of_some (freq := cellSet s.freq n.toNat f) (act := rest) fun x hx => by
        rw [cellGet_cellSet]
        split
        · rfl
        · exact (hall x (by simp [hx])).2
      have hins : insertStable (cellSet s.freq n.toNat f) (n.setWidth 9) rest =
          .next ((insertKeyed f (n.setWidth 9) keys).map Prod.snd) :=
        insertStable_next.mpr ⟨f, keys, by rw [hnode, cellGet_cellSet, if_pos rfl], hkeys, rfl⟩
      simp only [hins, andThen_ofNext]
      exact ⟨_, rfl⟩

/-! ## Each phase answers -/

theorem State.ChannelOk.chChan_ne_none (h : s.ChannelOk) : s.chChan ≠ none := by
  obtain ⟨c, -, -, hc, -⟩ := h
  simp [hc]

theorem State.PortOk.inPos_ne_none {sp : Space} (h : s.PortOk sp) : s.inPos ≠ none := by
  obtain ⟨-, -, p0, -, -, -, hp, -⟩ := h
  simp [hp]

theorem State.PortOk.inLimit_ne_none {sp : Space} (h : s.PortOk sp) : s.inLimit ≠ none := by
  obtain ⟨-, l, -, -, -, hl, -⟩ := h
  simp [hl]

theorem chSetup_answers (hph : s.phase = .chSetup) (himage : s.ImageOk) : ∃ t, stepWith p s = .next t := by
  obtain ⟨js, i, -, hjs, hi, -, hlt, -⟩ := himage.jobs
  obtain ⟨k, hk⟩ := Option.ne_none_iff_exists'.mp himage.pack
  rw [stepWith_chSetup hph hjs hi (List.getElem?_eq_getElem hlt)]
  refine runToken_answers (by simp [tokenBytes, hk, Ctx.longest]) fun tok r hdec => ?_
  obtain ⟨-, -, ⟨-, rfl⟩ | ⟨-, rfl⟩ | ⟨-, -, rfl⟩⟩ := decode_pack_cases hdec
  · exact ⟨_, rfl⟩
  · exact ⟨_, rfl⟩
  · exact ⟨_, rfl⟩

theorem hufHeader_answers (hph : s.phase = .hufHeader) (hc : s.chChan ≠ none) (hport : s.PortOk .src) :
    ∃ t, stepWith p s = .next t := by
  rw [stepWith_hufHeader hph]
  refine runToken_answers (hport.portBytesHere_length 1032).ge fun tok r hdec => ?_
  obtain ⟨u, pk, fs, rfl, -⟩ := decode_hufHeader_cases hdec
  exact execHufHeader_answers (pk := pk) hport.inPos_ne_none hport.inLimit_ne_none hc

/-- The byte a code bit stands in is loaded, or stands under the port. -/
theorem tokenBytes_hufBit_length {pos : Fin 8} {q : Fin 9} {sp : Space} (hport : s.PortOk sp) (hq : s.brPos = some q)
    (hb : q.val < 8 → s.brByte ≠ none) : 1 ≤ (tokenBytes (.hufBit pos) s).length := by
  by_cases h8 : q = 8
  · simp [tokenBytes, hq, h8, hport.portBytesHere_length]
  · obtain ⟨b, hb⟩ := Option.ne_none_iff_exists'.mp (hb (by have := Fin.val_ne_iff.mpr h8; simp at this; omega))
    simp [tokenBytes, hq, h8, hb]

theorem hufDecode_answers (hph : s.phase = .hufDecode) (hchan : s.ChannelOk) (hport : s.PortOk .src)
    (hwalk : s.WalkOk) : ∃ t, stepWith p s = .next t := by
  have ⟨_, _, ⟨q, hq, hb⟩, cnt, u, hcnt, hu, hle, _⟩ := hwalk
  by_cases heq : cnt = u
  · obtain ⟨-, -, m, -, -, -, hm, -⟩ := hchan
    have hend : stepWith p s = hufEnd s := by simp [stepWith, hph, hufDecodeStep, hcnt, hu, heq]
    rw [hend]
    exact hufEnd_answers hu hm
  · have hlt : cnt < u := by
      have := BitVec.toNat_ne.mp heq
      rw [BitVec.lt_def]; omega
    obtain ⟨pos, hctx⟩ : ∃ pos, bitCtx q = .hufBit pos := by
      unfold bitCtx
      split <;> exact ⟨_, rfl⟩
    rw [stepWith_hufDecode hph hcnt hu heq hq, hctx]
    exact runToken_answers (tokenBytes_hufBit_length hport hq hb) fun i r hdec =>
      execHufBit_answers (decode_hufBit_cases hdec) hwalk hport hchan.chChan_ne_none hcnt hu hlt

theorem dictHeader_answers (hph : s.phase = .dictHeader) (hc : s.chChan ≠ none) (hport : s.PortOk .hout)
    (hbase : s.inBase = some 0) : ∃ t, stepWith p s = .next t := by
  rw [stepWith_dictHeader hph]
  have hlen : (portBytes s 1 8).length = 1 := by
    obtain ⟨b, l, p0, hsp, hb, hl, -, -, hbytes⟩ := hport
    obtain rfl := Option.some.inj (hbase.symm.trans hb)
    simp only [portBytes, hsp, hl]
    exact peekBytes_length 1 _ fun a _ ha => hbytes a (Nat.zero_le a) ha
  refine runToken_answers ?_ fun tok r hdec => ?_
  · obtain ⟨e, he⟩ := List.length_eq_one_iff.mp hlen
    simp only [tokenBytes, he]
    exact le_refl 12
  · obtain ⟨e, rfl⟩ := decode_dictHeader_cases hdec
    exact execDictHeader_answers hport.inLimit_ne_none hc

theorem dict_answers {d : BitVec 32} (hph : s.phase = .dict) (hc : s.chChan ≠ none) (hport : s.PortOk .hout)
    (he : s.dictEsc ≠ none) (hd : s.dictDst = some d) (hfilled : s.PlaneFilled d.toNat) :
    ∃ t, stepWith p s = .next t := by
  have ⟨⟨n, hn, hle⟩, _⟩ := hfilled
  have hp := hport.inPos_ne_none
  have hl := hport.inLimit_ne_none
  obtain ⟨e, he⟩ := Option.ne_none_iff_exists'.mp he
  by_cases heq : d = n
  · exact ⟨{ s with phase := .fillCheck }, by simp [stepWith, hph, dictStep, hd, hn, heq, dictEnd]⟩
  · have hlt : d.toNat < n.toNat := by
      have := BitVec.toNat_ne.mp heq
      omega
    rw [stepWith_dict hph hd hn heq he]
    refine runToken_answers (hport.portBytesHere_length 3).ge fun tok r hdec => ?_
    obtain ⟨b, rfl⟩ | rfl | ⟨o, count, rfl⟩ := decode_dict_cases hdec
    · exact takeBytes_answers hp hl hc fun q => dictAppend_answers hd hn hlt
    · simp only [exec, execDictEsc]
      refine takeBytes_answers hp hl hc fun q => ?_
      simp only [State.setInPos_dictEsc, he, withReg_some]
      exact dictAppend_answers hd hn hlt
    · exact execDictCopy_answers hp hl hc he hd hfilled

theorem rle_answers {sp : Space} {d : BitVec 32} (hph : s.phase = .rle) (hc : s.chChan ≠ none) (hport : s.PortOk sp)
    (hsize : s.rleSrcSize ≠ none) (hd : s.rleDst = some d) (hfilled : s.PlaneFilled d.toNat) :
    ∃ t, stepWith p s = .next t := by
  have ⟨b, _, pos, _, hb, _, hpos, _⟩ := hport
  have hp := hport.inPos_ne_none
  have hl := hport.inLimit_ne_none
  obtain ⟨⟨n, hn, -⟩, -⟩ := hfilled
  obtain ⟨size, hsize⟩ := Option.ne_none_iff_exists'.mp hsize
  by_cases hlt : pos.toNat - b.toNat < size.toNat
  · rw [stepWith_rle hph hpos hb hsize hlt]
    refine runToken_answers (hport.portBytesHere_length 128).ge fun tok r hdec => ?_
    obtain rfl | ⟨vs, rfl⟩ | ⟨k, v, rfl⟩ := decode_rle_cases hdec
    · exact execRleNop_answers hp hl hc
    · exact rleWrite_answers hp hl hc hd hn
    · exact rleWrite_answers hp hl hc hd hn
  · exact ⟨{ s with phase := .fillCheck }, by simp [stepWith, hph, rleStep, hpos, hb, hsize, hlt, rleEnd]⟩

/-- No step of a safe running state stops (10_state R43). -/
theorem State.Running.answers (hs : s.Running) : ∃ t, stepWith p s = .next t := by
  cases hph : s.phase <;> simp only [State.Running, hph] at hs
  case chSetup => exact chSetup_answers hph hs
  case hufHeader =>
    obtain ⟨-, hchan, hport⟩ := hs
    exact hufHeader_answers hph hchan.chChan_ne_none hport
  case hufBuild =>
    obtain ⟨-, hchan, -, hbuild, -⟩ := hs
    obtain ⟨t, ht⟩ := hufMerge_answers (p := p) hbuild hchan.chChan_ne_none
    exact ⟨t, by simpa [stepWith, hph] using ht⟩
  case hufDecode =>
    obtain ⟨-, hchan, hport, hwalk⟩ := hs
    exact hufDecode_answers hph hchan hport hwalk
  case dictHeader =>
    obtain ⟨-, hchan, hport, hbase, -⟩ := hs
    exact dictHeader_answers hph hchan.chChan_ne_none hport hbase
  case dict =>
    obtain ⟨-, hchan, hport, he, -, d, hd, hfilled⟩ := hs
    exact dict_answers hph hchan.chChan_ne_none hport he hd hfilled
  case rle =>
    obtain ⟨-, hchan, ⟨sp, hport⟩, hsize, -, d, hd, hfilled⟩ := hs
    exact rle_answers hph hchan.chChan_ne_none hport hsize hd hfilled
  case fillCheck =>
    obtain ⟨-, hchan, d, hd, ⟨n, hn, -⟩, -⟩ := hs
    have ⟨_, _, m, _, _, _, hm, _⟩ := hchan
    obtain ⟨t, ht⟩ := fillCheck_answers (d := d) hchan.chChan_ne_none hm hn (by simpa [hm] using hd)
    exact ⟨t, by simpa [stepWith, hph] using ht⟩
  case scatter =>
    obtain ⟨himage, hchan, n, hn, hfilled⟩ := hs
    obtain ⟨t, ht⟩ := pipeScatter_answers himage hchan hn hfilled
    exact ⟨t, by simpa [stepWith, hph] using ht⟩
  case chNext =>
    obtain ⟨t, ht⟩ := channelNext_answers hs
    exact ⟨t, by simpa [stepWith, hph] using ht⟩

/-- Settles O51: a step answers (`State.Running.answers`), and what it answers is safe or ended (`Effect.running`). -/
theorem runningNeverStops : Obligations.RunningNeverStops := by
  intro p s hs
  obtain ⟨t, ht⟩ := hs.answers (p := p)
  exact ⟨t, ht, (stepWith_effect ht).running hs⟩

end Sys2Proof.Machine

namespace Sys2Proof.Machine

variable {p : FreqOverflow} {s t : State}

/-! # The memory family: how a step writes the memories and the arena, and the bytes a token is decoded from -/

/-! ## Writes at allowed addresses -/

/-- `m'` comes from `m` by emptying it and writing cells at addresses that satisfy `P`, in any order. -/
inductive Written {α : Type} (P : Nat → Prop) (m : List (Nat × α)) : List (Nat × α) → Prop
  | kept : Written P m m
  | cleared : Written P m []
  | write {m' : List (Nat × α)} (a : Nat) (v : α) (hm : Written P m m') (ha : P a) : Written P m (cellSet m' a v)

theorem Written.canonical {α : Type} {P : Nat → Prop} {m m' : List (Nat × α)} (h : Written P m m')
    (hm : cellsFrom 0 m = true) : cellsFrom 0 m' = true := by
  induction h with
  | kept => exact hm
  | cleared => rfl
  | write a v _ _ ih => exact cellsFrom_cellSet _ 0 a v ih (Nat.zero_le a)

/-- If the cells that held a value were at allowed addresses, so are those that hold one now. -/
theorem Written.inBounds {α : Type} {P : Nat → Prop} {m m' : List (Nat × α)} (h : Written P m m')
    (hm : ∀ a, (cellGet m a).isSome = true → P a) (a : Nat) (ha : (cellGet m' a).isSome = true) : P a := by
  induction h with
  | kept => exact hm a ha
  | cleared => cases ha
  | write b v _ hb ih =>
    rw [cellGet_cellSet] at ha
    split at ha
    case isTrue heq => exact heq ▸ hb
    case isFalse => exact ih ha

theorem Written.writeBytes {P : Nat → Prop} {m m' : Memory} {d : Nat} {vs : List (BitVec 8)} (h : Written P m m')
    (hP : ∀ a, d ≤ a → a < d + vs.length → P a) : Written P m (m'.writeBytes d vs) := by
  induction vs generalizing m' d with
  | nil => exact h
  | cons v vs ih =>
    simp only [List.length_cons] at hP
    exact ih (.write d v h (hP d (le_refl d) (by omega))) fun a h1 h2 => hP a (by omega) (by omega)

theorem Written.copyLoop {P : Nat → Prop} {m m' m'' : Memory} {off count d : Nat} (h : Written P m m')
    (hcopy : copyLoop off count d m' = .next m'') (hP : ∀ a, d ≤ a → a < d + count → P a) : Written P m m'' := by
  induction count generalizing m' d with
  | zero =>
    obtain rfl := Host.Outcome.next.inj hcopy
    exact h
  | succ count ih =>
    obtain ⟨v, -, hcopy⟩ := withVal_next.mp hcopy
    exact ih (.write d v h (hP d (le_refl d) (by omega))) hcopy fun a h1 h2 => hP a (by omega) (by omega)

/-- The scatter writes below the size it is given (44_pipeline R218). -/
theorem Written.scatterLoop {P : Nat → Prop} {plane m m' m'' : Memory} {bpp size d : Nat} {as : List Nat}
    (h : Written P m m') (hloop : scatterLoop plane bpp size as d m' = .next m'') (hP : ∀ a, a < size → P a) :
    Written P m m'' := by
  induction as generalizing m' d with
  | nil =>
    obtain rfl := Host.Outcome.next.inj hloop
    exact h
  | cons a as ih =>
    obtain ⟨v, -, hloop⟩ := withVal_next.mp hloop
    obtain ⟨pix, hwrite, hloop⟩ := andThen_next.mp hloop
    unfold scatterWrite at hwrite
    split at hwrite
    · rename_i hlt
      obtain rfl := Host.Outcome.next.inj hwrite
      exact ih (.write d v h (hP d hlt)) hloop
    · cases hwrite

theorem Written.writeFreqs {P : Nat → Prop} {m m' : List (Nat × Nat)} {i : Nat} {fs : List (BitVec 32)}
    (h : Written P m m') (hP : ∀ a, i ≤ a → a < i + fs.length → P a) : Written P m (writeFreqs m' i fs) := by
  induction fs generalizing m' i with
  | nil => exact h
  | cons f fs ih =>
    simp only [List.length_cons] at hP
    exact ih (.write i f.toNat h (hP i (le_refl i) (by omega))) fun a h1 h2 => hP a (by omega) (by omega)

/-! ## The addresses each memory has (20_memory R60, R77, 10_state R36) -/

/-- `PLANE` has the addresses below `PLANE_SIZE`. -/
def State.PlaneAddr (s : State) (a : Nat) : Prop := ∃ n, s.planeSize = some n ∧ a < n.toNat

/-- `PIX` has the addresses below `PIX_SIZE`. -/
def State.PixAddr (s : State) (a : Nat) : Prop := ∃ n, s.pixSize = some n ∧ a < n.toNat

/-- The addresses of `HOUT` that are used lie below `HUF_UNPACKED`. -/
def State.HoutAddr (s : State) (a : Nat) : Prop := ∃ u, s.hufUnpacked = some u ∧ a < u.toNat

/-- The nodes that have children. -/
def InnerNode (i : Nat) : Prop := 256 ≤ i ∧ i ≤ 510

/-- A step writes the working memories and the arena at addresses they have, by the registers before the step. -/
structure MemoryEffect (s t : State) : Prop where
  plane : Written s.PlaneAddr s.plane t.plane
  pix   : Written s.PixAddr s.pix t.pix
  hout  : Written s.HoutAddr s.hout t.hout
  freq  : Written (· ≤ 510) s.freq t.freq
  left  : Written InnerNode s.left t.left
  right : Written InnerNode s.right t.right

theorem State.merged_memoryEffect {l r : BitVec 9} {n : BitVec 10} {f : Nat} {act : List (BitVec 9)}
    (hn : InnerNode n.toNat) : MemoryEffect s (s.merged n l r f act) where
  plane := by unfold State.merged; split <;> exact .kept
  pix   := by unfold State.merged; split <;> exact .kept
  hout  := by unfold State.merged; split <;> exact .kept
  freq  := State.merged_freq .. ▸ .write _ _ .kept hn.2
  left  := State.merged_left .. ▸ .write _ _ .kept hn
  right := State.merged_right .. ▸ .write _ _ .kept hn

theorem Effect.memoryEffect (h : Effect p s t) : MemoryEffect s t := by
  cases h
  case start => exact ⟨.cleared, .cleared, .cleared, .cleared, .cleared, .cleared⟩
  case fault => exact ⟨.cleared, .cleared, .cleared, .cleared, .cleared, .cleared⟩
  case pipeRle => exact ⟨.cleared, .kept, .kept, .kept, .kept, .kept⟩
  case pipeHuf => exact ⟨.cleared, .kept, .cleared, .cleared, .cleared, .cleared⟩
  case header hfs _ => exact ⟨.kept, .kept, .kept, .writeFreqs .kept fun a _ _ => by omega, .kept, .kept⟩
  case merge hlo hhi _ _ _ _ => exact State.merged_memoryEffect ⟨hlo, hhi⟩
  case walk hbit _ _ _ =>
    obtain ⟨q, b, i, rfl⟩ := hbit.frame
    exact ⟨.kept, .kept, .kept, .kept, .kept, .kept⟩
  case emit u _ hbit _ _ _ _ hu hlt =>
    obtain ⟨q, b, i, rfl⟩ := hbit.frame
    exact ⟨.kept, .kept, .write _ _ .kept ⟨u, hu, hlt⟩, .kept, .kept, .kept⟩
  case dictAppend n _ _ _ _ _ _ hn hlt =>
    exact ⟨.writeBytes .kept fun a _ ha => ⟨n, hn, by simp at ha; omega⟩, .kept, .kept, .kept, .kept, .kept⟩
  case dictCopy n _ _ _ _ _ _ _ hn _ _ _ hfit hcopy =>
    exact ⟨.copyLoop .kept hcopy fun a _ ha => ⟨n, hn, by omega⟩, .kept, .kept, .kept, .kept, .kept⟩
  case rleWrite n _ _ _ _ _ _ hn hfit =>
    exact ⟨.writeBytes .kept fun a _ ha => ⟨n, hn, by omega⟩, .kept, .kept, .kept, .kept, .kept⟩
  case scatter n _ _ _ _ _ _ hn hloop =>
    exact ⟨.kept, .scatterLoop .kept hloop fun a ha => ⟨n, hn, ha⟩, .kept, .kept, .kept, .kept⟩
  all_goals exact ⟨.kept, .kept, .kept, .kept, .kept, .kept⟩

/-! ## `SRC` and the registers that bound the memories -/

/-- A step of a phase outside a decode waits, loads an image or starts a decode (44_pipeline R211, R230). -/
theorem Effect.of_waits (h : Effect p s t) (hw : s.phase.waits = true) :
    t = s ∨ (∃ d image rest, t = { s with inbox := rest }.loaded d image) ∨
      (coreOk s = true ∧ ∃ rest w h d a r g b, t = { s with inbox := rest }.started w h d a r g b) := by
  cases h
  case wait => exact .inl rfl
  case load d image rest _ _ _ => exact .inr (.inl ⟨d, image, rest, rfl⟩)
  case start hok _ _ _ _ _ _ _ => exact .inr (.inr ⟨hok, _, _, _, _, _, _, _, _, rfl⟩)
  case fault hrun _ _ _ => rw [hw] at hrun; cases hrun
  all_goals simp [*, Phase.waits] at hw

/-- Only a load changes `SRC` (10_state R45, 20_memory R61). -/
theorem Effect.src (h : Effect p s t) : t.src = s.src ∨ ∃ image, t.src = Memory.ofBytes 0 image := by
  cases hw : s.phase.waits
  case false => exact .inl (congrArg Prod.fst (h.image hw))
  case true =>
    obtain rfl | ⟨d, image, rest, rfl⟩ | ⟨-, _, _, _, _, _, _, _, _, rfl⟩ := h.of_waits hw
    · exact .inl rfl
    · exact .inr ⟨image, rfl⟩
    · exact .inl rfl

/-- While a decode is in progress `SRC` stays below the file size: `CORE_OK` asks it of the start and no step of the decode
changes either (10_state R26, R45). -/
theorem Effect.src_inBounds (h : Effect p s t) (hs : s.InBounds) (ht : t.phase.waits = false) (a : Nat)
    (ha : (t.src.read a).isSome = true) : ∃ f, t.descFileSize = some f ∧ a < f.toNat := by
  cases hw : s.phase.waits
  case false =>
    have himage := h.image hw
    simp only [State.image, Prod.mk.injEq] at himage
    obtain ⟨hsrc, -, -, -, -, -, -, -, -, -, hsize, -⟩ := himage
    rw [hsrc] at ha
    exact hsize ▸ hs.src hw a ha
  case true =>
    obtain rfl | ⟨d, image, rest, rfl⟩ | ⟨hok, _, _, _, _, _, _, _, _, rfl⟩ := h.of_waits hw
    · simp [hw] at ht
    · simp [hw] at ht
    · exact coreOk_src hok ha

/-- The sizes change at a start only, which empties the memories they bound (10_state R45, 44_pipeline R211). -/
theorem Effect.sizes (h : Effect p s t) :
    (t.planeSize = s.planeSize ∧ t.pixSize = s.pixSize) ∨ (t.plane = [] ∧ t.pix = []) := by
  cases hw : s.phase.waits
  case false =>
    have himage := h.image hw
    simp only [State.image, Prod.mk.injEq] at himage
    obtain ⟨-, -, -, -, -, -, -, -, -, -, -, -, -, -, -, hplane, hpix, -⟩ := himage
    exact .inl ⟨hplane, hpix⟩
  case true =>
    obtain rfl | ⟨d, image, rest, rfl⟩ | ⟨-, _, _, _, _, _, _, _, _, rfl⟩ := h.of_waits hw
    · exact .inl ⟨rfl, rfl⟩
    · exact .inl ⟨rfl, rfl⟩
    · exact .inr ⟨rfl, rfl⟩

/-- What a step does to `HUF_UNPACKED`, the bound of `HOUT`: the header writes it and goes on to the build, and it is taken
to no value together with `HOUT` (41_huffman R141, 44_pipeline R215, 60_exceptions R245). -/
inductive UnpackedEffect (s t : State) : Prop
  | kept (hu : t.hufUnpacked = s.hufUnpacked) (hph : t.phase ≠ .hufHeader)
  | cleared (hu : t.hufUnpacked = none) (hhout : t.hout = [])
  | header (u : BitVec 32) (hu : t.hufUnpacked = some u) (hcap : u.toNat ≤ Config.houtCapacity)
      (hph : s.phase = .hufHeader) (hph' : t.phase ≠ .hufHeader) (hhout : t.hout = s.hout)

theorem ne_hufHeader_of_waits (hw : s.phase.waits = true) : s.phase ≠ .hufHeader := by
  intro hph
  simp [hph, Phase.waits] at hw

theorem Effect.unpackedEffect (h : Effect p s t) : UnpackedEffect s t := by
  cases h
  case wait hw _ => exact .kept rfl (ne_hufHeader_of_waits hw)
  case load hw _ _ => exact .kept rfl (ne_hufHeader_of_waits hw)
  case start => exact .kept rfl (by simp [State.started])
  case fault => exact .cleared rfl rfl
  case pipeHuf => exact .cleared rfl rfl
  case header u fs p0 l q hph _ _ _ _ _ hcap => exact .header u rfl hcap hph (by simp) rfl
  case merge act' _ _ _ _ hph _ _ _ _ _ _ _ _ =>
    by_cases h1 : act'.length = 1
    · rw [State.merged_last h1]; exact .kept rfl (by simp)
    · rw [State.merged_more h1]; exact .kept rfl (by simp [hph])
  case walk hph hbit _ _ _ =>
    obtain ⟨q, b, i, rfl⟩ := hbit.frame
    exact .kept rfl (by simp [hph])
  case emit hph hbit _ _ _ _ _ _ =>
    obtain ⟨q, b, i, rfl⟩ := hbit.frame
    exact .kept rfl (by simp [hph])
  all_goals exact .kept rfl (by simp [*])

theorem UnpackedEffect.fits (h : UnpackedEffect s t) (hs : ∀ u, s.hufUnpacked = some u → u.toNat ≤ Config.houtCapacity)
    (u : BitVec 32) (hu : t.hufUnpacked = some u) : u.toNat ≤ Config.houtCapacity := by
  cases h with
  | kept hkept => exact hs u (hkept ▸ hu)
  | cleared hnone => simp [hnone] at hu
  | header u' hu' hcap =>
    obtain rfl := Option.some.inj (hu'.symm.trans hu)
    exact hcap

theorem UnpackedEffect.fresh (h : UnpackedEffect s t) (hph : t.phase = .hufHeader) : t.hout = [] := by
  cases h with
  | kept _ hne => exact absurd hph hne
  | cleared _ hhout => exact hhout
  | header _ _ _ _ hne => exact absurd hph hne

/-- `HOUT` is empty when the header writes its bound. -/
theorem UnpackedEffect.hout_inBounds (h : UnpackedEffect s t) (hw : Written s.HoutAddr s.hout t.hout) (hs : s.InBounds)
    (a : Nat) (ha : (t.hout.read a).isSome = true) : t.HoutAddr a := by
  cases h with
  | kept hu =>
    unfold State.HoutAddr
    exact hu ▸ hw.inBounds hs.hout a ha
  | cleared _ hhout => simp [hhout] at ha
  | header _ _ _ hph _ hhout => simp [hhout, hs.fresh hph] at ha

/-! ## The statements -/

theorem Effect.plane_inBounds (h : Effect p s t) (hs : s.InBounds) (a : Nat) (ha : (t.plane.read a).isSome = true) :
    t.PlaneAddr a := by
  obtain ⟨hsize, -⟩ | ⟨hempty, -⟩ := h.sizes
  · unfold State.PlaneAddr
    exact hsize ▸ h.memoryEffect.plane.inBounds hs.plane a ha
  · simp [hempty] at ha

theorem Effect.pix_inBounds (h : Effect p s t) (hs : s.InBounds) (a : Nat) (ha : (t.pix.read a).isSome = true) :
    t.PixAddr a := by
  obtain ⟨-, hsize⟩ | ⟨-, hempty⟩ := h.sizes
  · unfold State.PixAddr
    exact hsize ▸ h.memoryEffect.pix.inBounds hs.pix a ha
  · simp [hempty] at ha

/-- Settles O47: every write is at an address its memory has (`Effect.memoryEffect`), and a bound changes only when its
memory is empty (`Effect.sizes`, `Effect.unpackedEffect`) or, for `SRC`, under `CORE_OK` (`Effect.src_inBounds`). -/
theorem cellsStayInBounds : Obligations.CellsStayInBounds := by
  intro s t hs h
  have heff := stepWith_effect h
  have hunpacked := heff.unpackedEffect
  obtain ⟨-, -, hhout, hfreq, hleft, hright⟩ := heff.memoryEffect
  exact {
    src := heff.src_inBounds hs
    plane := heff.plane_inBounds hs
    pix := heff.pix_inBounds hs
    hout := hunpacked.hout_inBounds hhout hs
    fits := hunpacked.fits hs.fits
    fresh := hunpacked.fresh
    freq := hfreq.inBounds hs.freq
    left := hleft.inBounds hs.left
    right := hright.inBounds hs.right }

/-- Settles O45: each write keeps the canonical form (`Written.canonical`), and a load writes `SRC` in it. -/
theorem canonicalFormKept : Obligations.CanonicalFormKept := by
  intro s t hs h
  have heff := stepWith_effect h
  obtain ⟨hplane, hpix, hhout, hfreq, hleft, hright⟩ := heff.memoryEffect
  exact {
    src := by
      obtain hsrc | ⟨image, hsrc⟩ := heff.src
      · exact hsrc ▸ hs.src
      · exact hsrc ▸ Memory.wf_ofBytes image 0
    hout := hhout.canonical hs.hout
    plane := hplane.canonical hs.plane
    pix := hpix.canonical hs.pix
    freq := hfreq.canonical hs.freq
    left := hleft.canonical hs.left
    right := hright.canonical hs.right }

/-! ## The bytes of a token (20_memory R66, 40_bitreader R131) -/

/-- Inside the window the decoder is given the bytes of the memory under the port. -/
theorem peekBytes_getElem? {sp : Space} {limit n a k : Nat}
    (h : ∀ b, a ≤ b → b < limit → (portByte s sp b).isSome = true) (hk : k < n) (hlt : a + k < limit) :
    (peekBytes s sp limit n a)[k]? = portByte s sp (a + k) := by
  induction n generalizing a k with
  | zero => exact absurd hk (Nat.not_lt_zero k)
  | succ n ih =>
    obtain ⟨v, hv⟩ := Option.isSome_iff_exists.mp (h a (le_refl a) (by omega))
    simp only [peekBytes, if_pos (show a < limit by omega), hv]
    cases k with
    | zero => simp [hv]
    | succ k =>
      rw [List.getElem?_cons_succ, ih (fun b hb => h b (by omega)) (by omega) (by omega)]
      congr 1
      omega

theorem portBytesHere_getElem? {sp : Space} {p0 l : BitVec 33} (hsp : s.inSpace = some sp) (hp : s.inPos = some p0)
    (hl : s.inLimit = some l) (h : ∀ a, p0.toNat ≤ a → a < l.toNat → (portByte s sp a).isSome = true) {n k : Nat}
    (hk : k < n) (hlt : p0.toNat + k < l.toNat) : (portBytesHere s n)[k]? = portByte s sp (p0.toNat + k) := by
  simp only [portBytesHere, portBytes, hp, hsp, hl]
  exact peekBytes_getElem? h hk hlt

/-- Settles O8, by `portBytesHere_getElem?`; a code bit comes from the port only when the BitReader's byte is used up. -/
theorem tokenBytesAreUnderThePort : Obligations.TokenBytesAreUnderThePort := by
  intro s sp p0 l hsp hp hl hbytes
  have hget {n k : Nat} := portBytesHere_getElem? (n := n) (k := k) hsp hp hl hbytes
  refine ⟨fun k => hget, fun e k => hget, fun k => hget, fun pos hq hlt => ?_, fun pos q hq hne => ?_⟩
  · rw [tokenBytes, if_pos hq]
    exact hget Nat.one_pos hlt
  · rw [tokenBytes, if_neg (by simpa [hq] using hne)]

end Sys2Proof.Machine

/-! # The encoding family: decoder and encoder agree (30_encoding R94 to R105) -/

namespace Sys2Proof.Machine

/-! ## `u32LE` and `u32Bytes` are inverse (00_scope R11, 20_memory R65) -/

/-- An OR with a value shifted past every bit of `x` is a sum. -/
theorem or_shiftLeft_eq_add {x n : Nat} (h : x < 2 ^ n) (y : Nat) : x ||| y <<< n = x + 2 ^ n * y := by
  rw [Nat.or_comm, ← Nat.shiftLeft_add_eq_or_of_lt h, Nat.shiftLeft_eq, Nat.mul_comm, Nat.add_comm]

/-- A byte shifted by at most 24 bits loses none of its bits in 32. -/
theorem toNat_byte_shiftLeft (b : Byte) {n : Nat} (hn : n ≤ 24) :
    (b.setWidth 32 <<< n : Word32).toNat = b.toNat <<< n := by
  have hlt : b.toNat <<< n < 2 ^ 32 := by
    calc b.toNat <<< n = b.toNat * 2 ^ n := Nat.shiftLeft_eq _ _
      _ ≤ b.toNat * 2 ^ 24 := Nat.mul_le_mul_left _ (Nat.pow_le_pow_right (by decide) hn)
      _ < 2 ^ 32 := by omega
  rw [BitVec.toNat_shiftLeft, BitVec.toNat_setWidth_of_le (by decide), Nat.mod_eq_of_lt hlt]

/-- `u32LE` is the little-endian value of its bytes (00_scope R11, 20_memory R65). -/
theorem u32LE_toNat (b0 b1 b2 b3 : Byte) :
    (u32LE b0 b1 b2 b3).toNat = b0.toNat + 2 ^ 8 * b1.toNat + 2 ^ 16 * b2.toNat + 2 ^ 24 * b3.toNat := by
  rw [u32LE, BitVec.toNat_or, BitVec.toNat_or, BitVec.toNat_or, BitVec.toNat_setWidth_of_le (by decide),
    toNat_byte_shiftLeft b1 (by decide), toNat_byte_shiftLeft b2 (by decide), toNat_byte_shiftLeft b3 (by decide),
    or_shiftLeft_eq_add b0.isLt, or_shiftLeft_eq_add (n := 16) (by omega), or_shiftLeft_eq_add (n := 24) (by omega)]

theorem u32LE_of_u32Bytes (w : Word32) :
    u32LE (w.setWidth 8) ((w >>> 8).setWidth 8) ((w >>> 16).setWidth 8) ((w >>> 24).setWidth 8) = w := by
  apply BitVec.eq_of_toNat_eq
  simp only [u32LE_toNat, BitVec.toNat_setWidth, BitVec.toNat_ushiftRight, Nat.shiftRight_eq_div_pow]
  omega

theorem u32Bytes_of_u32LE (b0 b1 b2 b3 : Byte) : u32Bytes (u32LE b0 b1 b2 b3) = [b0, b1, b2, b3] := by
  simp only [u32Bytes, List.cons.injEq, and_true, ← BitVec.toNat_inj, BitVec.toNat_setWidth,
    BitVec.toNat_ushiftRight, Nat.shiftRight_eq_div_pow, u32LE_toNat]
  omega

/-! ## 32-bit values in a stream: `takeU32` reads what `u32Bytes` writes (30_encoding R95) -/

theorem takeU32_iff {bs r : List Byte} {w : Word32} : takeU32 bs = some (w, r) ↔ bs = u32Bytes w ++ r := by
  constructor
  · intro h
    match bs, h with
    | b0 :: b1 :: b2 :: b3 :: r', h =>
      cases h
      rw [u32Bytes_of_u32LE]
      rfl
  · rintro rfl
    simp only [u32Bytes, takeU32, List.cons_append, List.nil_append, u32LE_of_u32Bytes]

theorem takeU32s_iff {n : Nat} {bs r : List Byte} {ws : List Word32} :
    takeU32s n bs = some (ws, r) ↔ ws.length = n ∧ bs = ws.flatMap u32Bytes ++ r := by
  induction n generalizing bs ws with
  | zero =>
    constructor
    · intro h
      cases h
      exact ⟨rfl, rfl⟩
    · rintro ⟨hlen, rfl⟩
      rw [List.length_eq_zero_iff.mp hlen]
      rfl
  | succ n ih =>
    constructor
    · intro h
      simp only [takeU32s] at h
      split at h
      · cases h
      · rename_i w r1 hw
        split at h
        · cases h
        · rename_i ws' r2 hws
          cases h
          obtain ⟨hlen, rfl⟩ := ih.mp hws
          exact ⟨by rw [List.length_cons, hlen], by simp [takeU32_iff.mp hw]⟩
    · rintro ⟨hlen, rfl⟩
      obtain ⟨w, ws, rfl⟩ := List.exists_cons_of_length_eq_add_one hlen
      have hw : takeU32 ((w :: ws).flatMap u32Bytes ++ r) = some (w, ws.flatMap u32Bytes ++ r) :=
        takeU32_iff.mpr (by simp)
      have hws : takeU32s n (ws.flatMap u32Bytes ++ r) = some (ws, r) :=
        ih.mpr ⟨Nat.succ.inj hlen, rfl⟩
      simp only [takeU32s, hw, hws]

/-! ## The control byte of a run-length token (30_encoding R100, R101) -/

/-- Bit 7 of the control byte is its high bit. -/
theorem getLsbD_seven (k : Byte) : k.getLsbD 7 = decide (128 ≤ k.toNat) := BitVec.msb_eq_decide k

theorem runControl_toNat (n : BitVec 7) : (0x80 ||| n.setWidth 8 : Byte).toNat = 128 + n.toNat := by
  rw [BitVec.toNat_or, BitVec.toNat_setWidth_of_le (by decide)]
  exact (Nat.two_pow_add_eq_or_of_lt n.isLt 1).symm

theorem runControl_setWidth (n : BitVec 7) : (0x80 ||| n.setWidth 8 : Byte).setWidth 7 = n := by
  apply BitVec.eq_of_toNat_eq
  rw [BitVec.toNat_setWidth, runControl_toNat]
  omega

theorem runControl_of_high {k : Byte} (h : 128 ≤ k.toNat) : 0x80 ||| (k.setWidth 7).setWidth 8 = k := by
  apply BitVec.eq_of_toNat_eq
  rw [runControl_toNat, BitVec.toNat_setWidth]
  omega

/-! ## What each first byte of a dictionary or run-length token decodes to (30_encoding R98, R100) -/

theorem decode_dictLit {e b : Byte} (h : b ≠ e) (r : List Byte) :
    decode (.dict e) (b :: r) = .token (.dictLit b) r := by
  simp only [decode, decodeDict, if_pos h]

theorem decode_dictEsc (e : Byte) (r : List Byte) : decode (.dict e) (e :: e :: r) = .token .dictEsc r := by
  simp only [decode, decodeDict, ne_eq, not_true_eq_false, if_false, if_true]

theorem decode_dictCopy {e o : Byte} (h : o ≠ e) (n : Byte) (r : List Byte) :
    decode (.dict e) (e :: o :: n :: r) = .token (.dictCopy o n) r := by
  simp only [decode, decodeDict, ne_eq, not_true_eq_false, if_false, if_neg h]

theorem decode_rleRun {k : Byte} (h : 128 ≤ k.toNat) (v : Byte) (r : List Byte) :
    decode .rle (k :: v :: r) = .token (.rleRun (k.setWidth 7) v) r := by
  rw [decode, decodeRle, getLsbD_seven, if_pos (decide_eq_true h)]

theorem decode_rleLit {k : Byte} {r : List Byte} (h0 : k ≠ 0) (h7 : k.toNat < 128) (hlen : k.toNat ≤ r.length) :
    decode .rle (k :: r) = .token (.rleLit (r.take k.toNat)) (r.drop k.toNat) := by
  simp only [decode, decodeRle, getLsbD_seven, decide_eq_true_eq, if_neg (Nat.not_le.mpr h7), if_neg h0, if_pos hlen]

/-! ## A format whose every byte is an operand decodes the encodings of its tokens and nothing else -/

theorem decode_pack_iff {bs r : List Byte} {i : Instr} :
    decode .pack bs = .token i r ↔ i.wf .pack = true ∧ bs = encode .pack i ++ r := by
  constructor
  · intro h
    obtain ⟨k, rfl, ⟨rfl, rfl⟩ | ⟨rfl, rfl⟩ | ⟨h1, h2, rfl⟩⟩ := decode_pack_cases h
    · exact ⟨rfl, rfl⟩
    · exact ⟨rfl, rfl⟩
    · exact ⟨by simp only [Instr.wf, beq_self_eq_true, bne_iff_ne.mpr h1, bne_iff_ne.mpr h2, Bool.and_self], rfl⟩
  · rintro ⟨hwf, rfl⟩
    cases i with
    | pipeRle => rfl
    | pipeHufdict => rfl
    | pipeHufrle k =>
      simp only [Instr.wf, beq_self_eq_true, Bool.true_and, Bool.and_eq_true, bne_iff_ne] at hwf
      obtain ⟨h1, h2⟩ := hwf
      simp only [encode, decode, List.cons_append, List.nil_append, decodePack, if_neg h1, if_neg h2]
    | _ => simp [Instr.wf] at hwf

theorem decode_hufHeader_iff {bs r : List Byte} {i : Instr} :
    decode .hufHeader bs = .token i r ↔ i.wf .hufHeader = true ∧ bs = encode .hufHeader i ++ r := by
  constructor
  · intro h
    simp only [decode, decodeHufHeader] at h
    split at h
    · cases h
    · rename_i u r1 hu
      split at h
      · cases h
      · rename_i pk r2 hpk
        split at h
        · cases h
        · rename_i fs r3 hfs
          cases h
          obtain ⟨hlen, rfl⟩ := takeU32s_iff.mp hfs
          simp [Instr.wf, encode, hlen, takeU32_iff.mp hu, takeU32_iff.mp hpk]
  · rintro ⟨hwf, rfl⟩
    cases i with
    | hufHeader u pk fs =>
      have hu := takeU32_iff.mpr (rfl : u32Bytes u ++ (u32Bytes pk ++ (fs.flatMap u32Bytes ++ r)) = _)
      have hpk := takeU32_iff.mpr (rfl : u32Bytes pk ++ (fs.flatMap u32Bytes ++ r) = _)
      have hfs : takeU32s 256 (fs.flatMap u32Bytes ++ r) = some (fs, r) :=
        takeU32s_iff.mpr ⟨by simpa [Instr.wf] using hwf, rfl⟩
      simp only [encode, decode, decodeHufHeader, List.append_assoc, hu, hpk, hfs]
    | _ => simp [Instr.wf] at hwf

theorem decode_dict_iff {e : Byte} {bs r : List Byte} {i : Instr} :
    decode (.dict e) bs = .token i r ↔ i.wf (.dict e) = true ∧ bs = encode (.dict e) i ++ r := by
  constructor
  · intro h
    simp only [decode, decodeDict] at h
    split at h
    · cases h
    · rename_i t0 r0
      split at h
      · rename_i h0
        cases h
        exact ⟨bne_iff_ne.mpr h0, rfl⟩
      · rename_i h0
        obtain rfl := not_not.mp h0
        split at h
        · cases h
        · rename_i t1 r1
          split at h
          · rename_i h1
            cases h
            exact ⟨rfl, by rw [h1]; rfl⟩
          · rename_i h1
            split at h
            · cases h
            · cases h
              exact ⟨bne_iff_ne.mpr h1, rfl⟩
  · rintro ⟨hwf, rfl⟩
    cases i with
    | dictLit b => exact decode_dictLit (bne_iff_ne.mp hwf) r
    | dictEsc => exact decode_dictEsc e r
    | dictCopy o n => exact decode_dictCopy (bne_iff_ne.mp hwf) n r
    | _ => simp [Instr.wf] at hwf

theorem decode_rle_iff {bs r : List Byte} {i : Instr} :
    decode .rle bs = .token i r ↔ i.wf .rle = true ∧ bs = encode .rle i ++ r := by
  constructor
  · intro h
    simp only [decode, decodeRle, getLsbD_seven, decide_eq_true_eq] at h
    split at h
    · cases h
    · rename_i k r0
      split at h
      · rename_i hk
        split at h
        · cases h
        · cases h
          exact ⟨rfl, by rw [encode, runControl_of_high hk]; rfl⟩
      · split at h
        · rename_i h0
          cases h
          exact ⟨rfl, by rw [h0]; rfl⟩
        · rename_i h0
          split at h
          · rename_i hlen
            cases h
            have hpos : k.toNat ≠ 0 := fun hz => h0 (BitVec.eq_of_toNat_eq hz)
            have htake : (r0.take k.toNat).length = k.toNat := List.length_take_of_le hlen
            constructor
            · simp only [Instr.wf, htake, beq_self_eq_true, Bool.true_and, Bool.and_eq_true, decide_eq_true_eq]
              omega
            · simp only [encode, htake, BitVec.ofNat_toNat, BitVec.setWidth_eq, List.cons_append,
                List.take_append_drop]
          · cases h
  · rintro ⟨hwf, rfl⟩
    cases i with
    | rleNop => rfl
    | rleLit vs =>
      simp only [Instr.wf, beq_self_eq_true, Bool.true_and, Bool.and_eq_true, decide_eq_true_eq] at hwf
      have hk : (BitVec.ofNat 8 vs.length).toNat = vs.length := by
        rw [BitVec.toNat_ofNat]
        omega
      have h0 : BitVec.ofNat 8 vs.length ≠ 0 := BitVec.toNat_ne.mpr (by rw [hk]; exact Nat.ne_of_gt hwf.1)
      have hdec := decode_rleLit (r := vs ++ r) h0 (by omega) (by rw [hk, List.length_append]; omega)
      rwa [hk, List.take_left, List.drop_left] at hdec
    | rleRun n v =>
      have hdec := decode_rleRun (k := 0x80 ||| n.setWidth 8) (by rw [runControl_toNat]; omega) v r
      rwa [runControl_setWidth] at hdec
    | _ => simp [Instr.wf] at hwf

/-! ## The formats with bits or bytes that are no operand: a code bit, the dictionary header (30_encoding R96, R97) -/

/-- The byte `encode` writes for a code bit 1 has the bit at its position set. -/
theorem oneBit_getLsbD (pos : Fin 8) : (Ctx.hufBit pos).oneBit.getLsbD pos.val = true := by
  simp [Ctx.oneBit]

theorem decode_hufBit_encode {pos : Fin 8} {i : Instr} (hwf : i.wf (.hufBit pos) = true) (r : List Byte) :
    decode (.hufBit pos) (encode (.hufBit pos) i ++ r) = .token i r := by
  cases i with
  | hufBit0 => simp [encode, decode, decodeHufBit]
  | hufBit1 => simp only [encode, decode, List.cons_append, decodeHufBit, oneBit_getLsbD, if_true, List.nil_append]
  | _ => simp [Instr.wf] at hwf

theorem decode_dictHeader_encode {i : Instr} (hwf : i.wf .dictHeader = true) (r : List Byte) :
    decode .dictHeader (encode .dictHeader i ++ r) = .token i r := by
  cases i with
  | dictHeader e => rfl
  | _ => simp [Instr.wf] at hwf

theorem decode_hufBit_length {pos : Fin 8} {bs r : List Byte} {i : Instr} (h : decode (.hufBit pos) bs = .token i r) :
    bs.length = 1 + r.length := by
  match bs, h with
  | b :: r', h =>
    cases h
    exact Nat.add_comm _ _

theorem decode_dictHeader_length {bs r : List Byte} {i : Instr} (h : decode .dictHeader bs = .token i r) :
    bs.length = 12 + r.length := by
  simp only [decode] at h
  unfold decodeDictHeader at h
  split at h
  · cases h
    simp only [List.length_cons]
    omega
  · cases h

/-! ## The length of an encoding (30_encoding R102) -/

/-- A well-formed token's encoding is as long as R102 says: the model's per-token laws put together. -/
theorem encode_length {c : Ctx} {i : Instr} (hwf : i.wf c = true) : (encode c i).length = i.byteLength := by
  have hlaw : Laws.EncodedLength.Statement i := by
    cases i with
    | pipeRle => exact Laws.EncodedLength.pipeRle
    | pipeHufdict => exact Laws.EncodedLength.pipeHufdict
    | pipeHufrle k => exact Laws.EncodedLength.pipeHufrle k
    | hufHeader u pk fs => exact Laws.EncodedLength.hufHeader u pk fs
    | hufBit0 => exact Laws.EncodedLength.hufBit0
    | hufBit1 => exact Laws.EncodedLength.hufBit1
    | dictHeader e => exact Laws.EncodedLength.dictHeader e
    | dictLit b => exact Laws.EncodedLength.dictLit b
    | dictEsc => exact Laws.EncodedLength.dictEsc
    | dictCopy o n => exact Laws.EncodedLength.dictCopy o n
    | rleNop => exact Laws.EncodedLength.rleNop
    | rleLit vs => exact Laws.EncodedLength.rleLit vs
    | rleRun n v => exact Laws.EncodedLength.rleRun n v
  exact (hlaw c hwf).1

/-- Bytes known to be an encoding and a rest meet all that O3 asks, whatever its condition `P` on the format. -/
theorem wf_length_of_encoding {P : Prop} {c : Ctx} {i : Instr} {bs r : List Byte}
    (h : i.wf c = true ∧ bs = encode c i ++ r) :
    i.wf c = true ∧ bs.length = i.byteLength + r.length ∧ (P → bs = encode c i ++ r) := by
  obtain ⟨hwf, rfl⟩ := h
  exact ⟨hwf, by rw [List.length_append, encode_length hwf], fun _ => rfl⟩

/-! ## The offset adjustment (30_encoding R99) -/

theorem copyOffset_toNat (o e : Byte) :
    (copyOffset o e).toNat = if e.toNat < o.toNat then o.toNat - 1 else o.toNat := by
  by_cases h : e.toNat < o.toNat
  · rw [copyOffset, if_pos (show o > e from h), if_pos h]
    exact BitVec.toNat_sub_of_le (y := 1) (show 1 ≤ o.toNat by omega)
  · rw [copyOffset, if_neg (show ¬ o > e from h), if_neg h]

/-! ## The obligations -/

/-- Settles O2, format by format. -/
theorem decodeOfEncode : Obligations.DecodeOfEncode := by
  intro c i rest hwf
  cases c with
  | pack => exact decode_pack_iff.mpr ⟨hwf, rfl⟩
  | hufHeader => exact decode_hufHeader_iff.mpr ⟨hwf, rfl⟩
  | hufBit pos => exact decode_hufBit_encode hwf rest
  | dictHeader => exact decode_dictHeader_encode hwf rest
  | dict e => exact decode_dict_iff.mpr ⟨hwf, rfl⟩
  | rle => exact decode_rle_iff.mpr ⟨hwf, rfl⟩

/-- Settles O3: where every byte is an operand the bytes are the encoding; a code bit is one byte and the dictionary
header twelve. -/
theorem encodeOfDecode : Obligations.EncodeOfDecode := by
  intro c bs i rest h
  cases c with
  | pack => exact wf_length_of_encoding (decode_pack_iff.mp h)
  | hufHeader => exact wf_length_of_encoding (decode_hufHeader_iff.mp h)
  | hufBit pos =>
    have hlen := decode_hufBit_length h
    obtain rfl | rfl := decode_hufBit_cases h
    · exact ⟨rfl, hlen, by simp⟩
    · exact ⟨rfl, hlen, by simp⟩
  | dictHeader =>
    obtain ⟨e, rfl⟩ := decode_dictHeader_cases h
    exact ⟨rfl, decode_dictHeader_length h, by simp⟩
  | dict e => exact wf_length_of_encoding (decode_dict_iff.mp h)
  | rle => exact wf_length_of_encoding (decode_rle_iff.mp h)

/-- Settles O4: the selecting bytes one by one; totality is `decode_total`. -/
theorem tokenMapIsTotal : Obligations.TokenMapIsTotal := by
  refine ⟨fun pos b r => rfl, fun e t0 t1 t2 r => ?_, fun k v r hlen => ?_, fun c bs h => decode_total h⟩
  · by_cases h0 : t0 = e
    · subst h0
      rw [if_neg (not_not.mpr rfl)]
      by_cases h1 : t1 = t0
      · rw [if_pos h1, h1, decode_dictEsc]
      · rw [if_neg h1, decode_dictCopy h1]
    · rw [if_pos h0, decode_dictLit h0]
  · refine ⟨k.toNat % 128, rfl, ?_⟩
    by_cases hk : 128 ≤ k.toNat
    · have hn : k.setWidth 7 = BitVec.ofNat 7 (k.toNat % 128) := by
        apply BitVec.eq_of_toNat_eq
        rw [BitVec.toNat_setWidth, BitVec.toNat_ofNat, Nat.mod_mod]
      rw [if_pos hk, decode_rleRun hk, hn]
    · rw [if_neg hk, Nat.mod_eq_of_lt (Nat.not_le.mp hk)]
      by_cases h0 : k = 0
      · rw [if_pos h0, h0]
        rfl
      · rw [if_neg h0, decode_rleLit h0 (Nat.not_le.mp hk) (by omega)]

/-- Settles O6: the adjusted offset is a number by `copyOffset_toNat`, above the marker or below it. -/
theorem copyOffsetIsBijective : Obligations.CopyOffsetIsBijective := by
  intro o e hne
  have hne' : o.toNat ≠ e.toNat := BitVec.toNat_ne.mp hne
  rw [copyOffset_toNat]
  by_cases h : e.toNat < o.toNat
  · rw [if_pos h, if_neg (by omega)]
    omega
  · rw [if_neg h, if_pos (by omega)]
    omega

/-- Settles O1, by running the decoder on the twelve words. -/
theorem tableWordsDecode : Obligations.TableWordsDecode := by
  unfold Obligations.TableWordsDecode
  decide

/-- Settles O5: `decodePack` chooses between tokens as the statement chooses the instruction. -/
theorem packTypeSelectsPath : Obligations.PackTypeSelectsPath := by
  intro k r
  simp only [decode, decodePack, apply_ite (Decoded.token · r)]

end Sys2Proof.Machine

/-! # The BitReader family: what a run of `nextBit` calls returns (40_bitreader R131 to R134) -/

namespace Sys2Proof.Machine

variable {s t : State} {bit : Bool} {f : Nat → Byte} {sp : Space} {p m n : Nat} {l : BitVec 33}

/-! ## One bit taken -/

/-- `nextBit` goes on with a bit that can be taken. -/
theorem BitTaken.nextBit_eq (h : BitTaken s bit t) (k : Bool → State → Out) : nextBit s k = k bit t := by
  cases h with
  | loaded q b hq hpos hb => exact nextBit_loaded hpos hq hb
  | refill p l sp v hpos hp hl hlt hsp hv => exact nextBit_refill hpos hp hl hlt hsp hv

theorem BitTaken.portByte_eq (h : BitTaken s bit t) (sp : Space) (a : Nat) : portByte t sp a = portByte s sp a := by
  obtain ⟨q, b, i, rfl⟩ := h.frame
  cases sp <;> rfl

/-- The fault entry wipes all that taking a bit changes (60_exceptions R245). -/
theorem BitTaken.raise_eq (h : BitTaken s bit t) (e : ErrKind) (st : Stage) : raise e st t = raise e st s := by
  obtain ⟨q, b, i, rfl⟩ := h.frame
  rfl

/-! ## The BitReader after `m` calls -/

/-- Bit `m` of the bytes `f` from `p` on, least significant first (R134). -/
def streamBit (f : Nat → Byte) (p m : Nat) : Bool := (f (p + m / 8)).getLsbD (m % 8)

/-- The BitReader attached at `p` has given out `m` bits of a window that ends at `l` and holds the bytes `f`. -/
structure State.BitCursor (s : State) (f : Nat → Byte) (sp : Space) (p : Nat) (l : BitVec 33) (m : Nat) : Prop where
  space : s.inSpace = some sp
  limit : s.inLimit = some l
  bytes : ∀ a, p ≤ a → a < l.toNat → portByte s sp a = some (f a)
  inside : p + (m + 7) / 8 ≤ l.toNat
  pos : ∃ i, s.inPos = some i ∧ i.toNat = p + (m + 7) / 8
  reader : ∃ q, s.brPos = some q ∧ 0 < q.val ∧ q.val % 8 = m % 8 ∧ (q.val < 8 → s.brByte = some (f (p + m / 8)))

/-- At attachment no bit is given out (R132). -/
theorem State.bitCursor_attached {i : BitVec 33} (hq : s.brPos = some 8) (hsp : s.inSpace = some sp)
    (hi : s.inPos = some i) (hl : s.inLimit = some l) (hle : i.toNat ≤ l.toNat)
    (hbytes : ∀ a, i.toNat ≤ a → a < l.toNat → (portByte s sp a).isSome = true) :
    s.BitCursor (fun a => (portByte s sp a).getD 0) sp i.toNat l 0 where
  space := hsp
  limit := hl
  bytes a ha hal := by rw [← Option.get_eq_getD (h := hbytes a ha hal), Option.some_get]
  inside := hle
  pos := ⟨i, hi, rfl⟩
  reader := ⟨8, hq, by decide, rfl, fun h8 => absurd h8 (by decide)⟩

/-- A bit of a byte inside the window can be taken: from the loaded byte, or after a refill (R131). -/
theorem State.BitCursor.take (h : s.BitCursor f sp p l m) (hroom : p + m / 8 < l.toNat) :
    ∃ t, BitTaken s (streamBit f p m) t ∧ t.BitCursor f sp p l (m + 1) := by
  obtain ⟨hsp, hl, hbytes, hin, ⟨i, hi, hival⟩, q, hq, hq0, hqm, hbyte⟩ := h
  by_cases h8 : q.val < 8
  · have hmod : m % 8 = q.val := by omega
    have hbit : BitTaken s (streamBit f p m) (s.setBits (f (p + m / 8)) ⟨q.val + 1, Nat.succ_lt_succ h8⟩) := by
      rw [streamBit, hmod]
      exact .loaded q _ h8 hq (hbyte h8)
    have hsame : q.val + 1 < 8 → (m + 1) / 8 = m / 8 := by omega
    exact ⟨_, hbit, hsp, hl, fun a ha hal => (hbit.portByte_eq sp a).trans (hbytes a ha hal), by omega,
      ⟨i, hi, by omega⟩, _, rfl, Nat.succ_pos _, show (q.val + 1) % 8 = _ by omega,
      fun hlt => by rw [hsame hlt]; rfl⟩
  · obtain rfl : q = 8 := by ext; show q.val = 8; omega
    have hmod : m % 8 = 0 := hqm.symm
    have haddr : i.toNat = p + m / 8 := by omega
    have hv : portByte s sp i.toNat = some (f (p + m / 8)) := by rw [haddr]; exact hbytes _ (by omega) hroom
    have hbit : BitTaken s (streamBit f p m) ((s.setInPos (i + 1)).setBits (f (p + m / 8)) 1) := by
      rw [streamBit, hmod]
      exact .refill i l sp _ hq hi hl (by omega) hsp hv
    have hnext : (i + 1).toNat = i.toNat + 1 := BitVec.toNat_add_of_lt (y := 1) (by simp; omega)
    have hsame : (m + 1) / 8 = m / 8 := by omega
    exact ⟨_, hbit, hsp, hl, fun a ha hal => (hbit.portByte_eq sp a).trans (hbytes a ha hal), by omega,
      ⟨i + 1, rfl, by omega⟩, 1, rfl, Nat.one_pos, by omega, fun _ => by rw [hsame]; rfl⟩

/-- A bit of a byte past the window is asked for only when the loaded byte is used up, and raises (R131). -/
theorem State.BitCursor.nextBit_past (h : s.BitCursor f sp p l m) (hpast : l.toNat ≤ p + m / 8)
    (k : Bool → State → Out) : nextBit s k = raise .truncatedInput .hufDecode s := by
  obtain ⟨-, hl, -, hin, ⟨i, hi, hival⟩, q, hq, hq0, hqm, -⟩ := h
  obtain rfl : q = 8 := by ext; show q.val = 8; omega
  exact nextBit_short hq hi hl (by omega)

/-! ## A run of calls -/

theorem State.BitCursor.nextBits_eq (h : s.BitCursor f sp p l m) (hroom : p + (m + n + 7) / 8 ≤ l.toNat) :
    ∃ t, t.BitCursor f sp p l (m + n) ∧ ∀ k, nextBits n s k = k ((List.range' m n).map (streamBit f p)) t := by
  induction n generalizing s m with
  | zero => exact ⟨s, h, fun _ => rfl⟩
  | succ n ih =>
    obtain ⟨s', hbit, h'⟩ := h.take (by omega)
    obtain ⟨t, ht, hrun⟩ := ih h' (by omega)
    refine ⟨t, by rwa [Nat.add_right_comm] at ht, fun k => ?_⟩
    rw [nextBits, hbit.nextBit_eq, hrun]
    rfl

theorem State.BitCursor.nextBits_past (h : s.BitCursor f sp p l m) (hpast : l.toNat < p + (m + n + 7) / 8)
    (k : List Bool → State → Out) : nextBits n s k = raise .truncatedInput .hufDecode s := by
  induction n generalizing s m k with
  | zero => exact absurd h.inside (Nat.not_le.mpr hpast)
  | succ n ih =>
    rw [nextBits]
    by_cases hroom : p + m / 8 < l.toNat
    · obtain ⟨s', hbit, h'⟩ := h.take hroom
      rw [hbit.nextBit_eq, ih h' (by rwa [Nat.add_right_comm m 1 n]), hbit.raise_eq]
    · exact h.nextBit_past (Nat.not_lt.mp hroom) _

/-- Settles O16: both ways of a run of calls, from the BitReader's state at attachment (R132). -/
theorem bitReaderReadsLsbFirst : Obligations.BitReaderReadsLsbFirst := by
  intro s n sp p l hq hsp hp hl hle hbytes
  have hcursor := State.bitCursor_attached hq hsp hp hl hle hbytes
  refine ⟨fun hroom => ?_, fun c k hc hpast => ?_⟩
  · obtain ⟨t, ht, hrun⟩ := hcursor.nextBits_eq (n := n) (by rwa [Nat.zero_add])
    obtain ⟨i, hi, hival⟩ := ht.pos
    rw [Nat.zero_add] at hival
    refine ⟨_, t, by simp, hrun, by rw [hi, ← hival, BitVec.ofNat_toNat, BitVec.setWidth_eq], fun m hm => ?_⟩
    exact ⟨_, hcursor.bytes _ (Nat.le_add_right _ _) (by omega), by simp [hm, streamBit]⟩
  · rw [hcursor.nextBits_past (by rwa [Nat.zero_add]), raise_eq hc]

end Sys2Proof.Machine

/-! # The Huffman family: the stable insertion, the header, the build and the walk (41_huffman) -/

namespace Sys2Proof.Machine

variable {p : FreqOverflow} {s t : State}

/-! ## The stable insertion (R142) -/

section Insertion

variable {f : Nat} {x : BitVec 9} {freq : List (Nat × Nat)} {l : List (Nat × BitVec 9)}

/-- The keyed form of a list with two front entries. -/
theorem keyed_front_next {y : BitVec 9} {rest : List (BitVec 9)} (h : keyed freq (x :: y :: rest) = .next l) :
    ∃ fx fy keys, cellGet freq x.toNat = some fx ∧ cellGet freq y.toNat = some fy ∧
      keyed freq rest = .next keys ∧ l = (fx, x) :: (fy, y) :: keys := by
  simp only [keyed, withVal_next, andThen_next, Host.Outcome.next.injEq] at h
  obtain ⟨fx, hfx, -, ⟨fy, hfy, keys, hkeys, rfl⟩, rfl⟩ := h
  exact ⟨fx, fy, keys, hfx, hfy, hkeys, rfl⟩

/-- The insertion is Mathlib's ordered insertion by strictly smaller frequency. -/
theorem insertKeyed_eq_orderedInsert :
    insertKeyed f x l = l.orderedInsert (fun a b => a.1 < b.1) (f, x) := by
  induction l with
  | nil => rfl
  | cons e l ih => rw [insertKeyed, List.orderedInsert_cons, ih]

theorem insertKeyed_perm : (insertKeyed f x l).Perm ((f, x) :: l) := by
  rw [insertKeyed_eq_orderedInsert]
  exact List.perm_orderedInsert _ _ _

/-- The insertion splits the list before its first entry of strictly greater frequency. -/
theorem insertKeyed_split :
    ∃ before after, l = before ++ after ∧ insertKeyed f x l = before ++ (f, x) :: after ∧
      (∀ e ∈ before, ¬ e.1 > f) ∧ ∀ e, after.head? = some e → e.1 > f := by
  refine ⟨_, _, List.takeWhile_append_dropWhile.symm,
    insertKeyed_eq_orderedInsert.trans (List.orderedInsert_eq_take_drop ..), fun e he => ?_, fun e he => ?_⟩
  · simpa using List.mem_takeWhile_imp he
  · have hfirst := List.head?_dropWhile_not (fun e : Nat × BitVec 9 => decide (¬ f < e.1)) l
    rw [he] at hfirst
    simpa using hfirst

/-- A node newer than every entry keeps the order of the list (R147). -/
theorem insertKeyed_pairwise (hl : l.Pairwise keyedBefore) (hnew : ∀ e ∈ l, e.2.toNat < x.toNat) :
    (insertKeyed f x l).Pairwise keyedBefore := by
  induction l with
  | nil => exact List.pairwise_singleton _ _
  | cons e l ih =>
    obtain ⟨g, y⟩ := e
    obtain ⟨hy, hl'⟩ := List.pairwise_cons.mp hl
    rw [insertKeyed]
    split
    · rename_i hgt
      refine List.pairwise_cons.mpr ⟨fun e he => .inl ?_, hl⟩
      rcases List.mem_cons.mp he with rfl | he
      · exact hgt
      · rcases hy e he with hlt | ⟨heq, -⟩
        · exact Nat.lt_trans hgt hlt
        · exact heq ▸ hgt
    · rename_i hle
      refine List.pairwise_cons.mpr ⟨fun e he => ?_, ih hl' fun e he => hnew e (List.mem_cons_of_mem _ he)⟩
      rcases mem_insertKeyed.mp he with rfl | he
      · exact (Nat.lt_or_eq_of_le (Nat.not_lt.mp hle)).imp_right fun heq => ⟨heq, hnew (g, y) List.mem_cons_self⟩
      · exact hy e he

/-- Inserting into a list whose keyed form is known. -/
theorem insertStable_map_snd (hx : cellGet freq x.toNat = some f) (hl : ∀ e ∈ l, cellGet freq e.2.toNat = some e.1) :
    insertStable freq x (l.map Prod.snd) = .next ((insertKeyed f x l).map Prod.snd) :=
  insertStable_next.mpr ⟨f, l, hx, keyed_map_snd hl, rfl⟩

/-- The entries after an insertion still stand with their frequencies. -/
theorem insertKeyed_freq (hx : cellGet freq x.toNat = some f) (hl : ∀ e ∈ l, cellGet freq e.2.toNat = some e.1) :
    ∀ e ∈ insertKeyed f x l, cellGet freq e.2.toNat = some e.1 := by
  intro e he
  rcases mem_insertKeyed.mp he with rfl | he
  · exact hx
  · exact hl e he

/-- Settles O18: the insertion's split, for the keyed form of the list. -/
theorem insertStablePosition : Obligations.InsertStablePosition := by
  intro freq n act hn hact
  obtain ⟨f, hf⟩ := Option.isSome_iff_exists.mp hn
  obtain ⟨l, hl⟩ := keyed_of_some hact
  obtain ⟨rfl, hfreq⟩ := keyed_next hl
  obtain ⟨before, after, rfl, hins, hbefore, hafter⟩ := insertKeyed_split (f := f) (x := n) (l := l)
  refine ⟨before.map Prod.snd, after.map Prod.snd, List.map_append, ?_, fun x hx => ?_, fun x hx => ?_⟩
  · rw [insertStable_map_snd hf hfreq, hins, List.map_append, List.map_cons]
  · obtain ⟨e, he, rfl⟩ := List.mem_map.mp hx
    exact ⟨e.1, f, hfreq e (List.mem_append_left _ he), hf, hbefore e he⟩
  · rw [List.head?_map] at hx
    obtain ⟨e, he, rfl⟩ := Option.map_eq_some_iff.mp hx
    exact ⟨e.1, f, hfreq e (List.mem_append_right _ (List.mem_of_head? he)), hf, hafter e he⟩

end Insertion

/-! ## A new node in the active list (R144, R147) -/

section Node

variable {f n : Nat} {x : BitVec 9} {freq : List (Nat × Nat)} {act : List (BitVec 9)} {l : List (Nat × BitVec 9)}

/-- Writing a new node's frequency leaves the keyed form of a list of older nodes as it is. -/
theorem keyed_cellSet (hold : ∀ y ∈ act, y.toNat < n) : keyed (cellSet freq n f) act = keyed freq act := by
  induction act with
  | nil => rfl
  | cons y act ih =>
    have hy := hold y List.mem_cons_self
    rw [keyed, keyed, cellGet_cellSet, if_neg (by omega), ih fun z hz => hold z (List.mem_cons_of_mem _ hz)]

/-- The node `n` is inserted with the frequency just written for it. -/
theorem insertStable_node (hx : x.toNat = n) (hold : ∀ y ∈ act, y.toNat < n) (hl : keyed freq act = .next l) :
    insertStable (cellSet freq n f) x act = .next ((insertKeyed f x l).map Prod.snd) := by
  rw [insertStable, hx, cellGet_cellSet, if_pos rfl, withVal_some, keyed_cellSet hold, hl, andThen_ofNext]

theorem keyed_insertKeyed_node (hx : x.toNat = n) (hold : ∀ y ∈ act, y.toNat < n) (hl : keyed freq act = .next l) :
    keyed (cellSet freq n f) ((insertKeyed f x l).map Prod.snd) = .next (insertKeyed f x l) := by
  obtain ⟨-, hfreq⟩ := keyed_next ((keyed_cellSet hold).trans hl)
  exact keyed_map_snd (insertKeyed_freq (by rw [hx, cellGet_cellSet, if_pos rfl]) hfreq)

/-- The new node keeps the order of the list (R147). -/
theorem insertKeyed_pairwise_node (hx : x.toNat = n) (hold : ∀ y ∈ act, y.toNat < n) (hl : keyed freq act = .next l)
    (hord : l.Pairwise keyedBefore) : (insertKeyed f x l).Pairwise keyedBefore := by
  obtain ⟨rfl, -⟩ := keyed_next hl
  exact insertKeyed_pairwise hord fun e he => hx ▸ hold _ (List.mem_map_of_mem he)

end Node

/-! ## The seeding of the active list (R141, R143) -/

section Seeding

variable {fs : List Word32} {freq : List (Nat × Nat)} {i : Nat} {l : List (Nat × BitVec 9)}

/-- Seeding in index order keeps the list in order: each leaf is newer than the ones before it. -/
theorem seedKeyed_pairwise (hlen : i + fs.length ≤ 512) (hl : l.Pairwise keyedBefore)
    (hold : ∀ e ∈ l, e.2.toNat < i) : (seedKeyed i fs l).Pairwise keyedBefore := by
  induction fs generalizing i l with
  | nil => exact hl
  | cons f fs ih =>
    rw [List.length_cons] at hlen
    have hi : (BitVec.ofNat 9 i).toNat = i := Nat.mod_eq_of_lt (by omega)
    refine ih (by omega) (insertKeyed_pairwise hl (by rwa [hi])) fun e he => ?_
    rcases mem_insertKeyed.mp he with rfl | he
    · exact lt_of_eq_of_lt hi (Nat.lt_succ_self i)
    · exact Nat.lt_succ_of_lt (hold e he)

/-- Seeding is the stable insertion of the leaves in index order, under a `FREQ` that holds their frequencies. -/
theorem foldl_insertStable (hlen : i + fs.length ≤ 512) (hl : ∀ e ∈ l, cellGet freq e.2.toNat = some e.1)
    (hfs : ∀ (j : Nat) (h : j < fs.length), cellGet freq (i + j) = some fs[j].toNat) :
    (List.range' i fs.length).foldl (fun o j => andThen o (insertStable freq (BitVec.ofNat 9 j)))
      (.next (l.map Prod.snd)) = .next ((seedKeyed i fs l).map Prod.snd) := by
  induction fs generalizing i l with
  | nil => rfl
  | cons f fs ih =>
    rw [List.length_cons] at hlen
    have hf : cellGet freq (BitVec.ofNat 9 i).toNat = some f.toNat := by
      rw [BitVec.toNat_ofNat, Nat.mod_eq_of_lt (by omega)]
      exact hfs 0 (Nat.zero_lt_succ _)
    rw [List.length_cons, List.range'_succ, List.foldl_cons, andThen_ofNext, insertStable_map_snd hf hl, seedKeyed]
    refine ih (by omega) (insertKeyed_freq hf hl) fun j hj => ?_
    rw [Nat.add_assoc, Nat.add_comm 1 j]
    exact hfs (j + 1) (Nat.succ_lt_succ hj)

/-- What the header writes to `FREQ` below the number of leaves. -/
theorem cellGet_writeFreqs_leaf {j : Nat} (h : j < fs.length) :
    cellGet (writeFreqs freq 0 fs) j = some fs[j].toNat := by
  rw [cellGet_writeFreqs, if_pos ⟨Nat.zero_le j, by omega⟩]
  simp [h]

/-- A seeded list stands with the frequencies that the header writes. -/
theorem seedKeyed_freq (hlen : fs.length ≤ 512) :
    ∀ e ∈ seedKeyed 0 fs [], cellGet (writeFreqs freq 0 fs) e.2.toNat = some e.1 := by
  intro e he
  obtain ⟨j, hj, rfl⟩ : ∃ j, ∃ h : j < fs.length, e = (fs[j].toNat, BitVec.ofNat 9 (0 + j)) := by
    simpa using mem_seedKeyed.mp he
  rw [Nat.zero_add, BitVec.toNat_ofNat, Nat.mod_eq_of_lt (by omega), cellGet_writeFreqs_leaf hj]

end Seeding

/-! ## HUF.HEADER (R141) -/

section Header

variable {cap : Nat} {u : Word32} {fs : List Word32} {pos lim : BitVec 33}

/-- Past the check of the capacity a window that holds both sizes has only the frequencies left to take. -/
theorem hufHeader_sizes (hp : s.inPos = some pos) (hl : s.inLimit = some lim) (hu : u.toNat ≤ cap)
    (hroom : pos.toNat + 8 ≤ lim.toNat) :
    hufHeader cap u fs s = takeBytes 1024 .malformedTree .hufHeader (s.setInPos (pos + BitVec.ofNat 33 8)) fun s =>
      .next
        { s with
          hufUnpacked := some u, freq := writeFreqs s.freq 0 fs, act := some (seedActive fs)
          hufNext := some 256, phase := .hufBuild } := by
  have hpos := toNat_add_ofNat (d := pos) (n := lim) (k := 4) (by omega)
  rw [hufHeader, takeBytes_room hp hl (by omega), if_neg (Nat.not_lt.mpr hu),
    takeBytes_room (State.setInPos_inPos ..) hl (by omega), BitVec.add_assoc]
  rfl

/-- A header that raises nothing. -/
theorem hufHeader_room (hp : s.inPos = some pos) (hl : s.inLimit = some lim) (hu : u.toNat ≤ cap)
    (hroom : pos.toNat + 1032 ≤ lim.toNat) :
    hufHeader cap u fs s = .next
      { s with
        inPos := some (BitVec.ofNat 33 (pos.toNat + 1032)), hufUnpacked := some u, freq := writeFreqs s.freq 0 fs
        act := some (seedActive fs), hufNext := some 256, phase := .hufBuild } := by
  have hpos := toNat_add_ofNat (d := pos) (n := lim) (k := 8) (by omega)
  rw [hufHeader_sizes hp hl hu (by omega), takeBytes_room (State.setInPos_inPos ..) hl (by omega), BitVec.add_assoc,
    BitVec.ofNat_add, BitVec.ofNat_toNat, BitVec.setWidth_eq]
  rfl

/-- What a header can lead to: an error, or a seeded list. -/
theorem hufHeader_next (h : hufHeader cap u fs s = .next t) :
    t.phase = .error ∨
      t.act = some (seedActive fs) ∧ t.hufNext = some 256 ∧ t.freq = writeFreqs s.freq 0 fs := by
  rw [hufHeader] at h
  obtain ⟨_, _, -, -, ⟨-, h⟩ | ⟨-, _, -, rfl⟩⟩ := takeBytes_next h
  swap; · exact .inl rfl
  split at h
  · obtain ⟨_, -, rfl⟩ := raise_next.mp h
    exact .inl rfl
  · obtain ⟨_, _, -, -, ⟨-, h⟩ | ⟨-, _, -, rfl⟩⟩ := takeBytes_next h
    swap; · exact .inl rfl
    obtain ⟨_, _, -, -, ⟨-, h⟩ | ⟨-, _, -, rfl⟩⟩ := takeBytes_next h
    swap; · exact .inl rfl
    obtain rfl := Host.Outcome.next.inj h
    exact .inr ⟨rfl, rfl, rfl⟩

/-- A seeded list is in order (R143), the start of the build invariant (R147). -/
theorem header_buildOrder {freq : List (Nat × Nat)} (hfs : fs.length = 256) (hact : t.act = some (seedActive fs))
    (hnext : t.hufNext = some 256) (hfreq : t.freq = writeFreqs freq 0 fs) : t.BuildOrder := by
  obtain ⟨act, n, hact', hnext', -, -, hcount, hall, -⟩ := header_buildOk hfs hact hnext hfreq
  obtain rfl := Option.some.inj (hact.symm.trans hact')
  exact ⟨_, n, seedKeyed 0 fs [], hact, hnext', hfreq ▸ keyed_map_snd (seedKeyed_freq (by omega)),
    seedKeyed_pairwise (by omega) .nil (by simp), hcount, fun x hx => (hall x hx).1⟩

/-- Settles O17: the header's equation in each of the cases of R248's order, and the seeding as a fold. -/
theorem hufHeaderSeedsTheBuild : Obligations.HufHeaderSeedsTheBuild := by
  intro s u pk fs pos lim hfs hp hl
  refine ⟨rfl, fun hroom hu => ?_, fun cap c hc => ⟨fun hshort => ?_, fun hroom hu => ?_, fun hroom hshort hu => ?_,
    fun hroom hshort hu => ?_⟩⟩
  · refine ⟨_, seedActive fs, hufHeader_room hp hl hu hroom, rfl, fun i hi => cellGet_writeFreqs_leaf hi,
      fun i hi => ?_, ?_⟩
    · exact (cellGet_writeFreqs ..).trans (if_neg (by omega))
    · have hfold := foldl_insertStable (fs := fs) (freq := writeFreqs s.freq 0 fs) (i := 0) (l := []) (by omega)
        (by simp) fun j hj => by rw [Nat.zero_add]; exact cellGet_writeFreqs_leaf hj
      rwa [hfs, ← List.range_eq_range'] at hfold
  · rw [hufHeader, takeBytes_short hp hl hshort, raise_eq hc]
  · rw [hufHeader, takeBytes_room hp hl hroom, if_pos hu, raise_setInPos, raise_eq hc]
  · have hpos := toNat_add_ofNat (d := pos) (n := lim) (k := 4) hroom
    rw [hufHeader, takeBytes_room hp hl hroom, if_neg (Nat.not_lt.mpr hu),
      takeBytes_short (State.setInPos_inPos ..) hl (by omega), raise_setInPos, raise_eq hc]
  · have hpos := toNat_add_ofNat (d := pos) (n := lim) (k := 8) hroom
    rw [hufHeader_sizes hp hl hu hroom, takeBytes_short (State.setInPos_inPos ..) hl (by omega), raise_setInPos,
      raise_eq hc]

/-- Settles O19: a header that enters the build leaves the seeded list. -/
theorem headerGivesSortedLeaves : Obligations.HeaderGivesSortedLeaves := by
  intro s t u pk fs hfs h hph
  obtain herr | ⟨hact, hnext, hfreq⟩ := hufHeader_next h
  · exact absurd (hph.symm.trans herr) (by decide)
  · refine ⟨header_buildOrder hfs hact hnext hfreq, fun i hi => ⟨_, hact, by rw [seedActive_length, hfs], ?_⟩⟩
    exact List.mem_map.mpr ⟨_, mem_seedKeyed.mpr (.inr ⟨i, by omega, rfl⟩), by rw [Nat.zero_add]⟩

end Header

/-! ## HUF.MERGE (R144, R145) -/

section Merge

variable {f fl fr : Nat} {l r : BitVec 9} {act act' rest : List (BitVec 9)} {n : BitVec 10}

theorem freqAdd_of_le {a b : Nat} (h : a + b ≤ 2 ^ 32 - 1) : freqAdd p a b = some (a + b) := by
  cases p with
  | wrap32 => exact congrArg some (Nat.mod_eq_of_lt (by omega))
  | exact => rfl
  | fault => exact if_neg (Nat.not_lt.mpr h)

theorem freqAdd_answers {a b : Nat} (hp : p ≠ .fault) : ∃ f, freqAdd p a b = some f := by
  cases p with
  | wrap32 => exact ⟨_, rfl⟩
  | exact => exact ⟨_, rfl⟩
  | fault => exact absurd rfl hp

/-- Settles O20: each setting's arm of the sum. -/
theorem freqAddSettings : Obligations.FreqAddSettings :=
  fun _ _ => ⟨rfl, rfl, freqAdd_of_le, fun h => if_pos h, fun h _ _ => (freqAdd_of_le h).trans (freqAdd_of_le h).symm⟩

/-- The list has two front entries `l` and `r`, with their frequencies, and `n` is an index for a new node. -/
structure State.MergeFront (s : State) (l r : BitVec 9) (rest : List (BitVec 9)) (n : BitVec 10) (fl fr : Nat) :
    Prop where
  act : s.act = some (l :: r :: rest)
  next : s.hufNext = some n
  lo : 256 ≤ n.toNat
  hi : n.toNat ≤ 510
  left : cellGet s.freq l.toNat = some fl
  right : cellGet s.freq r.toNat = some fr

theorem State.MergeFront.toNat_node (h : s.MergeFront l r rest n fl fr) : (n.setWidth 9).toNat = n.toNat := by
  have := h.hi
  rw [BitVec.toNat_setWidth]
  omega

/-- A merge whose sum the setting allows makes the node. -/
theorem State.MergeFront.hufMerge_node (h : s.MergeFront l r rest n fl fr) (hf : freqAdd p fl fr = some f)
    (hins : insertStable (cellSet s.freq n.toNat f) (n.setWidth 9) rest = .next act') :
    hufMerge p s = .next (s.merged n l r f act') := by
  obtain ⟨hact, hn, hlo, hhi, hl, hr⟩ := h
  simp [hufMerge, hact, hn, hlo, hhi, hl, hr, hf, hins]

/-- A sum that the setting does not allow. -/
theorem State.MergeFront.hufMerge_overflow (h : s.MergeFront l r rest n fl fr) (hf : freqAdd p fl fr = none) :
    hufMerge p s = raise .frequencyOverflow .hufBuild s := by
  obtain ⟨hact, hn, hlo, hhi, hl, hr⟩ := h
  simp [hufMerge, hact, hn, hlo, hhi, hl, hr, hf]

/-- What a merge can lead to: the overflow error, or the node. -/
theorem hufMerge_next (h : hufMerge p s = .next t) :
    ∃ l r rest n fl fr, s.MergeFront l r rest n fl fr ∧
      ((freqAdd p fl fr = none ∧ t.phase = .error) ∨
        ∃ f act', freqAdd p fl fr = some f ∧
          insertStable (cellSet s.freq n.toNat f) (n.setWidth 9) rest = .next act' ∧ t = s.merged n l r f act') := by
  simp only [hufMerge, withReg_next] at h
  obtain ⟨act, hact, h⟩ := h
  split at h
  · rename_i l r rest
    obtain ⟨n, hn, h⟩ := withReg_next.mp h
    split at h
    · rename_i hrange
      simp only [withVal_next] at h
      obtain ⟨fl, hl, fr, hr, h⟩ := h
      refine ⟨l, r, rest, n, fl, fr, ⟨hact, hn, hrange.1, hrange.2, hl, hr⟩, ?_⟩
      split at h
      · rename_i hf
        obtain ⟨_, -, rfl⟩ := raise_next.mp h
        exact .inl ⟨hf, rfl⟩
      · rename_i f hf
        simp only [andThen_next, Host.Outcome.next.injEq] at h
        obtain ⟨act', hins, rfl⟩ := h
        exact .inr ⟨f, act', hf, hins, rfl⟩
    · cases h
  · cases h

theorem stepWith_hufBuild (hph : s.phase = .hufBuild) : stepWith p s = hufMerge p s := by
  simp [stepWith, hph]

@[simp] theorem State.merged_act : (s.merged n l r f act').act = some act' := by
  unfold State.merged
  split <;> rfl

/-- Settles O21: the merge's equation, and the two forms of the state it leaves. -/
theorem mergeMakesTheNextNode : Obligations.MergeMakesTheNextNode := by
  intro p s l r rest n fl fr hph hact hn hlo hhi hl hr hrest
  have hfront : s.MergeFront l r rest n fl fr := ⟨hact, hn, hlo, hhi, hl, hr⟩
  rw [stepWith_hufBuild hph]
  refine ⟨fun f hf => ?_, fun c hf hc => by rw [hfront.hufMerge_overflow hf, raise_eq hc]⟩
  obtain ⟨keys, hkeys⟩ := keyed_of_some (freq := cellSet s.freq n.toNat f) (act := rest) fun x hx => by
    rw [cellGet_cellSet]
    split
    · rfl
    · exact hrest x hx
  have hins := insertStable_next.mpr
    ⟨f, keys, by rw [hfront.toNat_node, cellGet_cellSet, if_pos rfl], hkeys, rfl⟩
  obtain ⟨hlen, -⟩ := insertStable_entries hins
  refine ⟨_, hins, fun hne => ?_, fun hnil => ?_⟩
  · have hpos := List.length_pos_of_ne_nil hne
    rw [hfront.hufMerge_node hf hins, State.merged_more (by omega)]
  · rw [hfront.hufMerge_node hf hins, State.merged_last (by rw [hlen, hnil]; rfl)]

/-- Settles O24: below 2^32 the sum is exact under every setting, and the node takes the place of its two children. -/
theorem settingsAgreeBelow32Bits : Obligations.SettingsAgreeBelow32Bits := by
  intro s act n l hact hn hold hl hsum p q
  constructor
  · match act, hl with
    | [], _ => simp [hufMerge, hact]
    | [_], _ => simp [hufMerge, hact]
    | x :: y :: rest, hl =>
      obtain ⟨fx, fy, keys, hx, hy, -, rfl⟩ := keyed_front_next hl
      simp only [List.map_cons, List.sum_cons] at hsum
      have hadd : ∀ p, freqAdd p fx fy = some (fx + fy) := fun p => freqAdd_of_le (by omega)
      simp only [hufMerge, hact, hn, hx, hy, withReg_some, withVal_some, hadd]
  · intro t ht
    obtain ⟨x, y, rest, n', fx, fy, hfront, hcase⟩ := hufMerge_next ht
    obtain rfl := Option.some.inj (hact.symm.trans hfront.act)
    obtain rfl := Option.some.inj (hn.symm.trans hfront.next)
    obtain ⟨fx', fy', keys, hx, hy, hkeys, rfl⟩ := keyed_front_next hl
    obtain rfl := Option.some.inj (hx.symm.trans hfront.left)
    obtain rfl := Option.some.inj (hy.symm.trans hfront.right)
    simp only [List.map_cons, List.sum_cons] at hsum ⊢
    rw [freqAdd_of_le (by omega)] at hcase
    obtain ⟨hnone, -⟩ | ⟨f, act', hf, hins, rfl⟩ := hcase
    · cases hnone
    · obtain rfl := Option.some.inj hf
      have hold' : ∀ z ∈ rest, z.toNat < n.toNat := fun z hz => hold z (by simp [hz])
      obtain rfl := Host.Outcome.next.inj (hins.symm.trans (insertStable_node hfront.toNat_node hold' hkeys))
      refine ⟨_, _, State.merged_act, (State.merged_freq ..) ▸ keyed_insertKeyed_node hfront.toNat_node hold' hkeys, ?_⟩
      rw [(insertKeyed_perm.map Prod.fst).sum_eq, List.map_cons, List.sum_cons, Nat.add_assoc]

end Merge

/-! ## The build (R146, R147) -/

section Build

variable {f fl fr : Nat} {l r : BitVec 9} {act act' rest : List (BitVec 9)} {n : BitVec 10}

/-- In a list in order no index stands twice, since an index has one frequency. -/
theorem nodup_of_keyedBefore {freq : List (Nat × Nat)} {keys : List (Nat × BitVec 9)}
    (hkeys : keyed freq act = .next keys) (hord : keys.Pairwise keyedBefore) : (act.map BitVec.toNat).Nodup := by
  obtain ⟨rfl, hfreq⟩ := keyed_next hkeys
  rw [List.map_map]
  refine List.pairwise_map.mpr (hord.imp_of_mem fun {a b} ha hb hab heq => ?_)
  have hfst : some a.1 = some b.1 := (hfreq a ha).symm.trans ((congrArg _ heq).trans (hfreq b hb))
  rcases hab with hlt | ⟨-, hlt⟩
  · exact Nat.ne_of_lt hlt (Option.some.inj hfst)
  · exact Nat.ne_of_lt hlt heq

/-- The entries are different nodes below `HUF_NEXT`, so at most half of the 512 are in the list. -/
theorem State.BuildOrder.next_ge (h : s.BuildOrder) (hn : s.hufNext = some n) : 256 ≤ n.toNat := by
  obtain ⟨act, n', keys, -, hn', hkeys, hord, hcount, hold⟩ := h
  obtain rfl := Option.some.inj (hn.symm.trans hn')
  have hsub : act.map BitVec.toNat ⊆ List.range n.toNat := fun i hi => by
    obtain ⟨x, hx, rfl⟩ := List.mem_map.mp hi
    exact List.mem_range.mpr (hold x hx)
  have hle := (List.subperm_of_subset (nodup_of_keyedBefore hkeys hord) hsub).length_le
  rw [List.length_map, List.length_range] at hle
  omega

/-- Two entries in the list are enough for a merge. -/
theorem State.BuildOrder.mergeFront (h : s.BuildOrder) (hact : s.act = some act) (htwo : 2 ≤ act.length) :
    ∃ l r rest n fl fr, act = l :: r :: rest ∧ s.MergeFront l r rest n fl fr := by
  have ⟨act₀, n, keys, hact₀, hn, hkeys, _, hcount, _⟩ := h
  obtain rfl := Option.some.inj (hact.symm.trans hact₀)
  match act, htwo with
  | l :: r :: rest, _ =>
    obtain ⟨fl, fr, -, hl, hr, -, -⟩ := keyed_front_next hkeys
    exact ⟨l, r, rest, n, fl, fr, rfl, hact, hn, h.next_ge hn, by omega, hl, hr⟩

/-- A merge of a list in order answers: the last one leaves the root, every other one a list in order with one entry
fewer. -/
theorem State.BuildOrder.merge (h : s.BuildOrder) (hph : s.phase = .hufBuild)
    (hfront : s.MergeFront l r rest n fl fr) (f : Nat) :
    ∃ act' t, insertStable (cellSet s.freq n.toNat f) (n.setWidth 9) rest = .next act' ∧ t = s.merged n l r f act' ∧
      ((rest = [] ∧ t.phase = .hufDecode ∧ t.act = some [510] ∧ t.hufNext = some 511) ∨
        (rest ≠ [] ∧ t.phase = .hufBuild ∧ t.BuildOrder ∧ t.act = some act' ∧ act'.length = rest.length + 1)) := by
  have hnode := hfront.toNat_node
  have hhi := hfront.hi
  obtain ⟨act, n', keys, hact, hn, hkeyed, hord, hcount, hold⟩ := h
  obtain rfl := Option.some.inj (hact.symm.trans hfront.act)
  obtain rfl := Option.some.inj (hn.symm.trans hfront.next)
  obtain ⟨_, _, keys, -, -, hkeys, rfl⟩ := keyed_front_next hkeyed
  have hold' : ∀ x ∈ rest, x.toNat < n'.toNat := fun x hx => hold x (by simp [hx])
  have hins := insertStable_node (f := f) hnode hold' hkeys
  obtain ⟨hlen, hmem⟩ := insertStable_entries hins
  refine ⟨_, _, hins, rfl, ?_⟩
  simp only [List.length_cons] at hcount
  cases rest with
  | nil =>
    obtain rfl := Host.Outcome.next.inj hkeys
    obtain rfl : n' = 510 := BitVec.eq_of_toNat_eq (by simp at hcount; simp; omega)
    rw [State.merged_last hlen]
    exact .inl ⟨rfl, rfl, rfl, rfl⟩
  | cons x rest =>
    rw [State.merged_more (by rw [hlen]; simp)]
    have hnext : (n' + 1).toNat = n'.toNat + 1 := toNat_add_ofNat (k := 1) (n := 511) (by simp; omega)
    have hord' := insertKeyed_pairwise_node (f := f) hnode hold' hkeys (hord.sublist (by simp))
    refine .inr ⟨List.cons_ne_nil x rest, hph,
      ⟨_, _, _, rfl, rfl, keyed_insertKeyed_node hnode hold' hkeys, hord', ?_, fun y hy => ?_⟩, rfl, hlen⟩
    · rw [hlen, hnext]; omega
    · rw [hnext]
      rcases hmem y hy with rfl | hy
      · omega
      · exact Nat.lt_succ_of_lt (hold' y hy)

/-- Settles O22: what a merge leaves of a list in order. -/
theorem buildOrderKept : Obligations.BuildOrderKept := by
  intro p s t hph h ht
  rw [stepWith_hufBuild hph] at ht
  obtain ⟨l, r, rest, n, fl, fr, hfront, ⟨-, herr⟩ | ⟨f, act', -, hins, rfl⟩⟩ := hufMerge_next ht
  · exact .inr (.inr herr)
  · obtain ⟨act₁, t, hins₁, rfl, hcase⟩ := h.merge hph hfront f
    obtain rfl := Host.Outcome.next.inj (hins.symm.trans hins₁)
    obtain ⟨-, hend⟩ | ⟨-, hbuild, hord, -⟩ := hcase
    · exact .inr (.inl hend)
    · exact .inl ⟨hbuild, hord⟩

/-- A step of the build under a setting that allows every sum: the build ends with the last two entries, and has one
entry fewer before. -/
theorem State.BuildOrder.step_answers (h : s.BuildOrder) (hp : p ≠ .fault) (hph : s.phase = .hufBuild)
    (hact : s.act = some act) (htwo : 2 ≤ act.length) :
    ∃ t, stepWith p s = .next t ∧
      ((act.length = 2 ∧ t.phase = .hufDecode ∧ t.act = some [510] ∧ t.hufNext = some 511) ∨
        (t.phase = .hufBuild ∧ t.BuildOrder ∧
          ∃ act', t.act = some act' ∧ act.length = act'.length + 1 ∧ 2 ≤ act'.length)) := by
  obtain ⟨l, r, rest, n, fl, fr, rfl, hfront⟩ := h.mergeFront hact htwo
  obtain ⟨f, hf⟩ := freqAdd_answers (a := fl) (b := fr) hp
  obtain ⟨act', t, hins, rfl, hcase⟩ := h.merge hph hfront f
  refine ⟨_, (stepWith_hufBuild hph).trans (hfront.hufMerge_node hf hins), ?_⟩
  obtain ⟨rfl, hend⟩ | ⟨hne, hbuild, hord, hact', hlen⟩ := hcase
  · exact .inl ⟨rfl, hend⟩
  · have hpos := List.length_pos_of_ne_nil hne
    exact .inr ⟨hbuild, hord, act', hact', by rw [hlen]; rfl, by omega⟩

/-- A build of `k + 2` entries takes `k + 1` merges. -/
theorem State.BuildOrder.run {k : Nat} (h : s.BuildOrder) (hp : p ≠ .fault) (hph : s.phase = .hufBuild)
    (hact : s.act = some act) (hlen : act.length = k + 2) :
    ∃ t, runWith p (k + 1) s = .next t ∧ t.phase = .hufDecode ∧ t.act = some [510] ∧ t.hufNext = some 511 := by
  induction k generalizing s act with
  | zero =>
    obtain ⟨t, ht, ⟨-, hend⟩ | ⟨-, -, act', -, hlen', htwo⟩⟩ := h.step_answers hp hph hact (by omega)
    · exact ⟨t, by rw [runWith, ht]; rfl, hend⟩
    · omega
  | succ k ih =>
    obtain ⟨t, ht, ⟨hlen', -⟩ | ⟨hbuild, hord, act', hact', hlen', -⟩⟩ := h.step_answers hp hph hact (by omega)
    · omega
    · rw [runWith, ht]
      exact ih hord hbuild hact' (by omega)

/-- Settles O23: the run, for a list of at least two entries. -/
theorem buildTakesOneMergePerEntry : Obligations.BuildTakesOneMergePerEntry := by
  intro p s act hp hph h hact htwo
  rw [show act.length - 1 = act.length - 2 + 1 by omega]
  exact h.run hp hph hact (by omega)

end Build

/-! ## The walk (R148 to R150) -/

section Walk

variable {bit : Bool} {s1 : State} {node child : BitVec 9}

theorem hufMove_internal (h : 256 ≤ child.toNat) : hufMove child s = .next { s with hufNode := some child } :=
  if_neg (by omega)

theorem hufMove_leaf {cnt u : BitVec 32} (h : child.toNat ≤ 255) (hcnt : s.hufOutCnt = some cnt)
    (hu : s.hufUnpacked = some u) (hlt : cnt.toNat < u.toNat) :
    hufMove child s = .next
      { s with
        hout := s.hout.write cnt.toNat (child.setWidth 8), hufOutCnt := some (cnt + 1), hufNode := some 510 } := by
  have hlt' : cnt < u := hlt
  simp [hufMove, h, hufEmit, hcnt, hu, hlt']

/-- A move that follows a bit goes to the child, or puts a leaf out and goes back to the root. -/
theorem BitTaken.hufMove_effect (h : BitTaken s bit s1) :
    (256 ≤ child.toNat → hufMove child s1 = .next { s1 with hufNode := some child }) ∧
    (∀ cnt u, child.toNat ≤ 255 → s.hufOutCnt = some cnt → s.hufUnpacked = some u → cnt.toNat < u.toNat →
      ∃ t, hufMove child s1 = .next t ∧
        t = { s1 with hout := t.hout, hufOutCnt := some (cnt + 1), hufNode := some 510 } ∧
        t.hout.read cnt.toNat = some (BitVec.ofNat 8 child.toNat) ∧
        ∀ a, a ≠ cnt.toNat → t.hout.read a = s.hout.read a) := by
  obtain ⟨q, b, i, rfl⟩ := h.frame
  refine ⟨hufMove_internal, fun cnt u hleaf hcnt hu hlt => ⟨_, hufMove_leaf hleaf hcnt hu hlt, rfl, ?_, fun a ha => ?_⟩⟩
  · rw [Memory.read_write, if_pos rfl, BitVec.ofNat_toNat]
  · exact (Memory.read_write ..).trans (if_neg ha.symm)

theorem BitTaken.exec_hufBit0 (h : BitTaken s bit s1) (hnode : s.hufNode = some node)
    (hchild : cellGet s.left node.toNat = some child) : exec .hufBit0 s = hufMove child s1 := by
  rw [exec, execHufBit0, h.nextBit_eq]
  obtain ⟨q, b, i, rfl⟩ := h.frame
  rw [hnode, withReg_some, hchild, withVal_some]

theorem BitTaken.exec_hufBit1 (h : BitTaken s bit s1) (hnode : s.hufNode = some node)
    (hchild : cellGet s.right node.toNat = some child) : exec .hufBit1 s = hufMove child s1 := by
  rw [exec, execHufBit1, h.nextBit_eq]
  obtain ⟨q, b, i, rfl⟩ := h.frame
  rw [hnode, withReg_some, hchild, withVal_some]

/-- Settles O25: the bit, then the move to the left child. -/
theorem hufBit0MovesLeft : Obligations.HufBit0MovesLeft := by
  intro s
  refine ⟨fun s1 node child hbit hnode hchild => ?_, fun pos lim c hq hp hl hend hc => ?_⟩
  · rw [hbit.exec_hufBit0 hnode hchild]
    exact hbit.hufMove_effect
  · rw [exec, execHufBit0, nextBit_short hq hp hl hend, raise_eq hc]

/-- Settles O26: the bit, then the move to the right child. -/
theorem hufBit1MovesRight : Obligations.HufBit1MovesRight := by
  intro s
  refine ⟨fun s1 node child hbit hnode hchild => ?_, fun pos lim c hq hp hl hend hc => ?_⟩
  · rw [hbit.exec_hufBit1 hnode hchild]
    exact hbit.hufMove_effect
  · rw [exec, execHufBit1, nextBit_short hq hp hl hend, raise_eq hc]

end Walk

/-! ## The end of the stage (R151) -/

/-- With the output complete the step is the end of the stage. -/
theorem stepWith_hufEnd {u : BitVec 32} (hph : s.phase = .hufDecode) (hcnt : s.hufOutCnt = some u)
    (hu : s.hufUnpacked = some u) : stepWith p s = hufEnd s := by
  simp [stepWith, hph, hufDecodeStep, hcnt, hu]

theorem hufEnd_dict {u : BitVec 32} (hu : s.hufUnpacked = some u) (hm : s.pipeMode = some .hufdict) :
    hufEnd s = .next (s.detachBitReader.openPort .hout 0 (u.setWidth 33)).enterDict := by
  simp [hufEnd, hu, hm]

theorem hufEnd_rle {u : BitVec 32} {m : PipeMode} (hu : s.hufUnpacked = some u) (hm : s.pipeMode = some m)
    (hmode : m ≠ .hufdict) : hufEnd s = .next ((s.detachBitReader.openPort .hout 0 (u.setWidth 33)).enterRle u) := by
  simp [hufEnd, hu, hm]

/-- Settles O27: the end of the stage, for each mode. -/
theorem huffmanStageEnds : Obligations.HuffmanStageEnds := by
  intro s u m hph hcnt hu hm
  rw [step, stepWith_hufEnd hph hcnt hu, BitVec.ofNat_toNat]
  cases m with
  | hufdict => rw [hufEnd_dict hu hm]; rfl
  | rle => rw [hufEnd_rle hu hm (by decide)]; rfl
  | hufrle => rw [hufEnd_rle hu hm (by decide)]; rfl

end Sys2Proof.Machine

/-! # The dictionary family: the header, the literals, the copy and the end of the stage (42_dictionary R171 to R175) -/

namespace Sys2Proof.Machine

variable {p : FreqOverflow} {s : State}

/-! ## The copy loop (R175) -/

section CopyLoop

variable {off count dst a j : Nat} {m m' : Memory}

/-- The loop writes only the bytes it is asked for. -/
theorem copyLoop_outside (h : copyLoop off count dst m = .next m') (ha : a < dst ∨ dst + count ≤ a) :
    m'.read a = m.read a := by
  induction count generalizing dst m with
  | zero =>
    obtain rfl := Host.Outcome.next.inj h
    rfl
  | succ count ih =>
    obtain ⟨v, -, h⟩ := withVal_next.mp h
    rw [ih h (by omega), Memory.read_write, if_neg (by omega)]

/-- Each copied byte is the byte `off` before it, be that an older byte or one of this copy: the byte read is never
written again. -/
theorem copyLoop_period (h : copyLoop off count dst m = .next m') (hpos : 0 < off) (hle : off ≤ dst) (hj : j < count) :
    m'.read (dst + j) = m'.read (dst + j - off) := by
  induction count generalizing dst m j with
  | zero => exact absurd hj (Nat.not_lt_zero j)
  | succ count ih =>
    obtain ⟨v, hv, h⟩ := withVal_next.mp h
    cases j with
    | zero =>
      have hsource : m'.read (dst - off) = some v := by
        rw [copyLoop_outside h (by omega), Memory.read_write, if_neg (by omega), hv]
      have htarget : m'.read dst = some v := by
        rw [copyLoop_outside h (by omega), Memory.read_write, if_pos rfl]
      exact htarget.trans hsource.symm
    | succ j =>
      have hshift : dst + (j + 1) = dst + 1 + j := by omega
      rw [hshift]
      exact ih h (by omega) (by omega)

end CopyLoop

/-! ## The tokens -/

section Tokens

variable {o n b e : BitVec 8} {pos l : BitVec 33} {d size : BitVec 32}

/-- The header's marker is read at index 8, wherever the port stands. -/
theorem execDictHeader_room (hl : s.inLimit = some l) (h : 9 ≤ l.toNat) :
    execDictHeader e s = .next { s with inPos := some 12, dictEsc := some e, dictDst := some 0, phase := .dict } := by
  rw [execDictHeader, takeBytes_room (State.setInPos_inPos ..) hl h]
  simp only [State.setInPos]

theorem execDictHeader_short (hl : s.inLimit = some l) (h : l.toNat ≤ 8) :
    execDictHeader e s = raise .truncatedInput .dict s := by
  rw [execDictHeader, takeBytes_short (State.setInPos_inPos ..) hl (Nat.lt_succ_of_le h), raise_setInPos]

/-- The decoder is given a header whose marker is byte 8 of the memory under the port. -/
theorem tokenBytes_dictHeader {sp : Space} (hsp : s.inSpace = some sp) (hl : s.inLimit = some l) (h : 9 ≤ l.toNat)
    (he : portByte s sp 8 = some e) : tokenBytes .dictHeader s = encode .dictHeader (.dictHeader e) := by
  have hpeek : portBytes s 1 8 = [e] := by simp [portBytes, hsp, hl, peekBytes, he, Nat.lt_of_succ_le h]
  rw [tokenBytes, hpeek, encode]

/-- Appending to a plane with room writes the byte at `DICT_DST` and advances it. -/
theorem dictAppend_effect (hd : s.dictDst = some d) (hn : s.planeSize = some size) (hlt : d.toNat < size.toNat) :
    ∃ t, dictAppend b s = .next t ∧ t = { s with plane := t.plane, dictDst := some (d + 1) } ∧
      t.plane.read d.toNat = some b ∧ ∀ a, a ≠ d.toNat → t.plane.read a = s.plane.read a := by
  refine ⟨{ s with plane := s.plane.write d.toNat b, dictDst := some (d + 1) }, ?_, rfl, ?_, fun a ha => ?_⟩
  · rw [dictAppend, hd, withReg_some, writePlane_room hn hlt]
    rfl
  · exact (Memory.read_write ..).trans (if_pos rfl)
  · exact (Memory.read_write ..).trans (if_neg ha.symm)

theorem execDictLit_room (hp : s.inPos = some pos) (hl : s.inLimit = some l) (hroom : pos.toNat + 1 ≤ l.toNat) :
    execDictLit b s = dictAppend b (s.setInPos (pos + 1)) :=
  takeBytes_room hp hl hroom

theorem execDictEsc_room (hp : s.inPos = some pos) (hl : s.inLimit = some l) (hroom : pos.toNat + 2 ≤ l.toNat)
    (he : s.dictEsc = some e) : execDictEsc s = dictAppend e (s.setInPos (pos + 2)) := by
  rw [execDictEsc, takeBytes_room hp hl hroom, State.setInPos_dictEsc, he, withReg_some]
  rfl

/-- A copy of no bytes only consumes its token. -/
theorem execDictCopy_zero (hp : s.inPos = some pos) (hl : s.inLimit = some l) (hroom : pos.toNat + 3 ≤ l.toNat) :
    execDictCopy o 0 s = .next (s.setInPos (pos + 3)) := by
  rw [execDictCopy, takeBytes_room hp hl hroom, if_pos rfl]
  rfl

/-- A copy of at least one byte checks its reference, then the room, and then copies (R175, R248). -/
theorem execDictCopy_checks (hp : s.inPos = some pos) (hl : s.inLimit = some l) (hroom : pos.toNat + 3 ≤ l.toNat)
    (hn : n ≠ 0) (he : s.dictEsc = some e) (hd : s.dictDst = some d) (hsize : s.planeSize = some size) :
    execDictCopy o n s =
      if (copyOffset o e).toNat = 0 ∨ d.toNat < (copyOffset o e).toNat then raise .badBackReference .dict s
      else if size.toNat < d.toNat + n.toNat then raise .outputOverflow .dict s
      else
        andThen (copyLoop (copyOffset o e).toNat n.toNat d.toNat s.plane) fun plane =>
        .next
          { s with
            inPos := some (pos + 3), plane := plane, dictDst := some (BitVec.ofNat 32 (d.toNat + n.toNat)) } := by
  have hzero : copyOffset o e = 0 ↔ (copyOffset o e).toNat = 0 := BitVec.toNat_inj.symm
  have hsum : d + BitVec.ofNat 32 n.toNat = BitVec.ofNat 32 (d.toNat + n.toNat) := by simp [BitVec.ofNat_add]
  rw [execDictCopy, takeBytes_room hp hl hroom, if_neg hn]
  simp only [State.setInPos_dictEsc, State.setInPos_dictDst, State.setInPos_planeSize, State.setInPos_plane, he, hd,
    hsize, withReg_some, raise_setInPos, hzero, gt_iff_lt, hsum]
  rfl

/-- A copy that is admitted goes on with what its loop leaves in the plane. -/
theorem execDictCopy_room {plane : Memory} (hp : s.inPos = some pos) (hl : s.inLimit = some l)
    (hroom : pos.toNat + 3 ≤ l.toNat) (hn : n ≠ 0) (he : s.dictEsc = some e) (hd : s.dictDst = some d)
    (hsize : s.planeSize = some size) (hpos : 0 < (copyOffset o e).toNat) (hback : (copyOffset o e).toNat ≤ d.toNat)
    (hfit : d.toNat + n.toNat ≤ size.toNat)
    (hcopy : copyLoop (copyOffset o e).toNat n.toNat d.toNat s.plane = .next plane) :
    execDictCopy o n s = .next
      { s with
        inPos := some (pos + 3), plane := plane, dictDst := some (BitVec.ofNat 32 (d.toNat + n.toNat)) } := by
  rw [execDictCopy_checks hp hl hroom hn he hd hsize, if_neg (by omega), if_neg (by omega), hcopy, andThen_ofNext]

end Tokens

/-- With the plane full a step of the dictionary phase ends the stage (R172). -/
theorem stepWith_dictEnd {n : BitVec 32} (hph : s.phase = .dict) (hd : s.dictDst = some n)
    (hn : s.planeSize = some n) : stepWith p s = dictEnd s := by
  simp [stepWith, hph, dictStep, hd, hn]

/-! ## The obligations -/

/-- Settles O28: the token's effect, its error, and the byte the decoder takes the marker from. -/
theorem dictHeaderSetsTheMarker : Obligations.DictHeaderSetsTheMarker := by
  intro s e l hl
  refine ⟨execDictHeader_room hl, fun c h hc => ?_, fun sp hph hsp h he => ?_⟩
  · exact (execDictHeader_short hl h).trans (raise_eq hc)
  · have hdec : decode .dictHeader (tokenBytes .dictHeader s) = .token (.dictHeader e) [] := by
      rw [tokenBytes_dictHeader hsp hl h he]
      exact decode_dictHeader_encode (i := .dictHeader e) rfl []
    exact (stepWith_dictHeader hph).trans (runToken_of_decode hdec)

/-- Settles O29: both tokens are `dictAppend` behind the bytes they consume. -/
theorem dictLiteralsAppendOneByte : Obligations.DictLiteralsAppendOneByte := by
  intro s b e pos l d n hp hl he hd hn hlt
  refine ⟨fun hroom => ?_, fun hroom => ?_, fun c hc => ⟨fun hshort => ?_, fun hshort => ?_⟩⟩
  · rw [exec, execDictLit_room hp hl hroom]
    exact dictAppend_effect hd hn hlt
  · rw [exec, execDictEsc_room hp hl hroom he]
    exact dictAppend_effect hd hn hlt
  · rw [exec, execDictLit, takeBytes_short hp hl hshort, raise_eq hc]
  · rw [exec, execDictEsc, takeBytes_short hp hl hshort, raise_eq hc]

/-- Settles O30: `execDictCopy_checks` orders the errors; what an admitted copy writes is said by the laws of its loop. -/
theorem dictCopyRepeatsEarlierBytes : Obligations.DictCopyRepeatsEarlierBytes := by
  intro s o n e pos l d size off hp hl he hd hsize hoff
  rw [← copyOffset_toNat] at hoff
  subst hoff
  refine ⟨fun hroom hn => ?_, fun hroom hn hne hback hfit hfilled => ?_,
    fun c hc => ⟨fun hshort => ?_, fun hroom hn hbad => ?_, fun hroom hn hne hback hfull => ?_⟩⟩
  · subst hn
    exact execDictCopy_zero hp hl hroom
  · have hpos := Nat.pos_of_ne_zero hne
    obtain ⟨plane, hcopy⟩ := copyLoop_answers (count := n.toNat) hpos hback hfilled
    exact ⟨_, execDictCopy_room hp hl hroom hn he hd hsize hpos hback hfit hcopy, rfl,
      fun j hj => ⟨copyLoop_filled hcopy (.inr (by omega)), copyLoop_period hcopy hpos hback hj⟩,
      fun a => copyLoop_outside hcopy⟩
  · rw [exec, execDictCopy, takeBytes_short hp hl hshort, raise_eq hc]
  · rw [exec, execDictCopy_checks hp hl hroom hn he hd hsize, if_pos hbad, raise_eq hc]
  · rw [exec, execDictCopy_checks hp hl hroom hn he hd hsize, if_neg (by omega), if_pos hfull, raise_eq hc]

/-- Settles O31, by `stepWith_dictEnd`. -/
theorem dictStageEndsWhenFull : Obligations.DictStageEndsWhenFull :=
  fun _ _ hph hd hn => stepWith_dictEnd hph hd hn

end Sys2Proof.Machine

/-! # The run-length family: the no-op, the literals, the run and the end of the stage (43_runlength R192 to R196) -/

namespace Sys2Proof.Machine

variable {p : FreqOverflow} {s t : State}

/-! ## The tokens that write the plane (R193, R194) -/

section RleWrite

variable {vs : List (BitVec 8)} {k : Nat} {pos l : BitVec 33} {d size : BitVec 32}

/-- Behind its control byte a token checks the room in the plane, and then takes its operand bytes and writes (R248). -/
theorem rleWrite_checks (hp : s.inPos = some pos) (hl : s.inLimit = some l) (hd : s.rleDst = some d)
    (hn : s.planeSize = some size) (hroom : pos.toNat + 1 ≤ l.toNat) :
    rleWrite vs k s =
      if size.toNat < d.toNat + vs.length then raise .outputOverflow .rle s
      else
        takeBytes k .truncatedInput .rle (s.setInPos (pos + BitVec.ofNat 33 1)) fun s =>
        .next
          { s with
            plane := s.plane.writeBytes d.toNat vs, rleDst := some (BitVec.ofNat 32 (d.toNat + vs.length)) } := by
  have hdst : d + BitVec.ofNat 32 vs.length = BitVec.ofNat 32 (d.toNat + vs.length) := by simp [BitVec.ofNat_add]
  rw [rleWrite, takeBytes_room hp hl hroom]
  simp only [State.setInPos_rleDst, State.setInPos_planeSize, hd, hn, withReg_some, raise_setInPos, gt_iff_lt, hdst]

/-- A token that is admitted writes its bytes from `RLE_DST` on, in order, and nothing else of the plane. -/
theorem rleWrite_effect (hp : s.inPos = some pos) (hl : s.inLimit = some l) (hd : s.rleDst = some d)
    (hn : s.planeSize = some size) (hfit : d.toNat + vs.length ≤ size.toNat) (hroom : pos.toNat + 1 + k ≤ l.toNat) :
    ∃ t, rleWrite vs k s = .next t ∧
      t = { s with
        inPos := some (BitVec.ofNat 33 (pos.toNat + 1 + k)), plane := t.plane
        rleDst := some (BitVec.ofNat 32 (d.toNat + vs.length)) } ∧
      (∀ j, j < vs.length → t.plane.read (d.toNat + j) = vs[j]?) ∧
      ∀ a, a < d.toNat ∨ d.toNat + vs.length ≤ a → t.plane.read a = s.plane.read a := by
  have hcontrol : pos.toNat + 1 ≤ l.toNat := by omega
  have hadvance : pos + BitVec.ofNat 33 1 + BitVec.ofNat 33 k = BitVec.ofNat 33 (pos.toNat + 1 + k) := by
    simp [BitVec.ofNat_add]
  refine ⟨{ s with
      inPos := some (BitVec.ofNat 33 (pos.toNat + 1 + k)), plane := s.plane.writeBytes d.toNat vs
      rleDst := some (BitVec.ofNat 32 (d.toNat + vs.length)) }, ?_, rfl, fun j hj => ?_, fun a ha => ?_⟩
  · rw [rleWrite_checks hp hl hd hn hcontrol, if_neg (by omega),
      takeBytes_room (State.setInPos_inPos ..) hl (by rwa [toNat_add_ofNat hcontrol]), hadvance]
    rfl
  · rw [Memory.read_writeBytes, if_pos (by omega), Nat.add_sub_cancel_left]
  · rw [Memory.read_writeBytes, if_neg (by omega)]

/-- The errors of a token behind its control byte: the overflow first, then the cut token. -/
theorem rleWrite_errors {c : BitVec 2} (hp : s.inPos = some pos) (hl : s.inLimit = some l) (hd : s.rleDst = some d)
    (hn : s.planeSize = some size) (hroom : pos.toNat + 1 ≤ l.toNat) (hc : s.chChan = some c) :
    (size.toNat < d.toNat + vs.length → rleWrite vs k s = .next (s.faultEntry .outputOverflow .rle c)) ∧
    (d.toNat + vs.length ≤ size.toNat → l.toNat < pos.toNat + 1 + k →
      rleWrite vs k s = .next (s.faultEntry .truncatedInput .rle c)) := by
  rw [rleWrite_checks hp hl hd hn hroom]
  refine ⟨fun hfull => ?_, fun hfit hshort => ?_⟩
  · rw [if_pos hfull, raise_eq hc]
  · rw [if_neg (by omega), takeBytes_short (State.setInPos_inPos ..) hl (by rwa [toNat_add_ofNat hroom]),
      raise_setInPos, raise_eq hc]

end RleWrite

@[simp] theorem runBytes_length (n : BitVec 7) (v : BitVec 8) : (runBytes n v).length = n.toNat := List.length_replicate

theorem runBytes_getElem? {n : BitVec 7} {v : BitVec 8} {j : Nat} (hj : j < n.toNat) : (runBytes n v)[j]? = some v :=
  List.getElem?_replicate_of_lt hj

/-! ## The steps of the stage (R192, R196) -/

section Stage

variable {pos b : BitVec 33} {n : BitVec 32}

/-- With srcSize bytes consumed a step of the run-length phase ends the stage (R192). -/
theorem stepWith_rleEnd (hph : s.phase = .rle) (hp : s.inPos = some pos) (hb : s.inBase = some b)
    (hn : s.rleSrcSize = some n) (hdone : n.toNat ≤ pos.toNat - b.toNat) : stepWith p s = rleEnd s := by
  simp [stepWith, hph, rleStep, hp, hb, hn, Nat.not_lt.mpr hdone]

/-- What a step that consumes a run-length token leaves: the stage goes on, with the port at `q`, further on from the
same base. -/
structure RleAdvance (s t : State) (pos q : BitVec 33) : Prop where
  phase   : t.phase = .rle
  base    : t.inBase = s.inBase
  srcSize : t.rleSrcSize = s.rleSrcSize
  inPos   : t.inPos = some q
  lt      : pos.toNat < q.toNat

theorem RleAdvance.not_ended {q : BitVec 33} (h : RleAdvance s t pos q) : ¬ t.Ended := by
  simp [State.Ended, h.phase]

/-- While fewer than srcSize bytes are consumed, a step of the stage ends in `ERROR` or consumes a token. -/
theorem Effect.rleAdvance (h : Effect p s t) (hph : s.phase = .rle) (hp : s.inPos = some pos) (hb : s.inBase = some b)
    (hn : s.rleSrcSize = some n) (hmore : pos.toNat - b.toNat < n.toNat) :
    t.phase = .error ∨ ∃ q, RleAdvance s t pos q := by
  cases h with
  | fault => exact .inl rfl
  | rleWrite vs len p0 l q d size _ hp0 hl hroom hq =>
    obtain rfl := Option.some.inj (hp.symm.trans hp0)
    exact .inr ⟨q, hph, rfl, rfl, rfl, by omega⟩
  | rleNop p0 l _ hp0 hl hroom =>
    obtain rfl := Option.some.inj (hp.symm.trans hp0)
    have hnext : (pos + 1).toNat = pos.toNat + 1 := toNat_add_ofNat (k := 1) hroom
    exact .inr ⟨pos + 1, hph, rfl, rfl, rfl, by omega⟩
  | rleEnd p0 b0 n0 _ hp0 hb0 hn0 hdone =>
    obtain rfl := Option.some.inj (hp.symm.trans hp0)
    obtain rfl := Option.some.inj (hb.symm.trans hb0)
    obtain rfl := Option.some.inj (hn.symm.trans hn0)
    omega
  | _ => simp_all [Phase.waits]

/-- In a safe state of the stage the port stands in its window. -/
theorem State.Running.rle_base_le (h : s.Running) (hph : s.phase = .rle) (hp : s.inPos = some pos)
    (hb : s.inBase = some b) : b.toNat ≤ pos.toNat := by
  simp only [State.Running, hph] at h
  obtain ⟨-, -, ⟨sp, b0, l, p0, -, hb0, -, hp0, hle, -⟩, -⟩ := h
  obtain rfl := Option.some.inj (hp.symm.trans hp0)
  obtain rfl := Option.some.inj (hb.symm.trans hb0)
  exact hle

/-- A step of a safe state of the stage leaves the stage, or stays in it, safe and with fewer bytes left. -/
theorem State.Running.rle_step (h : s.Running) (hph : s.phase = .rle) (hp : s.inPos = some pos)
    (hb : s.inBase = some b) (hn : s.rleSrcSize = some n) :
    ∃ t, stepWith p s = .next t ∧
      ((t.phase = .fillCheck ∨ t.phase = .error) ∨
        ∃ q, RleAdvance s t pos q ∧ t.Running ∧
          n.toNat - (q.toNat - b.toNat) < n.toNat - (pos.toNat - b.toNat)) := by
  by_cases hdone : n.toNat ≤ pos.toNat - b.toNat
  · exact ⟨_, stepWith_rleEnd hph hp hb hn hdone, .inl (.inl rfl)⟩
  · obtain ⟨t, ht⟩ := h.answers (p := p)
    have heffect := stepWith_effect ht
    obtain herr | ⟨q, hadv⟩ := heffect.rleAdvance hph hp hb hn (by omega)
    · exact ⟨t, ht, .inl (.inr herr)⟩
    · have hlt := hadv.lt
      have hle := h.rle_base_le hph hp hb
      exact ⟨t, ht, .inr ⟨q, hadv, (heffect.running h).resolve_right hadv.not_ended, by omega⟩⟩

/-- A safe state of the stage with at most `left` bytes to consume leaves the stage within `left + 1` steps: every token
consumes at least its control byte. -/
theorem State.Running.rle_ends {left : Nat} (h : s.Running) (hph : s.phase = .rle) (hp : s.inPos = some pos)
    (hb : s.inBase = some b) (hn : s.rleSrcSize = some n) (hleft : n.toNat - (pos.toNat - b.toNat) ≤ left) :
    ∃ k t, k ≤ left + 1 ∧ runWith p k s = .next t ∧ (t.phase = .fillCheck ∨ t.phase = .error) := by
  induction left generalizing s pos with
  | zero =>
    obtain ⟨t, ht, hend | ⟨q, -, -, hfewer⟩⟩ := h.rle_step (p := p) hph hp hb hn
    · exact ⟨1, t, le_refl 1, by rw [runWith, ht]; rfl, hend⟩
    · omega
  | succ left ih =>
    obtain ⟨t, ht, hend | ⟨q, hadv, hrun, hfewer⟩⟩ := h.rle_step (p := p) hph hp hb hn
    · exact ⟨1, t, by omega, by rw [runWith, ht]; rfl, hend⟩
    · obtain ⟨k, u, hk, hu, hend⟩ :=
        ih hrun hadv.phase hadv.inPos (hadv.base.trans hb) (hadv.srcSize.trans hn) (by omega)
      exact ⟨k + 1, u, by omega, by rw [runWith, ht]; exact hu, hend⟩

end Stage

/-! ## The obligations -/

/-- Settles O32: the control byte consumed. -/
theorem rleNopConsumesOneByte : Obligations.RleNopConsumesOneByte :=
  fun _ _ _ hp hl hroom => takeBytes_room hp hl hroom

/-- Settles O33: `rleWrite` of the literal bytes, which are also its operand bytes. -/
theorem rleLitCopiesItsBytes : Obligations.RleLitCopiesItsBytes :=
  fun _ _ _ _ _ _ hp hl hd hn hroom =>
    ⟨rleWrite_effect hp hl hd hn, fun _ hc => rleWrite_errors hp hl hd hn hroom hc⟩

/-- Settles O34: `rleWrite` of the repeated byte, whose one operand byte is the value. -/
theorem rleRunRepeatsItsByte : Obligations.RleRunRepeatsItsByte := by
  intro s k v pos l d n hp hl hd hn hroom
  have hadvance : BitVec.ofNat 33 (pos.toNat + 1 + 1) = pos + 2 := by simp [BitVec.ofNat_add, BitVec.add_assoc]
  rw [← runBytes_length k v, ← hadvance]
  refine ⟨fun hfit hboth => ?_, fun c hc => rleWrite_errors hp hl hd hn hroom hc⟩
  obtain ⟨t, ht, hstate, hbytes, hframe⟩ := rleWrite_effect (k := 1) hp hl hd hn hfit hboth
  exact ⟨t, ht, hstate, fun j hj => (hbytes j hj).trans (runBytes_getElem? (by simpa using hj)), hframe⟩

/-- Settles O35: the end, a step before it, and the bound on the run. -/
theorem runLengthStageEnds : Obligations.RunLengthStageEnds := by
  intro p s pos b n hph hp hb hn
  refine ⟨stepWith_rleEnd hph hp hb hn, fun t hmore ht => ?_, fun hrun => hrun.rle_ends hph hp hb hn (le_refl _)⟩
  obtain herr | ⟨q, hadv⟩ := (stepWith_effect ht).rleAdvance hph hp hb hn hmore
  · exact .inr herr
  · exact .inl hadv.phase

end Sys2Proof.Machine

/-! # The pipeline family: the channel's set-up, the fill check, the scatter, the advance and the host (44_pipeline) -/

namespace Sys2Proof.Machine

variable {p : FreqOverflow} {s t : State}

/-! ## The order of the scatter (R218) -/

/-- The last row of the plane is read first, then the rows before it. -/
theorem scatterOrder_succ (w h : Nat) :
    scatterOrder w (h + 1) = (List.range w).map (fun x => h * w + x) ++ scatterOrder w h := by
  simp [scatterOrder, List.range_succ]

/-- Row `y` is read as output row `h - 1 - y`. -/
theorem scatterOrder_getElem? {w h y x : Nat} (hy : y < h) (hx : x < w) :
    (scatterOrder w h)[(h - 1 - y) * w + x]? = some (y * w + x) := by
  induction h with
  | zero => cases hy
  | succ h ih =>
    rw [scatterOrder_succ, Nat.add_sub_cancel]
    obtain hlt | rfl := Nat.lt_succ_iff_lt_or_eq.mp hy
    · have hshift : (h - y) * w + x = w + ((h - 1 - y) * w + x) := by
        rw [show h - y = (h - 1 - y) + 1 by omega, Nat.succ_mul]; omega
      rw [hshift, List.getElem?_append_right (by simp)]
      simpa using ih hlt
    · rw [Nat.sub_self, Nat.zero_mul, Nat.zero_add, List.getElem?_append_left (by simpa using hx)]
      simp [hx]

/-! ## The scatter's loop (R218, R219) -/

section Scatter

variable {plane pix pix' : Memory} {bpp size dst : Nat} {order : List Nat} {a : Nat}

/-- A round of the loop reads a byte that holds a value and writes it inside the pixel buffer. -/
theorem scatterLoop_cons (h : scatterLoop plane bpp size (a :: order) dst pix = .next pix') :
    ∃ v, plane.read a = some v ∧ scatterLoop plane bpp size order (dst + bpp) (pix.write dst v) = .next pix' := by
  obtain ⟨v, hv, h⟩ := withVal_next.mp h
  obtain ⟨pix1, hwrite, h⟩ := andThen_next.mp h
  unfold scatterWrite at hwrite
  split at hwrite
  · obtain rfl := Host.Outcome.next.inj hwrite
    exact ⟨v, hv, h⟩
  · cases hwrite

/-- The loop writes no byte but those at its stride. -/
theorem scatterLoop_outside {b : Nat} (h : scatterLoop plane bpp size order dst pix = .next pix')
    (hb : ∀ k, k < order.length → b ≠ dst + k * bpp) : pix'.read b = pix.read b := by
  induction order generalizing dst pix with
  | nil =>
    obtain rfl := Host.Outcome.next.inj h
    rfl
  | cons a order ih =>
    obtain ⟨v, -, h⟩ := scatterLoop_cons h
    have hne : dst ≠ b := by simpa using (hb 0 (by simp)).symm
    rw [ih h fun k hk => ?_, Memory.read_write, if_neg hne]
    simpa [Nat.succ_mul, Nat.add_assoc, Nat.add_comm bpp] using hb (k + 1) (by simpa using hk)

/-- The byte at step `k` of the stride is the plane byte that round `k` read. -/
theorem scatterLoop_written {k : Nat} (h : scatterLoop plane bpp size order dst pix = .next pix') (hbpp : 0 < bpp)
    (hk : order[k]? = some a) : ∃ v, plane.read a = some v ∧ pix'.read (dst + k * bpp) = some v := by
  induction order generalizing dst pix k with
  | nil => cases hk
  | cons b order ih =>
    obtain ⟨v, hv, h⟩ := scatterLoop_cons h
    cases k with
    | zero =>
      obtain rfl := Option.some.inj hk
      refine ⟨v, hv, ?_⟩
      rw [Nat.zero_mul, Nat.add_zero, scatterLoop_outside h fun k _ => by omega, Memory.read_write, if_pos rfl]
    | succ k => simpa [Nat.succ_mul, Nat.add_assoc, Nat.add_comm bpp] using ih h hk

end Scatter

section Lane

variable {plane pix pix' : Memory} {w h b c q : Nat}

/-- A scatter that completes writes plane row `y` to output row `h - 1 - y` of its lane. -/
theorem scatter_flipsRow (hloop : scatterLoop plane b q (scatterOrder w h) c pix = .next pix') (hlane : c < b) {y x : Nat}
    (hy : y < h) (hx : x < w) :
    ∃ v, plane.read (y * w + x) = some v ∧ pix'.read (((h - 1 - y) * w + x) * b + c) = some v := by
  rw [Nat.add_comm _ c]
  exact scatterLoop_written hloop (by omega) (scatterOrder_getElem? hy hx)

/-- Outside its lane, and past the image, a scatter keeps the pixel buffer. -/
theorem scatter_keeps {a : Nat} (hloop : scatterLoop plane b q (scatterOrder w h) c pix = .next pix') (hlane : c < b)
    (ha : a % b ≠ c ∨ w * h * b ≤ a) : pix'.read a = pix.read a := by
  refine scatterLoop_outside hloop fun k hk heq => ?_
  rw [scatterOrder_length] at hk
  subst heq
  obtain hother | hpast := ha
  · exact hother (by rw [Nat.add_mul_mod_self_right, Nat.mod_eq_of_lt hlane])
  · exact absurd (lane_lt hk hlane) (by omega)

/-- Every byte of the lane holds a value after a scatter. -/
theorem scatter_fillsLane {m : Nat} (hloop : scatterLoop plane b q (scatterOrder w h) c pix = .next pix') (hlane : c < b)
    (hm : m < w * h) : (pix'.read (m * b + c)).isSome = true := by
  have hround : m < (scatterOrder w h).length := by rwa [scatterOrder_length]
  obtain ⟨v, -, hv⟩ := scatterLoop_written hloop (by omega) (List.getElem?_eq_getElem hround)
  rw [Nat.add_comm, hv]
  rfl

end Lane


/-! ## What a step of a decode does to the lanes (R219, R220) -/

/-- The ways a step of a decode in progress touches the job index and the pixel buffer: inside a channel not at all, at a
fault both are lost, a scatter fills a lane, and the advance counts the channel. -/
inductive LaneEffect (s t : State) : Prop
  | inside (hs : s.phase ≠ .chNext) (ht : t.phase ≠ .chNext) (hend : t.phase ≠ .done) (hidx : t.jobIdx = s.jobIdx)
      (hpix : t.pix = s.pix)
  | fault (ht : t.phase = .error)
  | scatter (c : BitVec 2) (b : BitVec 3) (w h : BitVec 16) (q : BitVec 34) (hs : s.phase = .scatter)
      (ht : t.phase = .chNext) (hidx : t.jobIdx = s.jobIdx) (hc : s.chChan = some c) (hb : s.bpp = some b)
      (hw : s.descWidth = some w) (hh : s.descHeight = some h)
      (hloop : scatterLoop s.plane b.toNat q.toNat (scatterOrder w.toNat h.toNat) c.toNat s.pix = .next t.pix)
  | nextChannel (i : BitVec 3) (hs : s.phase = .chNext) (ht : t.phase = .chSetup) (hi : s.jobIdx = some i)
      (hidx : t.jobIdx = some (i + 1)) (hpix : t.pix = s.pix)
  | imageDone (js : List Job) (i : BitVec 3) (hs : s.phase = .chNext) (ht : t.phase = .done) (hjs : s.jobs = some js)
      (hi : s.jobIdx = some i) (hlast : i.toNat + 1 = js.length) (hpix : t.pix = s.pix)

theorem Effect.laneEffect (h : Effect p s t) (hw : s.phase.waits = false) : LaneEffect s t := by
  cases h
  case wait hw' _ => rw [hw] at hw'; cases hw'
  case load hw' _ _ => rw [hw] at hw'; cases hw'
  case start hw' _ _ _ _ _ _ _ _ _ _ => rw [hw] at hw'; cases hw'
  case fault => exact .fault rfl
  case scatter c b w h q pix hph hc hb hw hh hq hloop => exact .scatter c b w h q hph rfl rfl hc hb hw hh hloop
  case nextChannel js i hph hjs hi hmore => exact .nextChannel i hph rfl hi rfl rfl
  case imageDone js i f hph hjs hi hlast hf => exact .imageDone js i hph rfl hjs hi hlast rfl
  case merge act' _ _ _ _ hph _ _ _ _ _ _ _ _ =>
    by_cases h1 : act'.length = 1
    · rw [State.merged_last h1]; exact .inside (by simp [hph]) (by simp) (by simp) rfl rfl
    · rw [State.merged_more h1]; exact .inside (by simp [hph]) (by simp [hph]) (by simp [hph]) rfl rfl
  case walk hph hbit _ _ _ =>
    obtain ⟨q, b, i, rfl⟩ := hbit.frame
    exact .inside (by simp [hph]) (by simp [hph]) (by simp [hph]) rfl rfl
  case emit hph hbit _ _ _ _ _ _ =>
    obtain ⟨q, b, i, rfl⟩ := hbit.frame
    exact .inside (by simp [hph]) (by simp [hph]) (by simp [hph]) rfl rfl
  all_goals exact .inside (by simp [*]) (by simp [*]) (by simp [*]) rfl rfl

/-! ## The lanes of the channels already done (R219, R223) -/

/-- The lanes of the first `d` jobs hold values, and the jobs' lanes cover a pixel. -/
def State.LanesUpTo (s : State) (d : Nat) : Prop :=
  ∃ js b n, s.jobs = some js ∧ s.bpp = some b ∧ s.planeSize = some n ∧ (∀ c, c < b.toNat → ∃ j ∈ js, j.chan.toNat = c) ∧
    ∀ (k : Nat) (j : Job), k < d → js[k]? = some j →
      ∀ m, m < n.toNat → (s.pix.read (m * b.toNat + j.chan.toNat)).isSome = true

theorem lanesFilled_iff : s.LanesFilled ↔
    ∃ i, s.jobIdx = some i ∧ s.LanesUpTo (i.toNat + (if s.phase = .chNext then 1 else 0)) := by
  constructor
  · rintro ⟨js, i, b, n, hjs, hi, hlanes⟩
    exact ⟨i, hi, js, b, n, hjs, hlanes⟩
  · rintro ⟨i, hi, js, b, n, hjs, hlanes⟩
    exact ⟨js, i, b, n, hjs, hi, hlanes⟩

/-- The registers the lanes are measured by belong to the image. -/
theorem State.image_lanes (he : t.image = s.image) :
    t.jobs = s.jobs ∧ t.bpp = s.bpp ∧ t.planeSize = s.planeSize ∧ t.pixSize = s.pixSize := by
  simp only [State.image, Prod.mk.injEq] at he
  obtain ⟨-, -, -, -, -, -, -, -, -, -, -, hjs, -, hbpp, -, hplane, hpix, -⟩ := he
  exact ⟨hjs, hbpp, hplane, hpix⟩

theorem State.LanesUpTo.of_image {d : Nat} (h : s.LanesUpTo d) (he : t.image = s.image) (hpix : t.pix = s.pix) :
    t.LanesUpTo d := by
  obtain ⟨hjs, hbpp, hsize, -⟩ := State.image_lanes he
  unfold State.LanesUpTo
  rw [hjs, hbpp, hsize, hpix]
  exact h

/-- When no job is left, every byte of the pixel buffer belongs to the lane of a job that is done. -/
theorem State.LanesUpTo.pixComplete {js : List Job} (h : s.LanesUpTo js.length) (hjs : s.jobs = some js)
    (himage : s.ImageOk) : s.PixComplete := by
  obtain ⟨js', b, n, hjs', hb, hn, hcover, hlanes⟩ := h
  obtain rfl := Option.some.inj (hjs.symm.trans hjs')
  obtain ⟨-, -, n', b', q, -, -, hn', hb', hq, -, hsize⟩ := himage.sizes
  obtain rfl := Option.some.inj (hn.symm.trans hn')
  obtain rfl := Option.some.inj (hb.symm.trans hb')
  refine ⟨q, hq, fun a ha => ?_⟩
  rw [hsize, Nat.mul_comm] at ha
  have hpos : 0 < b.toNat := Nat.pos_of_mul_pos_right (Nat.zero_lt_of_lt ha)
  obtain ⟨j, hj, hchan⟩ := hcover (a % b.toNat) (Nat.mod_lt a hpos)
  obtain ⟨k, hk, hget⟩ := List.getElem_of_mem hj
  have hlane := hlanes k j hk (by rw [List.getElem?_eq_getElem hk, hget]) (a / b.toNat) (Nat.div_lt_of_lt_mul ha)
  rwa [hchan, Nat.div_add_mod'] at hlane

/-! ### The image's registers, by their values -/

theorem State.ImageOk.planeSize_eq {w h : BitVec 16} {n : BitVec 32} (himage : s.ImageOk) (hw : s.descWidth = some w)
    (hh : s.descHeight = some h) (hn : s.planeSize = some n) : n.toNat = w.toNat * h.toNat := by
  obtain ⟨w', h', n', -, -, hw', hh', hn', -, -, hsize, -⟩ := himage.sizes
  obtain rfl := Option.some.inj (hw.symm.trans hw')
  obtain rfl := Option.some.inj (hh.symm.trans hh')
  obtain rfl := Option.some.inj (hn.symm.trans hn')
  exact hsize

theorem State.ImageOk.chan_lt {js : List Job} {b : BitVec 3} {j : Job} (himage : s.ImageOk) (hjs : s.jobs = some js)
    (hb : s.bpp = some b) (hj : j ∈ js) : j.chan.toNat < b.toNat := by
  obtain ⟨js', -, b', hjs', -, hb', -, -, hall⟩ := himage.jobs
  obtain rfl := Option.some.inj (hjs.symm.trans hjs')
  obtain rfl := Option.some.inj (hb.symm.trans hb')
  exact (hall j hj).1

theorem State.ImageOk.nextIdx {i : BitVec 3} (himage : s.ImageOk) (hi : s.jobIdx = some i) :
    (i + 1).toNat = i.toNat + 1 := by
  obtain ⟨js, i', -, -, hi', -, hlt, hle, -⟩ := himage.jobs
  obtain rfl := Option.some.inj (hi.symm.trans hi')
  exact toNat_add_ofNat (k := 1) (n := 7) (by show i.toNat + 1 ≤ 7; omega)

theorem State.ChannelOk.currentJob {js : List Job} {i : BitVec 3} {c : BitVec 2} (hchan : s.ChannelOk)
    (hjs : s.jobs = some js) (hi : s.jobIdx = some i) (hc : s.chChan = some c) :
    ∃ j, js[i.toNat]? = some j ∧ j.chan = c := by
  obtain ⟨c', -, -, hc', -, -, -, js', i', j, hjs', hi', hj, heq⟩ := hchan
  obtain rfl := Option.some.inj (hjs.symm.trans hjs')
  obtain rfl := Option.some.inj (hi.symm.trans hi')
  exact ⟨j, hj, heq.trans (Option.some.inj (hc'.symm.trans hc))⟩

/-- A scatter adds the current job's lane to those that hold values. -/
theorem State.LanesUpTo.scatter {i : BitVec 3} {c : BitVec 2} {b : BitVec 3} {w h : BitVec 16} {q : BitVec 34}
    (hl : s.LanesUpTo i.toNat) (himage : s.ImageOk) (hchan : s.ChannelOk) (he : t.image = s.image)
    (hi : s.jobIdx = some i) (hc : s.chChan = some c) (hb : s.bpp = some b) (hw : s.descWidth = some w)
    (hh : s.descHeight = some h)
    (hloop : scatterLoop s.plane b.toNat q.toNat (scatterOrder w.toNat h.toNat) c.toNat s.pix = .next t.pix) :
    t.LanesUpTo (i.toNat + 1) := by
  obtain ⟨js, b', n, hjs, hb', hn, hcover, hlanes⟩ := hl
  obtain rfl := Option.some.inj (hb.symm.trans hb')
  obtain ⟨cur, hcur, rfl⟩ := hchan.currentJob hjs hi hc
  have hin : ∀ {k} {j : Job}, js[k]? = some j → j.chan.toNat < b.toNat := fun hj =>
    himage.chan_lt hjs hb (List.mem_of_getElem? hj)
  obtain ⟨hjs', hbpp, hsize, -⟩ := State.image_lanes he
  refine ⟨js, b, n, hjs'.trans hjs, hbpp.trans hb, hsize.trans hn, hcover, fun k j hk hj m hm => ?_⟩
  by_cases hsame : j.chan = cur.chan
  · rw [hsame]
    exact scatter_fillsLane hloop (hin hcur) (himage.planeSize_eq hw hh hn ▸ hm)
  · have hbefore : k < i.toNat := by
      refine lt_of_le_of_ne (Nat.le_of_lt_succ hk) ?_
      rintro rfl
      exact hsame (congrArg Job.chan (Option.some.inj (hj.symm.trans hcur)))
    have hother : (m * b.toNat + j.chan.toNat) % b.toNat ≠ cur.chan.toNat := by
      rw [Nat.add_comm, Nat.add_mul_mod_self_right, Nat.mod_eq_of_lt (hin hj)]
      exact BitVec.toNat_ne.mp hsame
    rw [scatter_keeps hloop (hin hcur) (.inl hother)]
    exact hlanes k j hbefore hj m hm

/-! ## The lanes along a run -/

/-- The lanes of the channels done stay filled while the decode goes on. -/
theorem Effect.lanesFilled (h : Effect p s t) (hs : s.Running) (hl : s.LanesFilled) (ht : t.Running) : t.LanesFilled := by
  have himg := h.image hs.waits
  obtain ⟨i, hi, hlanes⟩ := lanesFilled_iff.mp hl
  rw [lanesFilled_iff]
  cases h.laneEffect hs.waits with
  | inside hs' ht' _ hidx hpix =>
    rw [if_neg hs'] at hlanes
    exact ⟨i, hidx.trans hi, by rw [if_neg ht']; exact hlanes.of_image himg hpix⟩
  | fault hph => simp [State.Running, hph] at ht
  | scatter c b w h q hph hph' hidx hc hb hw hh hloop =>
    rw [hph] at hlanes
    simp only [State.Running, hph] at hs
    obtain ⟨himage, hchan, -⟩ := hs
    exact ⟨i, hidx.trans hi, by rw [if_pos hph']; exact hlanes.scatter himage hchan himg hi hc hb hw hh hloop⟩
  | nextChannel i' hph hph' hi' hidx hpix =>
    obtain rfl := Option.some.inj (hi.symm.trans hi')
    rw [if_pos hph] at hlanes
    simp only [State.Running, hph] at hs
    refine ⟨i + 1, hidx, ?_⟩
    rw [hph', hs.nextIdx hi]
    exact hlanes.of_image himg hpix
  | imageDone _ _ _ hph => simp [State.Running, hph] at ht

/-- The decode is done when the last lane is filled. -/
theorem Effect.pixComplete (h : Effect p s t) (hs : s.Running) (hl : s.LanesFilled) (ht : t.phase = .done) :
    t.PixComplete := by
  have himg := h.image hs.waits
  obtain ⟨i, hi, hlanes⟩ := lanesFilled_iff.mp hl
  cases h.laneEffect hs.waits with
  | inside _ _ hend => exact absurd ht hend
  | fault hph => simp [hph] at ht
  | scatter _ _ _ _ _ _ hph => simp [hph] at ht
  | nextChannel _ _ hph => simp [hph] at ht
  | imageDone js i' hph _ hjs hi' hlast hpix =>
    obtain rfl := Option.some.inj (hi.symm.trans hi')
    rw [if_pos hph, hlast] at hlanes
    simp only [State.Running, hph] at hs
    obtain ⟨q, hq, hall⟩ := hlanes.pixComplete hjs hs
    obtain ⟨-, -, -, hsize⟩ := State.image_lanes himg
    exact ⟨q, hsize.trans hq, hpix ▸ hall⟩

/-- Settles O52, by `Effect.lanesFilled` and `Effect.pixComplete`. -/
theorem doneMeansWholeImage : Obligations.DoneMeansWholeImage :=
  fun _ _ hs hl h => ⟨(stepWith_effect h).lanesFilled hs hl, (stepWith_effect h).pixComplete hs hl⟩

/-! ## The scatter's step (R218) -/

theorem stepWith_scatter (hph : s.phase = .scatter) : stepWith p s = pipeScatter s := by
  simp [stepWith, hph]

/-- Settles O14: the loop completes (`scatterLoop_answers`), and its laws say what it writes. -/
theorem scatterFlipsRows : Obligations.ScatterFlipsRows := by
  intro s c b w h q hph hc hb hw hh hq hlane hsize hplane
  obtain ⟨pix, hloop⟩ := scatterLoop_answers (plane := s.plane) (pix := s.pix) (bpp := b.toNat) (size := q.toNat)
    (dst := c.toNat) (as := scatterOrder w.toNat h.toNat) (fun a ha => hplane a (mem_scatterOrder ha))
    (fun k hk => by rw [scatterOrder_length] at hk; rw [hsize]; exact lane_lt hk hlane)
  refine ⟨{ s with pix := pix, scatY := none, scatX := none, scatDst := none, phase := .chNext }, ?_, rfl,
    fun y x hy hx => ?_, fun a ha => scatter_keeps hloop hlane (hsize ▸ ha)⟩
  · simp only [step, stepWith_scatter hph, pipeScatter, hc, hb, hw, hh, hq, withReg_some, hloop, andThen_ofNext]
  · obtain ⟨v, hread, hwritten⟩ := scatter_flipsRow hloop hlane hy hx
    exact hwritten.trans hread.symm

/-! ## Channel set-up and the decode paths (R213 to R216) -/

/-- `PIPE.RLE` sets the mode and the RunLengthDecoder up. -/
theorem exec_pipeRle {len : BitVec 32} (hlen : s.chLen = some len) :
    exec .pipeRle s = .next ({ s with pipeMode := some .rle }.enterRle len) := by
  simp [exec, execPipeRle, hlen]

/-- Settles O10: what `State.enterRle` writes. -/
theorem pipeRleEntersRunLength : Obligations.PipeRleEntersRunLength :=
  fun _ _ hlen => exec_pipeRle hlen

/-- Settles O11: both tokens are the entry of the Huffman stage, each under its mode. -/
theorem pipeHufEntersHuffman : Obligations.PipeHufEntersHuffman :=
  fun _ => ⟨rfl, fun _ => rfl⟩

/-- `CH_SETUP` sets the channel up and runs the token of the pack type there. -/
theorem stepWith_packType {js : List Job} {i : BitVec 3} {j : Job} {k : BitVec 8} (hph : s.phase = .chSetup)
    (hjs : s.jobs = some js) (hi : s.jobIdx = some i) (hj : js[i.toNat]? = some j) (hk : s.descPack = some k) :
    stepWith p s =
      exec (if k = 0x01 then .pipeRle else if k = 0xA2 then .pipeHufdict else .pipeHufrle k) (s.channelFor j) := by
  have hbytes : tokenBytes .pack (s.channelFor j) = [k] := by simp [tokenBytes, hk]
  rw [stepWith_chSetup hph hjs hi hj, runToken_of_decode (hbytes ▸ packTypeSelectsPath k [])]

/-- Settles O12: the token of the pack type, run in the channel's state. -/
theorem channelSetupDispatches : Obligations.ChannelSetupDispatches := by
  intro s js i j k hph hjs hi hj hk
  have hlimit : BitVec.ofNat 33 (j.fileOff.toNat + j.len.toNat) = j.fileOff + j.len.setWidth 33 := by
    rw [BitVec.ofNat_add, BitVec.ofNat_toNat, BitVec.ofNat_toNat, BitVec.setWidth_eq]
  rw [step, stepWith_packType hph hjs hi hj hk, hlimit]
  by_cases hrle : k = 0x01
  · rw [if_pos hrle, if_pos hrle, exec_pipeRle (len := j.len) rfl]
    rfl
  · rw [if_neg hrle, if_neg hrle]
    by_cases hdict : k = 0xA2
    · rw [if_pos hdict, if_pos hdict]
      rfl
    · rw [if_neg hdict, if_neg hdict]
      rfl

/-! ## The fill check (R217) -/

theorem stepWith_fillCheck (hph : s.phase = .fillCheck) : stepWith p s = fillCheck s := by
  simp [stepWith, hph]

theorem fillCheck_eq {m : PipeMode} {n d : BitVec 32} (hm : s.pipeMode = some m) (hn : s.planeSize = some n)
    (hd : (if m = .hufdict then s.dictDst else s.rleDst) = some d) :
    fillCheck s = if d = n then .next { s with phase := .scatter } else raise .planeUnderfill .fillCheck s := by
  simp only [fillCheck, hm, hn, hd, withReg_some]

/-- Settles O13: both arms of the check. -/
theorem fillCheckDecides : Obligations.FillCheckDecides := by
  intro s m n d hph hm hn hd
  rw [step, stepWith_fillCheck hph, fillCheck_eq hm hn hd]
  refine ⟨fun heq => if_pos heq, fun c hne hc => ?_⟩
  rw [if_neg hne, raise_eq hc]

/-! ## The advance (R220) -/

theorem stepWith_chNext (hph : s.phase = .chNext) : stepWith p s = channelNext s := by
  simp [stepWith, hph]

theorem channelNext_last {js : List Job} {i : BitVec 3} {f : OutFormat} (hjs : s.jobs = some js)
    (hi : s.jobIdx = some i) (hf : s.outFormat = some f) (hlast : i.toNat + 1 = js.length) :
    channelNext s =
      .next { s with jobIdx := some (i + 1), statusFormat := f, statusState := .done, phase := .done } := by
  simp [channelNext, hjs, hi, hf, hlast]

theorem channelNext_more {js : List Job} {i : BitVec 3} (hjs : s.jobs = some js) (hi : s.jobIdx = some i)
    (hmore : i.toNat + 1 ≠ js.length) :
    channelNext s = .next { s with jobIdx := some (i + 1), phase := .chSetup } := by
  simp [channelNext, hjs, hi, hmore]

/-- The word of a finished decode: `STATE` reads 2, and bit 2 is the format (10_state R28). -/
theorem statusWord_done {f : OutFormat} (hst : s.statusState = .done) (hf : s.statusFormat = f) :
    statusWord s = if f = .rgb24 then 2 else 6 := by
  rw [statusWord, hst, hf]
  cases f <;> decide

/-- Settles O15: both arms of the advance, and the word for each format. -/
theorem channelAdvance : Obligations.ChannelAdvance := by
  intro s js i f hph hjs hi hf
  rw [step, stepWith_chNext hph]
  refine ⟨fun hlast => ⟨_, channelNext_last hjs hi hf hlast, rfl, statusWord_done rfl rfl⟩, channelNext_more hjs hi⟩

/-! ## The start (R211, R212, R27) -/

/-- Under `CORE_OK` a pending start builds the state of a decode from the descriptor. -/
theorem stepWith_start {rest : List HostAct} {w h d : BitVec 16} {a r g b : BitVec 32} (hwait : s.phase.waits = true)
    (hbusy : s.statusState ≠ .busy) (hi : s.inbox = .decodeImage :: rest) (hok : coreOk s = true)
    (hw : s.descWidth = some w) (hh : s.descHeight = some h) (hd : s.descDepth = some d) (ha : s.descAlen = some a)
    (hr : s.descRlen = some r) (hg : s.descGlen = some g) (hb : s.descBlen = some b) :
    stepWith p s = .next ({ s with inbox := rest }.started w h d a r g b) := by
  have hok' : coreOk { s with inbox := rest } = true := hok
  rw [stepWith_of_decodeImage hwait hbusy hi, startDecode, if_pos hok']
  simp only [hw, hh, hd, ha, hr, hg, hb, withReg_some]

/-- Under `CORE_OK` the header and the four regions make a file whose size fits its register. -/
theorem coreOk_fileSize {a r g b : BitVec 32} (hok : coreOk s = true) (ha : s.descAlen = some a)
    (hr : s.descRlen = some r) (hg : s.descGlen = some g) (hb : s.descBlen = some b) :
    32 + a.toNat + r.toNat + g.toNat + b.toNat < 2 ^ 32 := by
  obtain ⟨w, h, d, a', r', g', b', f, hw, hh, hd, ha', hr', hg', hb', hf⟩ := coreOk_registers hok
  obtain rfl := Option.some.inj (ha.symm.trans ha')
  obtain rfl := Option.some.inj (hr.symm.trans hr')
  obtain rfl := Option.some.inj (hg.symm.trans hg')
  obtain rfl := Option.some.inj (hb.symm.trans hb')
  simp only [coreOk, hw, hh, hd, ha, hr, hg, hb, hf, Bool.and_eq_true, beq_iff_eq] at hok
  obtain ⟨⟨-, hlens⟩, -⟩ := hok
  exact hlens ▸ f.isLt

/-- The file offsets of the jobs are exact (30_encoding R93). -/
theorem jobList_exact {alpha : Bool} {a r g b : BitVec 32} (hsize : 32 + a.toNat + r.toNat + g.toNat + b.toNat < 2 ^ 32) :
    (jobList alpha a r g b).map (fun j => (j.chan.toNat, j.fileOff.toNat, j.len.toNat)) =
      (if alpha then [(3, 32, a.toNat)] else []) ++
        [(0, 32 + a.toNat, r.toNat), (1, 32 + a.toNat + r.toNat, g.toNat),
          (2, 32 + a.toNat + r.toNat + g.toNat, b.toNat)] := by
  have hoff : ∀ k, k < 2 ^ 32 → (BitVec.ofNat 33 k).toNat = k := fun k hk => by
    rw [BitVec.toNat_ofNat, Nat.mod_eq_of_lt (by omega)]
  have hR : (BitVec.ofNat 33 (offR a)).toNat = 32 + a.toNat := hoff _ (by simp only [offR]; omega)
  have hG : (BitVec.ofNat 33 (offG a r)).toNat = 32 + a.toNat + r.toNat := hoff _ (by simp only [offG, offR]; omega)
  have hB : (BitVec.ofNat 33 (offB a r g)).toNat = 32 + a.toNat + r.toNat + g.toNat :=
    hoff _ (by simp only [offB, offG, offR]; omega)
  cases alpha <;> simp only [jobList, List.map_append, List.map_cons, List.map_nil, hR, hG, hB] <;> rfl

/-- An image has alpha when its depth is 32 and its alpha region is not empty (10_state R27). -/
theorem hasAlpha_eq (d : BitVec 16) (a : BitVec 32) :
    (d == 32 && decide (0 < a.toNat)) = decide (d = 32 ∧ 0 < a.toNat) := by
  rw [Bool.decide_and, beq_eq_decide]

/-- The sizes of a start are exact, with four bytes to a pixel when the image has alpha (10_state R27). -/
theorem started_sizes (w h d : BitVec 16) (a r g b : BitVec 32) :
    (s.started w h d a r g b).planeSize.map BitVec.toNat = some (w.toNat * h.toNat) ∧
      (s.started w h d a r g b).pixSize.map BitVec.toNat =
        some (w.toNat * h.toNat * (if d = 32 ∧ 0 < a.toNat then 4 else 3)) := by
  have hbpp : (if d = 32 ∧ 0 < a.toNat then 4 else 3 : BitVec 3).toNat = if d = 32 ∧ 0 < a.toNat then 4 else 3 := by
    split <;> rfl
  have hbpp4 : (if d = 32 ∧ 0 < a.toNat then 4 else 3 : BitVec 3).toNat ≤ 4 := by split <;> decide
  obtain ⟨hplane, hpix⟩ := startSizes_exact w h _ hbpp4
  rw [hbpp] at hpix
  simp only [State.started, hasAlpha_eq, decide_eq_true_eq, hbpp, Option.map_some, hplane, hpix, and_self]

/-- The word of a decode in progress (10_state R28). -/
theorem statusWord_busy (hst : s.statusState = .busy) (hf : s.statusFormat = .rgb24) : statusWord s = 1 := by
  rw [statusWord, hst, hf]
  decide

/-- Settles O40: the start's state, its sizes by `started_sizes` and its offsets by `jobList_exact`. -/
theorem startBuildsTheJobs : Obligations.StartBuildsTheJobs := by
  intro s rest w h d a r g b hwait hbusy hi hok hw hh hd ha hr hg hb
  obtain ⟨hplane, hpix⟩ := started_sizes (s := { s with inbox := rest }) w h d a r g b
  refine ⟨_, jobList (decide (d = 32 ∧ 0 < a.toNat)) a r g b,
    stepWith_start hwait hbusy hi hok hw hh hd ha hr hg hb, ?_, statusWord_busy rfl rfl, hplane, hpix, ?_⟩
  · simp only [State.started, hasAlpha_eq, decide_eq_true_eq]
  · simp only [jobList_exact (coreOk_fileSize hok ha hr hg hb), decide_eq_true_eq]

/-! ## The host (R230, R231, 20_memory R75, 70_reset_and_hazards R273) -/

/-- A pending load that may happen writes `SRC` and the descriptor. -/
theorem stepWith_load {d : Descriptor} {image : List Byte} {rest : List HostAct} (hw : s.phase.waits = true)
    (hb : s.statusState ≠ .busy) (hi : s.inbox = .load d image :: rest) :
    stepWith p s = .next ({ s with inbox := rest }.loaded d image) := by
  simp [stepWith_of_waits hw, waitForHost, hi, hostAct, hb]

/-- Settles O42: the load by `stepWith_load`, the refusals and the read by the guards on `STATUS.STATE`. -/
theorem hostInterface : Obligations.HostInterface := by
  refine ⟨fun s d image rest hw hb hi => ⟨_, stepWith_load hw hb hi, rfl, fun a => ?_⟩, fun s act hb => if_pos hb,
    fun s a hd => if_neg hd, fun s a v hd hv => ?_⟩
  · exact (Memory.read_ofBytes image 0 a).trans (if_pos (Nat.zero_le a))
  · rw [hostReadPix, if_pos hd, hv, withVal_some]

theorem parseHeader_fileSize {image : List Byte} {d : Descriptor} (h : parseHeader image = some d) :
    d.fileSize = BitVec.ofNat 32 image.length := by
  unfold parseHeader at h
  split at h
  · obtain rfl := Option.some.inj h
    rfl
  · cases h

/-- What the collaborator's checks say of a file it accepts (30_encoding R91). -/
theorem loadDescriptor_some {image : List Byte} {d : Descriptor} (h : loadDescriptor image = some d) :
    d.fileSize = BitVec.ofNat 32 image.length ∧ (d.depth = 24 ∨ d.depth = 32) ∧
      32 + d.alen.toNat + d.rlen.toNat + d.glen.toNat + d.blen.toNat = image.length := by
  unfold loadDescriptor at h
  split at h
  · cases h
  · rename_i d' hparse
    split at h
    · rename_i hvalid
      obtain rfl := Option.some.inj h
      simp only [Descriptor.valid, Bool.and_eq_true, Bool.or_eq_true, beq_iff_eq] at hvalid
      obtain ⟨⟨-, hdepth⟩, hlens⟩ := hvalid
      exact ⟨parseHeader_fileSize hparse, hdepth, hlens⟩
    · cases h

/-- Settles O43: the parts of `CORE_OK`, with the file size exact below 2^32 and every byte of `SRC` loaded. -/
theorem acceptedFileMayStart : Obligations.AcceptedFileMayStart := by
  intro s image d hload hw hh hsize
  obtain ⟨hfile, hdepth, hlens⟩ := loadDescriptor_some hload
  have hexact : d.fileSize.toNat = image.length := by rw [hfile, BitVec.toNat_ofNat, Nat.mod_eq_of_lt hsize]
  have hbytes : ∀ i, ((Memory.ofBytes 0 image).read i).isSome = true ↔ i < d.fileSize.toNat := by
    intro i
    rw [hexact, Memory.read_ofBytes, if_pos (Nat.zero_le i), Nat.sub_zero]
    simp
  exact (coreOk_iff (s := s.loaded d image) rfl rfl rfl rfl rfl rfl rfl rfl (Memory.wf_ofBytes image 0)).mpr
    ⟨hw, hh, hdepth, hlens.trans hexact.symm, hbytes⟩

end Sys2Proof.Machine

/-! # The exceptions family: waiting, the fault entry and the reports (60_exceptions) -/

namespace Sys2Proof.Machine

variable {p : FreqOverflow} {s t : State}

/-! ## A waiting phase (R246, R256) -/

/-- With no act of the host pending a waiting phase changes nothing (R256). -/
theorem stepWith_of_noAct (hw : s.phase.waits = true) (hi : s.inbox = []) : stepWith p s = .next s := by
  simp [stepWith_of_waits hw, waitForHost, hi]

/-- A start that is admitted begins a decode from the descriptor's fields (44_pipeline R211). -/
theorem startDecode_next (h : startDecode s = .next t) :
    ∃ w ht d a r g b, t = s.started w ht d a r g b := by
  unfold startDecode at h
  split at h
  · simp only [withReg_next, Host.Outcome.next.injEq] at h
    obtain ⟨w, -, ht, -, d, -, a, -, r, -, g, -, b, -, rfl⟩ := h
    exact ⟨w, ht, d, a, r, g, b, rfl⟩
  · cases h

/-- Settles O9, by `stepWith_of_noAct`. -/
theorem waitingKeepsEverything : Obligations.WaitingKeepsEverything :=
  fun _ hw hi => stepWith_of_noAct hw hi

/-- Settles O37, by the pending act: none and a load leave these registers alone, a start clears them. -/
theorem errorStaysUntilTheNextStart : Obligations.ErrorStaysUntilTheNextStart := by
  intro p s t hph hst h
  have hw : s.phase.waits = true := by rw [hph]; rfl
  have hb : s.statusState ≠ .busy := by rw [hst]; decide
  match hi : s.inbox with
  | [] =>
    rw [stepWith_of_noAct hw hi] at h
    cases h
    exact .inl ⟨hph, hst, rfl, rfl, rfl⟩
  | .load d image :: rest =>
    rw [stepWith_load hw hb hi] at h
    cases h
    exact .inl ⟨hph, hst, rfl, rfl, rfl⟩
  | .decodeImage :: rest =>
    rw [stepWith_of_decodeImage hw hb hi] at h
    obtain ⟨w, ht, d, a, r, g, b, rfl⟩ := startDecode_next h
    exact .inr ⟨rfl, rfl, rfl, rfl, rfl, rfl⟩

/-! ## The fault entry and what it reports (R241, R242, R245) -/

/-- In ERROR the two low bits of the status word read 3, whatever the format bit is (10_state R28). -/
theorem statusWord_error (hst : s.statusState = .error) : (statusWord s).toNat % 4 = 3 := by
  have hword := statusWordLayout s
  rw [hst] at hword
  rw [hword]
  exact Nat.add_mul_mod_self_left 3 4 _

/-- Settles O36: `raise` is the fault entry, and its state is ERROR. -/
theorem faultEntryWipesTheDecode : Obligations.FaultEntryWipesTheDecode :=
  fun _ _ _ _ hc => ⟨_, raise_eq hc, rfl, statusWord_error rfl⟩

/-- Settles O55: six stages and seven kinds, each pair a closed fact about R242's table. -/
theorem reportsAreTheTables : Obligations.ReportsAreTheTables := by
  intro st e
  cases st <;> cases e <;> decide

end Sys2Proof.Machine

/-! # The reset and hazards family: every run ends (70_reset_and_hazards R282) -/

namespace Sys2Proof.Machine

variable {p : FreqOverflow} {s t : State}

/-! ## What is left of a run: its channels, the phases of the channel, the rounds of the phase's loop -/

/-- The jobs from `JOB_IDX` on: the channels that are not done yet (44_pipeline R212, R220). -/
def State.channelsLeft (s : State) : Nat := (s.jobs.getD []).length - (s.jobIdx.getD 0).toNat

/-- The phases a channel has from here on, on its longest path: within a channel no phase comes twice (R33). -/
def Phase.phasesLeft (ph : Phase) : Nat :=
  match ph with
  | .chSetup => 8
  | .hufHeader => 7
  | .hufBuild => 6
  | .hufDecode => 5
  | .dictHeader => 4
  | .dict | .rle => 3
  | .fillCheck => 2
  | .scatter => 1
  | .chNext | .idle | .done | .error => 0

/-- The node indices the build has not used, and the bits between the port and its limit together with those the
BitReader holds: every round of one of the loops of R282 uses some of them, and none gives any back. -/
def State.roundsLeft (s : State) : Nat :=
  (512 - (s.hufNext.getD 0).toNat) + 8 * ((s.inLimit.getD 0).toNat - (s.inPos.getD 0).toNat) +
    (8 - (s.brPos.getD 0).val)

/-- What is left of a run, in lexicographic order: a new channel starts its phases afresh, and a new phase its loop. -/
def State.runLeft (s : State) : Nat ×ₗ Nat ×ₗ Nat :=
  toLex (s.channelsLeft, toLex (s.phase.phasesLeft, s.roundsLeft))

/-! ## What a step uses up -/

theorem runLeft_lt_of_channelsLeft (h : t.channelsLeft < s.channelsLeft) : t.runLeft < s.runLeft :=
  Prod.Lex.toLex_lt_toLex.mpr (.inl h)

theorem runLeft_lt_of_phasesLeft (hc : t.channelsLeft = s.channelsLeft)
    (h : t.phase.phasesLeft < s.phase.phasesLeft) : t.runLeft < s.runLeft :=
  Prod.Lex.toLex_lt_toLex.mpr (.inr ⟨hc, Prod.Lex.toLex_lt_toLex.mpr (.inl h)⟩)

theorem runLeft_lt_of_roundsLeft (hc : t.channelsLeft = s.channelsLeft) (hph : t.phase = s.phase)
    (h : t.roundsLeft < s.roundsLeft) : t.runLeft < s.runLeft :=
  Prod.Lex.toLex_lt_toLex.mpr (.inr ⟨hc, Prod.Lex.toLex_lt_toLex.mpr (.inr ⟨by rw [hph], h⟩)⟩)

/-- The port moved forwards inside its window (20_memory R66). -/
theorem setInPos_runLeft_lt {p0 l q : BitVec 33} (hp : s.inPos = some p0) (hl : s.inLimit = some l)
    (hlt : p0.toNat < q.toNat) (hroom : p0.toNat < l.toNat) : (s.setInPos q).runLeft < s.runLeft := by
  refine runLeft_lt_of_roundsLeft rfl rfl ?_
  simp only [State.roundsLeft, State.setInPos_hufNext, State.setInPos_inLimit, State.setInPos_inPos,
    State.setInPos_brPos, hp, hl, Option.getD_some]
  omega

/-- A token of `k` bytes consumed. -/
theorem advance_runLeft_lt {p0 l : BitVec 33} {k : Nat} (hp : s.inPos = some p0) (hl : s.inLimit = some l)
    (hroom : p0.toNat + k ≤ l.toNat) (hk : 0 < k) : (s.setInPos (p0 + BitVec.ofNat 33 k)).runLeft < s.runLeft := by
  have hpos := toNat_add_ofNat hroom
  exact setInPos_runLeft_lt hp hl (by omega) (by omega)

/-- A code bit is a bit of the loaded byte, or a byte of the window is consumed for it and its other seven bits are kept
(40_bitreader R131). -/
theorem BitTaken.runLeft_lt {bit : Bool} (h : BitTaken s bit t) : t.runLeft < s.runLeft := by
  cases h with
  | loaded q b hq hpos hb =>
    refine runLeft_lt_of_roundsLeft rfl rfl ?_
    simp only [State.roundsLeft, State.setBits_hufNext, State.setBits_inLimit, State.setBits_inPos,
      State.setBits_brPos, hpos, Option.getD_some]
    omega
  | refill p0 l sp v hpos hp hl hlt hsp hv =>
    have hnext : (p0 + 1).toNat = p0.toNat + 1 := toNat_add_ofNat (k := 1) hlt
    refine runLeft_lt_of_roundsLeft rfl rfl ?_
    simp only [State.roundsLeft, State.setBits_hufNext, State.setBits_inLimit, State.setBits_inPos,
      State.setBits_brPos, State.setInPos_hufNext, State.setInPos_inLimit, State.setInPos_inPos, hpos, hp, hl,
      Option.getD_some]
    omega

/-- A merge uses the next node index, and the last one enters the walk (41_huffman R144). -/
theorem merged_runLeft_lt {n : BitVec 10} {l r : BitVec 9} {f : Nat} {act : List (BitVec 9)}
    (hph : s.phase = .hufBuild) (hn : s.hufNext = some n) (hhi : n.toNat ≤ 510) :
    (s.merged n l r f act).runLeft < s.runLeft := by
  by_cases h1 : act.length = 1
  · rw [State.merged_last h1]
    exact runLeft_lt_of_phasesLeft rfl (by simp [hph, Phase.phasesLeft])
  · rw [State.merged_more h1]
    have hnext : (n + 1).toNat = n.toNat + 1 := toNat_add_ofNat (k := 1) (n := 511) (Nat.succ_le_succ hhi)
    refine runLeft_lt_of_roundsLeft rfl rfl ?_
    simp only [State.roundsLeft, hn, Option.getD_some]
    omega

/-- The advance to another channel leaves one channel fewer (44_pipeline R220). -/
theorem State.ImageOk.nextChannel_runLeft_lt {js : List Job} {i : BitVec 3} (h : s.ImageOk) (hjs : s.jobs = some js)
    (hi : s.jobIdx = some i) : State.runLeft { s with jobIdx := some (i + 1), phase := .chSetup } < s.runLeft := by
  obtain ⟨js', i', b, hjs', hi', -, hlt, hle, -⟩ := h.jobs
  obtain rfl := Option.some.inj (hjs.symm.trans hjs')
  obtain rfl := Option.some.inj (hi.symm.trans hi')
  have hnext : (i + 1).toNat = i.toNat + 1 :=
    toNat_add_ofNat (k := 1) (n := 7) (by show i.toNat + 1 ≤ 7; omega)
  refine runLeft_lt_of_channelsLeft ?_
  simp only [State.channelsLeft, hjs, hi, Option.getD_some]
  omega

/-- A step of a safe running state ends the decode or leaves less of the run. -/
theorem Effect.runLeft_lt (h : Effect p s t) (hs : s.Running) : t.Ended ∨ t.runLeft < s.runLeft := by
  have hw := hs.waits
  cases h with
  | wait hw' => rw [hw] at hw'; cases hw'
  | load _ _ _ hw' => rw [hw] at hw'; cases hw'
  | start _ _ _ _ _ _ _ _ hw' => rw [hw] at hw'; cases hw'
  | fault => exact .inl (.inr ⟨rfl, rfl⟩)
  | imageDone => exact .inl (.inl ⟨rfl, rfl⟩)
  | nextChannel js i hph hjs hi =>
    simp only [State.Running, hph] at hs
    exact .inr (hs.nextChannel_runLeft_lt hjs hi)
  | merge l r rest act' n fl fr f hph hact hn hlo hhi => exact .inr (merged_runLeft_lt hph hn hhi)
  | walk bit s1 node child hph hbit => exact .inr hbit.runLeft_lt
  | emit bit s1 node child cnt u hph hbit => exact .inr hbit.runLeft_lt
  | dictAppend b len p0 l d n hph hp hl hroom hlen => exact .inr (advance_runLeft_lt hp hl hroom (by omega))
  | dictSkip p0 l hph hp hl hroom => exact .inr (advance_runLeft_lt hp hl hroom (by decide))
  | dictCopy p0 l o count e d n plane hph hp hl hroom => exact .inr (advance_runLeft_lt hp hl hroom (by decide))
  | rleWrite vs len p0 l q d n hph hp hl hroom hq => exact .inr (setInPos_runLeft_lt hp hl (by omega) (by omega))
  | rleNop p0 l hph hp hl hroom => exact .inr (advance_runLeft_lt hp hl hroom (by decide))
  | pipeRle _ _ _ hph | pipeHuf _ _ _ _ hph | header _ _ _ _ _ hph | hufEndDict _ hph | hufEndRle _ _ hph
  | dictHeader _ _ hph | dictEnd _ hph | rleEnd _ _ _ hph | fillOk _ _ hph | scatter _ _ _ _ _ _ hph =>
    exact .inr (runLeft_lt_of_phasesLeft rfl (by simp [hph, Phase.phasesLeft]))

/-! ## The obligation -/

/-- A safe running state's step answers, and its answer has ended or is safe with less of the run left. -/
theorem State.Running.ends {s : State} (hs : s.Running) : ∃ n t, runWith p n s = .next t ∧ t.Ended := by
  obtain ⟨t, ht⟩ := hs.answers (p := p)
  have heffect := stepWith_effect ht
  by_cases hend : t.Ended
  · exact ⟨1, t, by rw [runWith, ht]; rfl, hend⟩
  · have hless := (heffect.runLeft_lt hs).resolve_left hend
    obtain ⟨n, u, hu, hend⟩ := ((heffect.running hs).resolve_right hend).ends
    exact ⟨n + 1, u, by rw [runWith, ht]; exact hu, hend⟩
termination_by s.runLeft
decreasing_by exact hless

/-- Settles O53, by `State.Running.ends`. -/
theorem everyRunEnds : Obligations.EveryRunEnds :=
  fun _ _ hs => hs.ends

end Sys2Proof.Machine
